-- ==== Sys2Proof/Word.lean ====
section
/-! DEFINITION. Word.lean: the widths of the block (R12): bytes, 16-bit descriptors, 32-bit addresses and register
values, 64-bit double-words, and the two halves of a double-word (R14). -/
namespace Sys2Proof

/-- One byte of the flash array (R43). -/
abbrev Byte := BitVec 8

/-- A 16-bit bus-transaction descriptor (R85). -/
abbrev Desc := BitVec 16

/-- A 32-bit address, register value or command word (R12). -/
abbrev Word := BitVec 32

/-- A 64-bit double-word, the program unit (R12). -/
abbrev DWord := BitVec 64

/-- `lo32(d) = d[31:0]` (R14). -/
def lo32 (d : DWord) : Word := d.extractLsb' 0 32

/-- `hi32(d) = d[63:32]` (R14). -/
def hi32 (d : DWord) : Word := d.extractLsb' 32 32

end Sys2Proof
end

