-- ==== Sys2Proof/Config.lean ====
section
/-! DEFINITION. Config.lean: the implementation parameters of 00_scope.md (R4-R11), fixed for a machine, and the free
values (`draw()` of R15), which are opaque constants. The parameters are a field of State that no step changes, so a
statement about every state is a statement about every configuration. -/
namespace Sys2Proof

/-- `VARIANT` (R4): the geometry variant. -/
inductive Variant where
  | pageSingle   -- 2 KiB pages, one bank (R5)
  | sectorDual   -- 128 KiB sectors, 8 a bank, two banks (R6)
deriving DecidableEq, Repr

/-- A bank name (R4): bank index 0 is Bank1, bank index 1 is Bank2. -/
inductive Bank where
  | b1
  | b2
deriving DecidableEq, Repr

/-- The sequencer instances (R8 `OWNED`, R248). Owned bank sets are disjoint, so at most two instances own a bank;
an instance that owns none answers BAD_COMMAND only. -/
inductive SeqId where
  | s1
  | s2
deriving DecidableEq, Repr

/-- `KEY_ERROR_POLICY` (R8, D9): what a wrong key does beyond staying locked. -/
inductive KeyErrorPolicy where
  | retry
  | lockoutUntilReset
deriving DecidableEq, Repr

/-- `REWRITE_CHECK` (R8, D18): how "erased" is judged. -/
inductive RewriteCheck where
  | content
  | programmed
deriving DecidableEq, Repr

/-- `REWRITE_RESULT` (R8, D18): what a failed program leaves. -/
inductive RewriteResult where
  | anyValue
  | unchanged
deriving DecidableEq, Repr

/-- The parameters of R4-R11. `REGMAP` (R10) is the canonical map, written in Machine/Operands.lean; `MEM0` (R11) is
the memory a state starts with. -/
structure Config where
  /-- `VARIANT` (R4). -/
  variant : Variant
  /-- `PAGE_COUNT` (R5), PAGE_SINGLE only. -/
  pageCount : Nat
  /-- `FLASH_ORIGIN` (R5), PAGE_SINGLE only. -/
  flashOrigin : Nat
  /-- `BANK_ORIGIN[Bank1]` (R6), SECTOR_DUAL only. -/
  bankOrigin1 : Nat
  /-- `BANK_ORIGIN[Bank2]` (R6), SECTOR_DUAL only. -/
  bankOrigin2 : Nat
  /-- `GROUP_BASE[Bank1]` (R10). -/
  groupBase1 : Nat
  /-- `GROUP_BASE[Bank2]` (R10), SECTOR_DUAL only. -/
  groupBase2 : Nat
  /-- `HAS_EOP` (R7). -/
  hasEop : Bool
  /-- `KEY_ERROR_POLICY` (R8). -/
  keyErrorPolicy : KeyErrorPolicy
  /-- `REWRITE_CHECK` (R8). -/
  rewriteCheck : RewriteCheck
  /-- `REWRITE_RESULT` (R8). -/
  rewriteResult : RewriteResult
  /-- `WRP_UNITS[Bank1]` (R8). -/
  wrpUnits1 : List Nat
  /-- `WRP_UNITS[Bank2]` (R8). -/
  wrpUnits2 : List Nat
  /-- `ECC_FAULTY` (R8): 8-aligned double-word addresses. -/
  eccFaulty : List Nat
  /-- `STALE_FIELDS_AFTER_ERROR` (R8). -/
  staleFieldsAfterError : Bool
  /-- `POLL_BUDGET` (R8): none or a positive number of SR reads. -/
  pollBudget : Option Nat
  /-- `WEDGE_ALLOWED` (R8, R122). -/
  wedgeAllowed : Bool
  /-- `OWNED` of the first sequencer instance (R8). -/
  owned1 : List Bank
  /-- `OWNED` of the second sequencer instance (R8). -/
  owned2 : List Bank
  /-- `CLOCK_ENABLED` (R11). -/
  clockEnabled : Bool
deriving DecidableEq, Repr

/-- Test configuration TC1 (R13), one sequencer owning every bank, every other parameter at its default (R8). -/
def Config.tc1 : Config where
  variant := .pageSingle
  pageCount := 128
  flashOrigin := 0x08000000
  bankOrigin1 := 0
  bankOrigin2 := 0
  groupBase1 := 0x40022000
  groupBase2 := 0
  hasEop := true
  keyErrorPolicy := .retry
  rewriteCheck := .content
  rewriteResult := .anyValue
  wrpUnits1 := []
  wrpUnits2 := []
  eccFaulty := []
  staleFieldsAfterError := true
  pollBudget := none
  wedgeAllowed := false
  owned1 := [.b1]
  owned2 := []
  clockEnabled := true

/-- Test configuration TC2 (R13). -/
def Config.tc2 : Config :=
  { Config.tc1 with
    variant := .sectorDual, bankOrigin1 := 0x08000000, bankOrigin2 := 0x08100000,
    groupBase2 := 0x40022100, owned1 := [.b1, .b2] }

/-- The configuration State.reset carries: TC2, so that both banks and every command word have a bank to act on.
DESIGN CHOICE (unsafe), log entry 1: the spec leaves the parameters OPEN (R4-R11). -/
def Config.launch : Config := Config.tc2

/-- Free value (R114): what CR.UNB holds after a failed start or program attempt, by draw number. -/
opaque Config.freeUnb : Nat → BitVec 8

/-- Free value (R114): what CR.BKSEL holds after a failed start or program attempt, by draw number. -/
opaque Config.freeBksel : Nat → Bool

/-- Free value (R121): the data of a read that touches an ECC-faulty double-word, by draw number. -/
opaque Config.freeEccData : Nat → Word

/-- Free value (R125): what a failed program leaves in the double-word, by draw number. -/
opaque Config.freeRewrite : Nat → DWord

/-- Free value (R292): the byte an operation cut short by reset leaves, by draw number and address. -/
opaque Config.freeByte : Nat → Nat → Byte

/-- Free value (R292): the `programmed` bit an operation cut short by reset leaves, by draw number and address. -/
opaque Config.freeMark : Nat → Nat → Bool

/-- Free value (R45, R290): a DBUF entry nobody has written, by draw number and index. -/
opaque Config.freeDbuf : Nat → Nat → DWord

/-- Free value (R45, R290): an RBUF entry nobody has written, by draw number and index. -/
opaque Config.freeRbuf : Nat → Nat → Byte

/-- Free value (R63, R270): what the platform answers to a read outside every window, by draw number. -/
opaque Config.freeForeign : Nat → Word

/-- Free value (R122 `WEDGE_ALLOWED`): whether a wedged part's engine takes its turn, by draw number. -/
opaque Config.freeWedge : Nat → Bool

end Sys2Proof
end

