-- ==== Sys2Proof/Syntax.lean ====
section
/-! DEFINITION. Syntax.lean: the 22 rows of the opcode table, one constructor each (30_encoding.md R85, R87). A
command carries the fields of its word (R86). A bus transaction carries none: all 16 bits of its descriptor are fixed,
and its address and data are on the bus lines (R85), as a command's ARG0, ARG1 and DBUF are in registers (R88). -/
namespace Sys2Proof

/-- The width of an array access (R12, R85 field SZ). -/
inductive Size where
  | b8
  | h16
  | w32
deriving DecidableEq, Repr

/-- The instructions: CMD32 command words of the command port, then BUS16 transactions of the bus interface. -/
inductive Instr where
  | unlock (b : Bank)                              -- R140
  | lock (b : Bank)                                -- R150
  | clearErrors (b : Bank)                         -- R160
  | eraseUnit (b : Bank) (idx : BitVec 8)          -- R175
  | eraseBank (b : Bank)                           -- R185
  | writeUnit (b : Bank) (idx : BitVec 8)          -- R200
  | readUnit (b : Bank) (idx : BitVec 8)           -- R223
  | unitToAddress (b : Bank) (idx : BitVec 8)      -- R221
  | keyrRd                                         -- R101
  | keyrWr                                         -- R104-R106
  | srRd                                           -- R102
  | srWr                                           -- R108
  | crRd                                           -- R103
  | crWr                                           -- R109-R113
  | rsvRd                                          -- R115
  | rsvWr                                          -- R115
  | arrRd8                                         -- R120
  | arrRd16                                        -- R120
  | arrRd32                                        -- R120
  | arrWr8                                         -- R116-R118
  | arrWr16                                        -- R116-R118
  | arrWr32                                        -- R116-R118
deriving DecidableEq, Repr

/-- An instruction's word in the interface it is presented to: a CMD32 command word (R86) or a BUS16 descriptor
(R85). -/
inductive Code where
  | cmd (w : Word)
  | bus (d : Desc)
deriving DecidableEq, Repr

end Sys2Proof
end

