-- ==== Sys2Proof/Machine/State.lean ====
section
/-! DEFINITION. Machine/State.lean: everything 10_state.md gives the machine (R20-R45), as plain data, the agents of
R16 with the inputs that wait for them, and the state after reset (R290, R291). -/
namespace Sys2Proof.Machine

/-- The flash array (R43): address and byte pairs, addresses strictly rising, no entry equal to what an unlisted
address reads as (Machine/Ops.lean, `Memory.unlisted`). -/
abbrev Memory := List Host.Cell

/-- `key_state(g)` (R38): expecting key word 1, or key word 1 seen. -/
inductive KeyState where
  | k0
  | k1
deriving DecidableEq, Repr

/-- The filled program latch `(A, w)` (R40). -/
structure Latch where
  addr : Word
  low : Word
deriving DecidableEq, Repr

/-- The operation an engine carries out (R41). -/
inductive Operation where
  | eraseUnit (u : BitVec 8)
  | eraseBank
  | program (addr : Word) (data : DWord)
deriving DecidableEq, Repr

/-- One register group with its hidden state and its engine (R21-R41). SR.BSY is `inflight ≠ none` (R22) and KEYR
stores nothing (R21), so neither is a field. -/
structure Group where
  eop : Bool                        -- SR.EOP (R23)
  wrperr : Bool                     -- SR.WRPERR (R24)
  sizerr : Bool                     -- SR.SIZERR (R25)
  pgserr : Bool                     -- SR.PGSERR (R26)
  eccerr : Bool                     -- SR.ECCERR (R27)
  bsyerr : Bool                     -- SR.BSYERR (R28)
  pg : Bool                         -- CR.PG (R30)
  uer : Bool                        -- CR.UER (R31)
  mer : Bool                        -- CR.MER (R32)
  unb : BitVec 8                    -- CR.UNB (R34)
  bksel : Bool                      -- CR.BKSEL (R35)
  lock : Bool                       -- CR.LOCK (R36)
  keyState : KeyState               -- key_state (R38)
  keyLockout : Bool                 -- key_lockout (R39)
  latch : Option Latch              -- latch, none is empty (R40)
  inflight : Option Operation       -- inflight (R41)
deriving DecidableEq, Repr

/-- The sequencer states with codes 0-25 (R44). -/
inductive SeqState where
  | idle | decode | ulReadCr | ulKey1 | ulKey2 | ulCheck | busyCheck | fcReadSr | fcClear | validate | cfgReadCr
  | cfgWriteCr | start | pgWriteLo | pgWriteHi | waitBsy | postCheck | waitEop | ackEop | clrReadCr | clrWriteCr
  | lkWait | lkReadCr | lkWriteCr | rdByte | done
deriving DecidableEq, Repr

/-- The result codes 0-6 of RES (R89); code 7 is never produced. -/
inductive Result where
  | ok
  | busy
  | failure
  | pageOutOfRange
  | eccError
  | timeout
  | badCommand
deriving DecidableEq, Repr

/-- One sequencer instance: STATE (R44) and the datapath registers (R45). DBUF holds the words the host gave; an entry
beyond them is a free value of draw `dbufEra`. RBUF lists the bytes written, by index; an entry not listed is a free
value of draw `rbufEra`. `polls` counts the SR reads of the current wait, all of them, since POLL_BUDGET may be any
positive integer (R8, D32); the register POLLS is its low 32 bits (`Sequencer.pollsReg`, log entry 13). -/
structure Sequencer where
  state : SeqState
  cmd : Word
  arg0 : Word
  arg1 : Word
  dbuf : List DWord
  dbufEra : Nat
  rbuf : List (Nat × Byte)
  rbufEra : Nat
  res : Result
  raddr : Word
  opr : BitVec 4
  bk : Bank
  idx : BitVec 8
  addr : Word
  k : Word
  polls : Nat
  srv : Word
  crv : Word
  fcm : Word
deriving DecidableEq, Repr

/-- The two host actions at a command port (R247). -/
inductive HostMove where
  | issue (cmd arg0 arg1 : Word) (dbuf : List DWord)
  | collect
deriving DecidableEq, Repr

/-- What `collect()` returns (R247): RES, RADDR and RBUF (with the draw its unwritten entries are values of). -/
structure HostReturn where
  res : Result
  raddr : Word
  rbuf : List (Nat × Byte)
  rbufEra : Nat
deriving DecidableEq, Repr

/-- A command port: the host's moves still to come, oldest first, and what its last `collect` returned (R247). -/
structure Port where
  queue : List HostMove
  ret : Option HostReturn
deriving DecidableEq, Repr

/-- A raw transaction a bus master of R16 (d) has ready: descriptor, address and written data (R85). -/
structure Txn where
  desc : Desc
  addr : Word
  data : Word
deriving DecidableEq, Repr

/-- The bus lines of a raw transaction: the address and the written data presented, the data last returned, and
whether the transaction is held in a stall (R15, R120). -/
structure BusLines where
  addr : Word
  wdata : Word
  rdata : Word
  stall : Bool
deriving DecidableEq, Repr

/-- Who may move (R16), and the reset event (R290). -/
inductive Agent where
  | seq (n : SeqId)
  | engine (b : Bank)
  | host (n : SeqId)
  | master (k : Nat)
  | reset
deriving DecidableEq, Repr

/-- The whole machine (R20). `turn`, `sched` and `draws` are the model's own: whose command step `exec` runs, the
agents' order of moves still to come (R66), and how many draws have been made. -/
structure State where
  cfg : Config                      -- the parameters (R4-R11), never changed
  g1 : Group                        -- register group and engine of Bank1
  g2 : Group                        -- register group and engine of Bank2
  mem : Memory                      -- arr (R43)
  marks : List Nat                  -- programmed (R42): the double-words whose bit is set
  q1 : Sequencer                    -- the sequencer instances (R44, R45)
  q2 : Sequencer
  p1 : Port                         -- their command ports (R247)
  p2 : Port
  bus : BusLines                    -- the lines of the raw transaction being made
  masters : List (List Txn)         -- other bus masters' transactions still to come (R16 (d))
  refusalMark : Bool                -- the refusal mark (R20 (e))
  turn : SeqId
  sched : List Agent
  draws : Nat
deriving DecidableEq, Repr

/-- Why a step can stop the machine. No instruction stops in a state a run from reset can reach; both are safe. -/
inductive Fault where
  /-- Raised by a command's meaning when STATE is not one of that command's states (R44, R175, R200, ...): the spec
  gives the command no step there. Safe: the model stops. -/
  | stateNotOfCommand
  /-- Raised by the step when STATE is past DECODE and OPR holds no operation code (R45, R87). Safe: the model
  stops. -/
  | noCommand
deriving DecidableEq, Repr

/-- Why the model gives a step no meaning. -/
inductive Refusal where
  /-- Raised by `exec` for an instruction that has no meaning yet, by its mnemonic. Safe. -/
  | notModelled (mnemonic : String)
  /-- Raised by the step when the parameters break R9 ("A model should reject a configuration that breaks one").
  Safe. -/
  | illegalConfiguration
deriving DecidableEq, Repr

/-- A register group after reset (R290): SR 0, CR 0x8000_0000, K0, no lockout, latch empty, engine idle. -/
def Group.reset : Group where
  eop := false
  wrperr := false
  sizerr := false
  pgserr := false
  eccerr := false
  bsyerr := false
  pg := false
  uer := false
  mer := false
  unb := 0
  bksel := false
  lock := true
  keyState := .k0
  keyLockout := false
  latch := none
  inflight := none

/-- A sequencer after the reset that makes draw `era` (R290): IDLE, RES = OK, every register 0, the buffers free. -/
def Sequencer.reset (era : Nat) : Sequencer where
  state := .idle
  cmd := 0
  arg0 := 0
  arg1 := 0
  dbuf := []
  dbufEra := era
  rbuf := []
  rbufEra := era
  res := .ok
  raddr := 0
  opr := 0
  bk := .b1
  idx := 0
  addr := 0
  k := 0
  polls := 0
  srv := 0
  crv := 0
  fcm := 0

/-- The machine right after its first reset (R290, R291, R293), with nothing listed in memory, no host move and no raw
transaction waiting. The configuration, the bus lines, `turn`, `sched` and `draws` are the model's (log entries 1, 2,
4, 7). -/
def State.reset : State where
  cfg := Config.launch
  g1 := Group.reset
  g2 := Group.reset
  mem := []
  marks := []
  q1 := Sequencer.reset 0
  q2 := Sequencer.reset 1
  p1 := { queue := [], ret := none }
  p2 := { queue := [], ret := none }
  bus := { addr := 0, wdata := 0, rdata := 0, stall := false }
  masters := []
  refusalMark := false
  turn := .s1
  sched := []
  draws := 2

end Sys2Proof.Machine
end

