-- ==== Sys2Proof/Machine/Flags.lean ====
section
/-! DEFINITION. Machine/Flags.lean: the status flags of a register group: raising one (R15 `raise`, R260), the pending
error test of ERRMASK (R81), write-1-to-clear (R108), and the stale select fields of a failed attempt (R114). -/
namespace Sys2Proof.Machine

/-- The five error flags (R24-R28), in bit order 2 to 6 (R81). -/
inductive ErrorFlag where
  | wrperr
  | sizerr
  | pgserr
  | eccerr
  | bsyerr
deriving DecidableEq, Repr

/-- `raise FLAG(g)` (R15). Flags pile up: no other flag changes (R264). -/
def Group.raise (f : ErrorFlag) (g : Group) : Group :=
  match f with
  | .wrperr => { g with wrperr := true }
  | .sizerr => { g with sizerr := true }
  | .pgserr => { g with pgserr := true }
  | .eccerr => { g with eccerr := true }
  | .bsyerr => { g with bsyerr := true }

/-- `ERRMASK = 0x7C` (R81): the error bits 2-6 of SR. -/
def errMask : Word := 0x0000007C

/-- `(SR(g) & ERRMASK) ≠ 0` (R113, R116): some error flag is set. -/
def Group.errorPending (g : Group) : Bool :=
  g.wrperr || g.sizerr || g.pgserr || g.eccerr || g.bsyerr

/-- SR.BSY (R22): an operation is in flight. -/
def Group.busy (g : Group) : Bool := g.inflight.isSome

/-- The SR write of R108: each 1 bit clears its flag; bits 0 and 31:7, and bit 1 without EOP, are ignored. -/
def Group.srWrite (c : Config) (v : Word) (g : Group) : Group :=
  { g with
    eop := g.eop && !(c.hasEop && v.getLsbD 1)
    wrperr := g.wrperr && !v.getLsbD 2
    sizerr := g.sizerr && !v.getLsbD 3
    pgserr := g.pgserr && !v.getLsbD 4
    eccerr := g.eccerr && !v.getLsbD 5
    bsyerr := g.bsyerr && !v.getLsbD 6 }

/-- The stale select fields (R114): UNB, and BKSEL where present, become values of draw `n`. -/
def Group.stale (c : Config) (n : Nat) (g : Group) : Group :=
  if c.staleFieldsAfterError then
    { g with
      unb := Config.freeUnb n
      bksel := match c.variant with
        | .sectorDual => Config.freeBksel n
        | .pageSingle => g.bksel }
  else g

/-- A failed start or program attempt: raise the flag, then R114 (R113, R116-R118, R125). -/
def Group.fail (c : Config) (n : Nat) (f : ErrorFlag) (g : Group) : Group :=
  (g.raise f).stale c n

end Sys2Proof.Machine
end

