-- ==== Sys2Proof/Machine/Operands.lean ====
section
/-! DEFINITION. Machine/Operands.lean: the operand forms: geometry and address translation (R4-R6, R220), the windows
an address lies in (R60), the words SR and CR read as (R81, R82, R102, R103), the codes of results and states (R44,
R89), the words of the command sequences (R83, R175, R180, R183, R186, R202), and byte order (R64). -/
namespace Sys2Proof

/-- `UNIT_SIZE` (R5, R6). -/
def Config.unitSize (c : Config) : Nat :=
  match c.variant with
  | .pageSingle => 2048
  | .sectorDual => 131072

/-- `UNIT_COUNT(b)` (R5, R6): the same for every bank of the part. -/
def Config.unitCount (c : Config) : Nat :=
  match c.variant with
  | .pageSingle => c.pageCount
  | .sectorDual => 8

/-- `ORIGIN(b)` (R5, R6): a lookup, not a formula. -/
def Config.origin (c : Config) (b : Bank) : Nat :=
  match c.variant, b with
  | .pageSingle, _ => c.flashOrigin
  | .sectorDual, .b1 => c.bankOrigin1
  | .sectorDual, .b2 => c.bankOrigin2

/-- `GROUP_BASE[b]` (R10). -/
def Config.groupBase (c : Config) (b : Bank) : Nat :=
  match b with
  | .b1 => c.groupBase1
  | .b2 => c.groupBase2

/-- `b ∈ BANKS` (R4). -/
def Config.hasBank (c : Config) (b : Bank) : Bool :=
  match c.variant, b with
  | .pageSingle, .b2 => false
  | _, _ => true

/-- `WRP_UNITS[b]` (R8). -/
def Config.wrpUnits (c : Config) (b : Bank) : List Nat :=
  match b with
  | .b1 => c.wrpUnits1
  | .b2 => c.wrpUnits2

/-- `OWNED` of an instance (R8). -/
def Config.owned (c : Config) (n : SeqId) : List Bank :=
  match n with
  | .s1 => c.owned1
  | .s2 => c.owned2

/-- The size of bank b's flash window (R60 (b)). -/
def Config.bankSize (c : Config) : Nat := c.unitCount * c.unitSize

/-- `a` lies in bank b's flash window (R60 (b)). -/
def Config.inFlash (c : Config) (b : Bank) (a : Nat) : Bool :=
  c.hasBank b && decide (c.origin b ≤ a) && decide (a < c.origin b + c.bankSize)

/-- `a` lies in bank b's register window (R60 (a)). -/
def Config.inGroup (c : Config) (b : Bank) (a : Nat) : Bool :=
  c.hasBank b && decide (c.groupBase b ≤ a) && decide (a < c.groupBase b + 16)

/-- The bank whose flash window holds `a` (R60, R85). -/
def Config.flashBank (c : Config) (a : Nat) : Option Bank :=
  if c.inFlash .b1 a then some .b1 else if c.inFlash .b2 a then some .b2 else none

/-- The bank whose register window holds `a` (R60, R85). -/
def Config.groupBank (c : Config) (a : Nat) : Option Bank :=
  if c.inGroup .b1 a then some .b1 else if c.inGroup .b2 a then some .b2 else none

/-- `unit_to_address(index, bank)` (R220). -/
def Config.unitToAddress (c : Config) (u : Nat) (b : Bank) : Nat := c.origin b + u * c.unitSize

/-- `unit_of(a)` (R117). -/
def Config.unitOf (c : Config) (b : Bank) (a : Nat) : Nat := (a - c.origin b) / c.unitSize

/-- The bank index `bi` (R4), as the BKSEL bit. -/
def Bank.index (b : Bank) : Bool :=
  match b with
  | .b1 => false
  | .b2 => true

namespace Machine

/-- Bytes of an access (R12). -/
def sizeBytes (z : Size) : Nat :=
  match z with
  | .b8 => 1
  | .h16 => 2
  | .w32 => 4

/-- `SR(g)` as it reads (R102, R81): `zext_32({BSYERR, ECCERR, PGSERR, SIZERR, WRPERR, EOP or 0, BSY})`. -/
def srWord (c : Config) (g : Group) : Word :=
  (BitVec.ofBool g.bsyerr ++ BitVec.ofBool g.eccerr ++ BitVec.ofBool g.pgserr ++ BitVec.ofBool g.sizerr ++
    BitVec.ofBool g.wrperr ++ BitVec.ofBool (c.hasEop && g.eop) ++ BitVec.ofBool g.busy : BitVec 7).setWidth 32

/-- BKSEL where present, 0 in PAGE_SINGLE (R103). -/
def bkselBit (c : Config) (g : Group) : Bool :=
  match c.variant with
  | .sectorDual => g.bksel
  | .pageSingle => false

/-- `CR(g)` as it reads (R103, R82): `{LOCK, 0[30:17], BKSEL or 0, UNB, 0[7:4], 0, MER, UER, PG}`. -/
def crWord (c : Config) (g : Group) : Word :=
  (BitVec.ofBool g.lock ++ 0#14 ++ BitVec.ofBool (bkselBit c g) ++ g.unb ++ 0#4 ++ 0#1 ++
    BitVec.ofBool g.mer ++ BitVec.ofBool g.uer ++ BitVec.ofBool g.pg : BitVec 32)

/-- The RW fields of CR (R82, R111): PG, UER, MER, UNB, and BKSEL where present. -/
def crRwMask (c : Config) : Word :=
  match c.variant with
  | .sectorDual => 0x0001FF07
  | .pageSingle => 0x0000FF07

/-- Register offsets in a group's window (R80). -/
def keyrOff : Nat := 0x0
def srOff : Nat := 0x4
def crOff : Nat := 0x8
def rsvOff : Nat := 0xC

/-- The key words (R83). -/
def key1 : Word := 0x45670123
def key2 : Word := 0xCDEF89AB

/-- CR bits as masks (R82), and SR.EOP (R81). -/
def crPg : Word := 0x00000001
def crUer : Word := 0x00000002
def crMer : Word := 0x00000004
def crStrt : Word := 0x00000008
def crLock : Word := 0x80000000
def srEop : Word := 0x00000002

/-- PG, UER and MER: the enables a post-clear clears (R183) and WRITE_UNIT's configure write replaces (R202). -/
def enableMask : Word := 0x00000007

/-- `SELMASK` (43_erase_engine.md): PG, UER, MER, STRT, UNB and BKSEL. -/
def selMask : Word := 0x0001FF0F

/-- The configure value of ERASE_UNIT (R180). -/
def eraseUnitCfg (c : Config) (b : Bank) (idx : BitVec 8) (crv : Word) : Word :=
  (crv &&& ~~~selMask) ||| crUer ||| ((idx.setWidth 32) <<< 8) |||
    (match c.variant with
      | .sectorDual => ((BitVec.ofBool b.index).setWidth 32) <<< 16
      | .pageSingle => 0)

/-- The configure value of ERASE_BANK (R186). -/
def eraseBankCfg (crv : Word) : Word := (crv &&& ~~~selMask) ||| crMer

/-- The configure value of WRITE_UNIT (R202). -/
def writeUnitCfg (crv : Word) : Word := (crv &&& ~~~enableMask) ||| crPg

/-- The post-clear value (R183). -/
def postClear (crv : Word) : Word := crv &&& ~~~enableMask

/-- The lock value (R151, R155). -/
def lockValue (crv : Word) : Word := crv ||| crLock

/-- `1 << b` for the lowest set bit b of a word (R161). -/
def lowestBit (v : Word) : Word := v &&& (0 - v)

/-- Byte i of a double-word, `D[8i+7:8i]` (R64, R125). -/
def byteOf (d : DWord) (i : Nat) : Byte := d.extractLsb' (8 * i) 8

/-- RES as the host sees it (R89). -/
def resultCode (r : Result) : BitVec 3 :=
  match r with
  | .ok => 0
  | .busy => 1
  | .failure => 2
  | .pageOutOfRange => 3
  | .eccError => 4
  | .timeout => 5
  | .badCommand => 6

/-- The code of a sequencer state (R44). -/
def stateCode (q : SeqState) : BitVec 5 :=
  match q with
  | .idle => 0
  | .decode => 1
  | .ulReadCr => 2
  | .ulKey1 => 3
  | .ulKey2 => 4
  | .ulCheck => 5
  | .busyCheck => 6
  | .fcReadSr => 7
  | .fcClear => 8
  | .validate => 9
  | .cfgReadCr => 10
  | .cfgWriteCr => 11
  | .start => 12
  | .pgWriteLo => 13
  | .pgWriteHi => 14
  | .waitBsy => 15
  | .postCheck => 16
  | .waitEop => 17
  | .ackEop => 18
  | .clrReadCr => 19
  | .clrWriteCr => 20
  | .lkWait => 21
  | .lkReadCr => 22
  | .lkWriteCr => 23
  | .rdByte => 24
  | .done => 25

/-- The operation codes (R87). -/
def opUnlock : BitVec 4 := 0x1
def opLock : BitVec 4 := 0x2
def opClearErrors : BitVec 4 := 0x3
def opEraseUnit : BitVec 4 := 0x4
def opEraseBank : BitVec 4 := 0x5
def opWriteUnit : BitVec 4 := 0x6
def opReadUnit : BitVec 4 := 0x7
def opUnitToAddress : BitVec 4 := 0x8

end Machine
end Sys2Proof
end

