-- ==== Sys2Proof/Machine/Ops.lean ====
section
/-! DEFINITION. Machine/Ops.lean: the named operations: the flash array and the `programmed` bits, reads and writes of a
register group with the start evaluation and the program latch (40_register_interface.md), array transactions, the
refusal mark (R15), and entering and leaving a command's error path (R266, R267), which is what this block has for an
exception and its return. -/
namespace Sys2Proof.Machine

/-! ### The flash array (R43, R64) -/

/-- What an address not listed reads as: 0xFF, the erased byte. `MEM0` is arbitrary (R11); the list carries whatever
differs from all-erased. DESIGN CHOICE (unsafe for a claim about State.reset only), log entry 2. -/
def Memory.unlisted : Byte := 0xFF

/-- The byte at address `a`, `arr[a]`. -/
def Memory.read (m : Memory) (a : Nat) : Byte :=
  match m with
  | [] => Memory.unlisted
  | (k, v) :: r => if k = a then v else Memory.read r a

/-- Put a cell before the first listed address above `a`. -/
def Memory.insert (m : Memory) (a : Nat) (v : Byte) : Memory :=
  match m with
  | [] => [(a, v)]
  | (k, w) :: r => if a < k then (a, v) :: (k, w) :: r else (k, w) :: Memory.insert r a v

/-- `arr[a] <- v`, keeping the canonical form: writing what an unlisted address reads as removes the entry. -/
def Memory.write (m : Memory) (a : Nat) (v : Byte) : Memory :=
  if v = Memory.unlisted then m.filter (fun c => c.1 != a) else Memory.insert (m.filter (fun c => c.1 != a)) a v

/-- `arr[lo + i] <- f i` for i = 0 .. n-1. -/
def Memory.fill (m : Memory) (lo n : Nat) (f : Nat → Byte) : Memory :=
  match n with
  | 0 => m
  | n + 1 => Memory.write (Memory.fill m lo n f) (lo + n) (f n)

/-- `arr[a] <- 0xFF` for every `a` of `[lo, lo + n)` (R123). -/
def Memory.erase (m : Memory) (lo n : Nat) : Memory :=
  m.filter fun c => decide (c.1 < lo) || decide (lo + n ≤ c.1)

/-- The canonical form: addresses strictly rising, no entry equal to what an unlisted address reads as. -/
abbrev Memory.wf (m : Memory) : Prop :=
  m.Pairwise (fun c d => c.1 < d.1) ∧ ∀ c ∈ m, c.2 ≠ Memory.unlisted

/-- `{arr[a+7], ..., arr[a]}` (R64, R125). -/
def Memory.dword (m : Memory) (a : Nat) : DWord :=
  (m.read (a + 7) ++ m.read (a + 6) ++ m.read (a + 5) ++ m.read (a + 4) ++ m.read (a + 3) ++ m.read (a + 2) ++
    m.read (a + 1) ++ m.read a : BitVec 64)

/-- An array read of a size: little-endian (R64), zero-extended to the bus lines. -/
def Memory.load (m : Memory) (z : Size) (a : Nat) : Word :=
  match z with
  | .b8 => (m.read a).setWidth 32
  | .h16 => (m.read (a + 1) ++ m.read a : BitVec 16).setWidth 32
  | .w32 => (m.read (a + 3) ++ m.read (a + 2) ++ m.read (a + 1) ++ m.read a : BitVec 32)

/-! ### The `programmed` bits (R42), as the strictly rising list of the double-words whose bit is set -/

/-- `programmed(g, a) <- true`. -/
def addMark (l : List Nat) (a : Nat) : List Nat :=
  match l with
  | [] => [a]
  | k :: r => if a < k then a :: k :: r else if a = k then k :: r else k :: addMark r a

/-- `programmed(g, a) <- v`. -/
def setMark (l : List Nat) (a : Nat) (v : Bool) : List Nat :=
  if v then addMark l a else l.filter (fun x => x != a)

/-- `programmed(g, A) <- false` for every double-word of `[lo, lo + n)` (R123). -/
def dropMarks (l : List Nat) (lo n : Nat) : List Nat :=
  l.filter fun a => decide (a < lo) || decide (lo + n ≤ a)

/-- `programmed(g, lo + 8 i) <- f (lo + 8 i)` for i = 0 .. n-1 (R292). -/
def fillMarks (l : List Nat) (lo n : Nat) (f : Nat → Bool) : List Nat :=
  match n with
  | 0 => l
  | n + 1 => setMark (fillMarks l lo n f) (lo + 8 * n) (f (lo + 8 * n))

/-- The canonical form of the marks. -/
abbrev marksWf (l : List Nat) : Prop := l.Pairwise (· < ·)

/-! ### Parts of the state, by name -/

/-- Register group and engine of a bank. -/
def State.grp (s : State) (b : Bank) : Group :=
  match b with
  | .b1 => s.g1
  | .b2 => s.g2

/-- Change a bank's group and nothing else. -/
def State.onGrp (s : State) (b : Bank) (f : Group → Group) : State :=
  match b with
  | .b1 => { s with g1 := f s.g1 }
  | .b2 => { s with g2 := f s.g2 }

/-- A sequencer instance. -/
def State.seq (s : State) (n : SeqId) : Sequencer :=
  match n with
  | .s1 => s.q1
  | .s2 => s.q2

/-- Change a sequencer instance and nothing else. -/
def State.onSeq (s : State) (n : SeqId) (f : Sequencer → Sequencer) : State :=
  match n with
  | .s1 => { s with q1 := f s.q1 }
  | .s2 => { s with q2 := f s.q2 }

/-- The command port of an instance. -/
def State.port (s : State) (n : SeqId) : Port :=
  match n with
  | .s1 => s.p1
  | .s2 => s.p2

/-- Change a command port and nothing else. -/
def State.onPort (s : State) (n : SeqId) (f : Port → Port) : State :=
  match n with
  | .s1 => { s with p1 := f s.p1 }
  | .s2 => { s with p2 := f s.p2 }

/-- The instance whose command step is being run. -/
def State.cur (s : State) : Sequencer := s.seq s.turn

/-- Change the instance whose command step is being run. -/
def State.onCur (s : State) (f : Sequencer → Sequencer) : State := s.onSeq s.turn f

/-- A draw has been made (R15): the next one is another. -/
def State.drawn (s : State) : State := { s with draws := s.draws + 1 }

/-- `refuse` (R15, R20 (e)): set the refusal mark; "A refused transaction changes no state except the refusal mark"
(R100). -/
def State.refuse (s : State) : State := { s with refusalMark := true }

/-- Put read data on the bus lines of the raw transaction, which ends any stall of it. -/
def State.answer (s : State) (v : Word) : State := { s with bus := { s.bus with rdata := v, stall := false } }

/-- Hold the raw transaction in a stall (R15, R120). -/
def State.hold (s : State) : State := { s with bus := { s.bus with stall := true } }

/-! ### A register group's own transitions -/

/-- The interleave rule (R107): a register access other than a KEYR write returns K1 to K0. -/
def Group.interleave (g : Group) : Group :=
  match g.keyState with
  | .k1 => { g with keyState := .k0 }
  | .k0 => g

/-- A wrong key (R105, R106). -/
def Group.wrongKey (c : Config) (g : Group) : Group :=
  { g with
    keyState := .k0
    keyLockout := match c.keyErrorPolicy with
      | .lockoutUntilReset => true
      | .retry => g.keyLockout }

/-- The KEYR write (R104-R106). -/
def Group.keyWrite (c : Config) (v : Word) (g : Group) : Group :=
  if g.lock = false then g
  else
    match g.keyState with
    | .k0 => if g.keyLockout then g else if v = key1 then { g with keyState := .k1 } else g.wrongKey c
    | .k1 => if v = key2 then { g with lock := false, keyState := .k0 } else g.wrongKey c

/-- Start evaluation (R113) in bank b's group; `n` numbers the draw of R114. The checks are tried in the order
written and only the first failing one raises its flag. -/
def Group.start (c : Config) (b : Bank) (n : Nat) (g : Group) : Group :=
  if g.errorPending then g.fail c n .pgserr
  else if g.pg = true ∨ g.uer = g.mer then g.fail c n .pgserr
  else if g.uer = true then
    if c.variant = .sectorDual ∧ g.bksel ≠ b.index then g.fail c n .pgserr
    else if c.unitCount ≤ g.unb.toNat then g.fail c n .pgserr
    else if g.unb.toNat ∈ c.wrpUnits b then g.fail c n .wrperr
    else { g with inflight := some (.eraseUnit g.unb) }
  else if c.wrpUnits b ≠ [] then g.fail c n .wrperr
  else { g with inflight := some .eraseBank }

/-- A CR value that empties the program latch (R110, R119 (a)): PG = 0, UER = 1, MER = 1 or LOCK = 1. -/
def dropsLatch (v : Word) : Bool := !v.getLsbD 0 || v.getLsbD 1 || v.getLsbD 2 || v.getLsbD 31

/-- The RW fields a CR write sets (R110). -/
def Group.setFields (c : Config) (v : Word) (g : Group) : Group :=
  { g with
    pg := v.getLsbD 0
    uer := v.getLsbD 1
    mer := v.getLsbD 2
    unb := v.extractLsb' 8 8
    bksel := match c.variant with
      | .sectorDual => v.getLsbD 16
      | .pageSingle => g.bksel
    latch := if dropsLatch v then none else g.latch }

/-- `CR(g).LOCK <- 1; key_state(g) <- K0` (R110, R111). -/
def Group.setLock (g : Group) : Group := { g with lock := true, keyState := .k0 }

/-- The CR write while unlocked and idle (R110, R112): fields, then the start, then the lock. -/
def Group.crWriteIdle (c : Config) (b : Bank) (n : Nat) (v : Word) (g : Group) : Group :=
  let started := if v.getLsbD 3 then (g.setFields c v).start c b n else g.setFields c v
  if v.getLsbD 31 then started.setLock else started

/-- The CR write while unlocked and busy (R111): only a 1 in LOCK takes effect; a changed RW field or STRT raises
BSYERR. -/
def Group.crWriteBusy (c : Config) (v : Word) (g : Group) : Group :=
  let flagged :=
    if v &&& crRwMask c ≠ crWord c g &&& crRwMask c ∨ v.getLsbD 3 = true then g.raise .bsyerr else g
  if v.getLsbD 31 then flagged.setLock else flagged

/-- The CR write (R109-R111). -/
def Group.crWrite (c : Config) (b : Bank) (n : Nat) (v : Word) (g : Group) : Group :=
  if g.lock then g else if g.busy then g.crWriteBusy c v else g.crWriteIdle c b n v

/-- The first half of a program pair (R117). -/
def Group.firstHalf (c : Config) (b : Bank) (n : Nat) (z : Size) (a v : Word) (g : Group) : Group :=
  if z ≠ .w32 ∨ a.toNat % 8 ≠ 0 then g.fail c n .sizerr
  else if c.unitOf b a.toNat ∈ c.wrpUnits b then g.fail c n .wrperr
  else { g with latch := some { addr := a, low := v } }

/-- The second half of a program pair (R118). -/
def Group.secondHalf (c : Config) (n : Nat) (z : Size) (a v : Word) (l : Latch) (g : Group) : Group :=
  if z ≠ .w32 ∨ a.toNat ≠ l.addr.toNat + 4 then { g with latch := none }.fail c n .sizerr
  else { g with latch := none, inflight := some (.program l.addr (v ++ l.low)) }

/-- The array write (R116): the gate checks in order, then R117 or R118. -/
def Group.arrWrite (c : Config) (b : Bank) (n : Nat) (z : Size) (a v : Word) (g : Group) : Group :=
  if g.busy then g.raise .bsyerr
  else if g.lock = true ∨ g.pg = false ∨ g.uer = true ∨ g.mer = true then { g with latch := none }.fail c n .pgserr
  else
    match g.latch with
    | none => if g.errorPending then g.fail c n .pgserr else g.firstHalf c b n z a v
    | some l => g.secondHalf c n z a v l

/-- The end of an operation that raised no flag (R122): BSY reads 0, and EOP is set where it exists. -/
def Group.complete (c : Config) (g : Group) : Group := { g with inflight := none, eop := g.eop || c.hasEop }

/-! ### Transactions, shared by the raw masters and the sequencers -/

/-- A KEYR write to bank b's group. -/
def State.writeKeyr (s : State) (b : Bank) (v : Word) : State := s.onGrp b (Group.keyWrite s.cfg v)

/-- An SR write to bank b's group (R107, R108). -/
def State.writeSr (s : State) (b : Bank) (v : Word) : State := s.onGrp b (fun g => g.interleave.srWrite s.cfg v)

/-- A CR write to bank b's group (R107, R109-R114). -/
def State.writeCr (s : State) (b : Bank) (v : Word) : State :=
  (s.onGrp b (fun g => g.interleave.crWrite s.cfg b s.draws v)).drawn

/-- The state effect of any other register access (R107). -/
def State.touch (s : State) (b : Bank) : State := s.onGrp b Group.interleave

/-- The double-words the bytes of an access lie in meet `ECC_FAULTY` (R120). -/
def touchesEcc (c : Config) (z : Size) (a : Nat) : Bool :=
  (List.range (sizeBytes z)).any fun i => c.eccFaulty.contains ((a + i) / 8 * 8)

/-- Keep the data lines of a size. -/
def sizeMask (z : Size) (v : Word) : Word :=
  match z with
  | .b8 => (v.setWidth 8).setWidth 32
  | .h16 => (v.setWidth 16).setWidth 32
  | .w32 => v

/-- How an array read ends: refused, without a step yet, or with data and the state after it. -/
inductive ReadReply where
  | refused
  | stalled
  | data (v : Word) (t : State)

/-- An array read (R100, R120, R121). An address in no window is not this block's (R63, R270): the block's state is
unchanged and the data is a free value. -/
def State.arrayRead (s : State) (z : Size) (a : Word) : ReadReply :=
  if s.cfg.clockEnabled = false then .refused
  else
    match s.cfg.flashBank a.toNat with
    | some b =>
      if a.toNat % sizeBytes z ≠ 0 then .refused
      else if (s.grp b).busy then .stalled
      else if touchesEcc s.cfg z a.toNat then
        .data (sizeMask z (Config.freeEccData s.draws)) (s.onGrp b (Group.raise .eccerr)).drawn
      else .data (s.mem.load z a.toNat) s
    | none =>
      match s.cfg.groupBank a.toNat with
      | some _ => .refused
      | none => .data (sizeMask z (Config.freeForeign s.draws)) s.drawn

/-- An array write (R100, R116-R118), none where it is refused. Outside every window nothing of the block changes. -/
def State.arrayWrite (s : State) (z : Size) (a v : Word) : Option State :=
  if s.cfg.clockEnabled = false then none
  else
    match s.cfg.flashBank a.toNat with
    | some b => some (s.onGrp b (Group.arrWrite s.cfg b s.draws z a v)).drawn
    | none =>
      match s.cfg.groupBank a.toNat with
      | some _ => none
      | none => some s

/-! ### A sequencer's own transitions -/

/-- The states that wait by polling (R243): entering one sets POLLS to 0. -/
def waits (q : SeqState) : Bool :=
  match q with
  | .waitBsy => true
  | .waitEop => true
  | .lkWait => true
  | _ => false

/-- `goto S` from another state (R15, R243). -/
def Sequencer.goto (q : Sequencer) (st : SeqState) : Sequencer :=
  { q with state := st, polls := if waits st then 0 else q.polls }

/-- `RES <- r` (R15). -/
def Sequencer.result (q : Sequencer) (r : Result) : Sequencer := { q with res := r }

/-- Entering an error path (R266): record the result and take the exit. Nothing is saved and no other register
changes. -/
def Sequencer.errorExit (q : Sequencer) (r : Result) (exit : SeqState) : Sequencer := (q.result r).goto exit

/-- The end of a command, error path or not (R247, R267): DONE with the result. -/
def Sequencer.finish (q : Sequencer) (r : Result) : Sequencer := (q.result r).goto .done

/-- The return to IDLE when the host collects (R247, R267); nothing is resumed. -/
def Sequencer.leave (q : Sequencer) : Sequencer := q.goto .idle

/-- DBUF[k] (R45): a word the host gave, else a free value. -/
def Sequencer.dword (q : Sequencer) (k : Nat) : DWord :=
  match q.dbuf[k]? with
  | some w => w
  | none => Config.freeDbuf q.dbufEra k

/-- `RBUF[k] <- v`, the list kept strictly rising in the index. -/
def bufferWrite (l : List (Nat × Byte)) (k : Nat) (v : Byte) : List (Nat × Byte) :=
  match l with
  | [] => [(k, v)]
  | (j, w) :: r => if k < j then (k, v) :: (j, w) :: r else if k = j then (k, v) :: r else (j, w) :: bufferWrite r k v

/-- RBUF[k] of a listing with its draw (R45): the byte listed, else a free value. -/
def bufferRead (l : List (Nat × Byte)) (era k : Nat) : Byte :=
  match l with
  | [] => Config.freeRbuf era k
  | (j, w) :: r => if j = k then w else bufferRead r era k

/-- RBUF[k] (R45). -/
def Sequencer.rbyte (q : Sequencer) (k : Nat) : Byte := bufferRead q.rbuf q.rbufEra k

/-- The register POLLS (R45, R243): the low 32 bits of the count of SR reads in the current wait (log entry 13). -/
def Sequencer.pollsReg (q : Sequencer) : Word := BitVec.ofNat 32 q.polls

/-- The poll budget is spent (R243): `POLL_BUDGET ≠ none and POLLS >= POLL_BUDGET`, on the count of reads, so that a wait
ends after its n-th read for every budget n (R244, D32). -/
def budgetSpent (c : Config) (polls : Nat) : Bool :=
  match c.pollBudget with
  | none => false
  | some n => decide (n ≤ polls)

/-- The instance may run a command on bank b (R90 (d), R242): the part has the bank and the instance owns it. -/
def bankLegal (c : Config) (n : SeqId) (b : Bank) : Bool := c.hasBank b && (c.owned n).contains b

end Sys2Proof.Machine
end

