-- ==== Sys2Proof/Machine/ArrAccess.lean ====
section
/-! DEFINITION. Machine/ArrAccess.lean: the raw array transactions ARR_RD8 to ARR_WR32 (R116-R121), an instruction
fetch being an array read (R68). -/
namespace Sys2Proof.Machine

/-- A raw array read: a stall leaves the transaction held on the bus (R120). -/
def State.rawRead (s : State) (z : Size) : State :=
  match s.arrayRead z s.bus.addr with
  | .refused => s.refuse
  | .stalled => s.hold
  | .data v t => t.answer v

/-- A raw array write. -/
def State.rawWrite (s : State) (z : Size) : State :=
  match s.arrayWrite z s.bus.addr s.bus.wdata with
  | none => s.refuse
  | some t => t

/-- 8-bit array read (R120, R121). -/
def execArrRd8 (s : State) : Host.Outcome State Fault Refusal := .next (s.rawRead .b8)

/-- 16-bit array read (R120, R121). -/
def execArrRd16 (s : State) : Host.Outcome State Fault Refusal := .next (s.rawRead .h16)

/-- 32-bit array read (R120, R121). -/
def execArrRd32 (s : State) : Host.Outcome State Fault Refusal := .next (s.rawRead .w32)

/-- 8-bit array write (R116-R118): it never programs. -/
def execArrWr8 (s : State) : Host.Outcome State Fault Refusal := .next (s.rawWrite .b8)

/-- 16-bit array write (R116-R118): it never programs. -/
def execArrWr16 (s : State) : Host.Outcome State Fault Refusal := .next (s.rawWrite .h16)

/-- 32-bit array write (R116-R118): one half of a program pair. -/
def execArrWr32 (s : State) : Host.Outcome State Fault Refusal := .next (s.rawWrite .w32)

end Sys2Proof.Machine
end

