-- ==== Sys2Proof/Machine/Sequencer.lean ====
section
/-! DEFINITION. Machine/Sequencer.lean: the sequencer's steps that several commands share, one definition per state of
R44. Each makes at most one bus transaction (R246) on bank b's group and moves STATE on. A transaction of a sequencer
without a clock is refused (R100, R269): the mark is set and the sequencer stays where it is. -/
namespace Sys2Proof.Machine

/-- Make a transaction if the clock is enabled (R100 (1)). -/
def State.clocked (s : State) (t : State) : State := if s.cfg.clockEnabled then t else s.refuse

/-- `CRV <- rd32 CR(g)`, then `k`. -/
def seqReadCr (b : Bank) (k : Sequencer → Sequencer) (s : State) : State :=
  s.clocked ((s.touch b).onCur fun q => k { q with crv := crWord s.cfg (s.grp b) })

/-- `SRV <- rd32 SR(g)`, then `k`. -/
def seqReadSr (b : Bank) (k : Sequencer → Sequencer) (s : State) : State :=
  s.clocked ((s.touch b).onCur fun q => k { q with srv := srWord s.cfg (s.grp b) })

/-- `wr32 KEYR(g), v`, then `k`. -/
def seqWriteKeyr (b : Bank) (v : Word) (k : Sequencer → Sequencer) (s : State) : State :=
  s.clocked ((s.writeKeyr b v).onCur k)

/-- `wr32 SR(g), v`, then `k`. -/
def seqWriteSr (b : Bank) (v : Word) (k : Sequencer → Sequencer) (s : State) : State :=
  s.clocked ((s.writeSr b v).onCur k)

/-- `wr32 CR(g), v`, then `k`. -/
def seqWriteCr (b : Bank) (v : Word) (k : Sequencer → Sequencer) (s : State) : State :=
  s.clocked ((s.writeCr b v).onCur k)

/-- `wr32 [a], v`, then `k`. -/
def seqWriteArr (a v : Word) (k : Sequencer → Sequencer) (s : State) : State :=
  match s.arrayWrite .w32 a v with
  | none => s.refuse
  | some t => t.onCur k

/-- DECODE of a legal word (R242): BAD_COMMAND for a bank the part lacks or the instance does not own, else OPR, BK and
IDX are loaded and the command's first state entered through `first`. -/
def stepDecode (op : BitVec 4) (b : Bank) (idx : BitVec 8) (first : Sequencer → Sequencer) (s : State) : State :=
  s.onCur fun q =>
    if bankLegal s.cfg s.turn b then first { q with opr := op, bk := b, idx := idx } else q.finish .badCommand

/-- UL_READ_CR (R141): an unlocked group needs no key. -/
def stepUlReadCr (b : Bank) (unlocked : Sequencer → Sequencer) (s : State) : State :=
  seqReadCr b (fun q => if q.crv.getLsbD 31 then q.goto .ulKey1 else unlocked q) s

/-- UL_KEY1 (R141). -/
def stepUlKey1 (b : Bank) (s : State) : State := seqWriteKeyr b key1 (fun q => q.goto .ulKey2) s

/-- UL_KEY2 (R141). -/
def stepUlKey2 (b : Bank) (s : State) : State := seqWriteKeyr b key2 (fun q => q.goto .ulCheck) s

/-- UL_CHECK (R141, R176): still locked ends the command with FAILURE and no re-lock. -/
def stepUlCheck (b : Bank) (unlocked : Sequencer → Sequencer) (s : State) : State :=
  seqReadCr b (fun q => if q.crv.getLsbD 31 then q.errorExit .failure .done else unlocked q) s

/-- BUSY_CHECK (R240, R241): a busy bank is answered BUSY through the immediate re-lock. -/
def stepBusyCheck (b : Bank) (s : State) : State :=
  seqReadSr b (fun q => if q.srv.getLsbD 0 then q.errorExit .busy .lkReadCr else q.goto .fcReadSr) s

/-- FC_READ_SR (R161). -/
def stepFcReadSr (b : Bank) (s : State) : State :=
  seqReadSr b (fun q => { q with fcm := q.srv &&& errMask }.goto .fcClear) s

/-- FC_CLEAR (R161): one write for the lowest flag still to clear, or, with none left, `next` without a bus access. -/
def stepFcClear (b : Bank) (next : Sequencer → Sequencer) (s : State) : State :=
  if s.cur.fcm = 0 then s.onCur next
  else seqWriteSr b (lowestBit s.cur.fcm) (fun q => { q with fcm := q.fcm &&& ~~~lowestBit q.fcm }) s

/-- CFG_READ_CR (R180, R186, R202). -/
def stepCfgReadCr (b : Bank) (s : State) : State := seqReadCr b (fun q => q.goto .cfgWriteCr) s

/-- CFG_WRITE_CR with the command's value (R180, R186, R202): `CRV <- v; wr32 CR(g), CRV`, then `next`. -/
def stepCfgWriteCr (b : Bank) (v : Word) (next : Sequencer → Sequencer) (s : State) : State :=
  seqWriteCr b v (fun q => next { q with crv := v }) s

/-- START (R180). -/
def stepStart (b : Bank) (s : State) : State := seqWriteCr b (s.cur.crv ||| crStrt) (fun q => q.goto .waitBsy) s

/-- WAIT_BSY (R243, R244). -/
def stepWaitBsy (b : Bank) (s : State) : State :=
  seqReadSr b
    (fun q =>
      let p := { q with polls := q.polls + 1 }
      if p.srv.getLsbD 0 = false then p.goto .postCheck
      else if budgetSpent s.cfg p.polls then p.errorExit .timeout .lkReadCr
      else p) s

/-- POST_CHECK (R162, R163), no bus access: an error flag in the SR value that ended the wait is a FAILURE. -/
def stepPostCheck (after : Sequencer → Sequencer) (s : State) : State :=
  s.onCur fun q =>
    if q.srv &&& errMask ≠ 0 then q.errorExit .failure .clrReadCr
    else if s.cfg.hasEop then q.goto .waitEop
    else after q

/-- WAIT_EOP (R182, R244). -/
def stepWaitEop (b : Bank) (s : State) : State :=
  seqReadSr b
    (fun q =>
      let p := { q with polls := q.polls + 1 }
      if p.srv.getLsbD 1 then p.goto .ackEop
      else if budgetSpent s.cfg p.polls then p.errorExit .timeout .clrReadCr
      else p) s

/-- ACK_EOP (R182). -/
def stepAckEop (b : Bank) (after : Sequencer → Sequencer) (s : State) : State := seqWriteSr b srEop after s

/-- CLR_READ_CR (R183). -/
def stepClrReadCr (b : Bank) (s : State) : State := seqReadCr b (fun q => q.goto .clrWriteCr) s

/-- CLR_WRITE_CR (R183). -/
def stepClrWriteCr (b : Bank) (s : State) : State := seqWriteCr b (postClear s.cur.crv) (fun q => q.goto .lkWait) s

/-- LK_WAIT (R151, R243, R245): TIMEOUT replaces whatever result was pending. -/
def stepLkWait (b : Bank) (s : State) : State :=
  seqReadSr b
    (fun q =>
      let p := { q with polls := q.polls + 1 }
      if p.srv.getLsbD 0 = false then p.goto .lkReadCr
      else if budgetSpent s.cfg p.polls then p.errorExit .timeout .lkReadCr
      else p) s

/-- LK_READ_CR (R151, R155). -/
def stepLkReadCr (b : Bank) (s : State) : State := seqReadCr b (fun q => q.goto .lkWriteCr) s

/-- LK_WRITE_CR (R151, R155): RES already holds the result. -/
def stepLkWriteCr (b : Bank) (s : State) : State := seqWriteCr b (lockValue s.cur.crv) (fun q => q.goto .done) s

end Sys2Proof.Machine
end

