-- ==== Sys2Proof/Machine/EraseEngine.lean ====
section
/-! DEFINITION. Machine/EraseEngine.lean: ERASE_UNIT and ERASE_BANK (43_erase_engine.md). -/
namespace Sys2Proof.Machine

/-- AFTER_OP of an erase (R162, R183, R184): the success path, so RES is OK from here (log entry 5). -/
def eraseAfterOp (q : Sequencer) : Sequencer := (q.result .ok).goto .clrReadCr

/-- VALIDATE for ERASE_UNIT (R179). -/
def eraseValidate (c : Config) (q : Sequencer) : Sequencer :=
  if c.unitCount ≤ q.idx.toNat then q.errorExit .pageOutOfRange .lkWait else q.goto .cfgReadCr

/-- ERASE_UNIT (R175-R184). -/
def execEraseUnit (b : Bank) (idx : BitVec 8) (s : State) : Host.Outcome State Fault Refusal :=
  match s.cur.state with
  | .decode => .next (stepDecode opEraseUnit b idx (fun q => q.goto .ulReadCr) s)
  | .ulReadCr => .next (stepUlReadCr b (fun q => q.goto .busyCheck) s)
  | .ulKey1 => .next (stepUlKey1 b s)
  | .ulKey2 => .next (stepUlKey2 b s)
  | .ulCheck => .next (stepUlCheck b (fun q => q.goto .busyCheck) s)
  | .busyCheck => .next (stepBusyCheck b s)
  | .fcReadSr => .next (stepFcReadSr b s)
  | .fcClear => .next (stepFcClear b (fun q => q.goto .validate) s)
  | .validate => .next (s.onCur (eraseValidate s.cfg))
  | .cfgReadCr => .next (stepCfgReadCr b s)
  | .cfgWriteCr => .next (stepCfgWriteCr b (eraseUnitCfg s.cfg b s.cur.idx s.cur.crv) (fun q => q.goto .start) s)
  | .start => .next (stepStart b s)
  | .waitBsy => .next (stepWaitBsy b s)
  | .postCheck => .next (stepPostCheck eraseAfterOp s)
  | .waitEop => .next (stepWaitEop b s)
  | .ackEop => .next (stepAckEop b eraseAfterOp s)
  | .clrReadCr => .next (stepClrReadCr b s)
  | .clrWriteCr => .next (stepClrWriteCr b s)
  | .lkWait => .next (stepLkWait b s)
  | .lkReadCr => .next (stepLkReadCr b s)
  | .lkWriteCr => .next (stepLkWriteCr b s)
  | _ => .fault .stateNotOfCommand

/-- ERASE_BANK (R185, R186): as ERASE_UNIT without VALIDATE, configuring MER. -/
def execEraseBank (b : Bank) (s : State) : Host.Outcome State Fault Refusal :=
  match s.cur.state with
  | .decode => .next (stepDecode opEraseBank b 0 (fun q => q.goto .ulReadCr) s)
  | .ulReadCr => .next (stepUlReadCr b (fun q => q.goto .busyCheck) s)
  | .ulKey1 => .next (stepUlKey1 b s)
  | .ulKey2 => .next (stepUlKey2 b s)
  | .ulCheck => .next (stepUlCheck b (fun q => q.goto .busyCheck) s)
  | .busyCheck => .next (stepBusyCheck b s)
  | .fcReadSr => .next (stepFcReadSr b s)
  | .fcClear => .next (stepFcClear b (fun q => q.goto .cfgReadCr) s)
  | .cfgReadCr => .next (stepCfgReadCr b s)
  | .cfgWriteCr => .next (stepCfgWriteCr b (eraseBankCfg s.cur.crv) (fun q => q.goto .start) s)
  | .start => .next (stepStart b s)
  | .waitBsy => .next (stepWaitBsy b s)
  | .postCheck => .next (stepPostCheck eraseAfterOp s)
  | .waitEop => .next (stepWaitEop b s)
  | .ackEop => .next (stepAckEop b eraseAfterOp s)
  | .clrReadCr => .next (stepClrReadCr b s)
  | .clrWriteCr => .next (stepClrWriteCr b s)
  | .lkWait => .next (stepLkWait b s)
  | .lkReadCr => .next (stepLkReadCr b s)
  | .lkWriteCr => .next (stepLkWriteCr b s)
  | _ => .fault .stateNotOfCommand

end Sys2Proof.Machine
end

