-- ==== Sys2Proof/Machine/ErrorClassifier.lean ====
section
/-! DEFINITION. Machine/ErrorClassifier.lean: CLEAR_ERRORS (42_error_classifier.md). -/
namespace Sys2Proof.Machine

/-- CLEAR_ERRORS (R160, R161): one SR read, one write per flag that read 1; no unlock, no busy check. -/
def execClearErrors (b : Bank) (s : State) : Host.Outcome State Fault Refusal :=
  match s.cur.state with
  | .decode => .next (stepDecode opClearErrors b 0 (fun q => q.goto .fcReadSr) s)
  | .fcReadSr => .next (stepFcReadSr b s)
  | .fcClear => .next (stepFcClear b (fun q => q.finish .ok) s)
  | _ => .fault .stateNotOfCommand

end Sys2Proof.Machine
end

