-- ==== Sys2Proof/Machine/LockGate.lean ====
section
/-! DEFINITION. Machine/LockGate.lean: UNLOCK and LOCK (41_lock_gate.md), the step of each state of the command. -/
namespace Sys2Proof.Machine

/-- UNLOCK (R140, R141): OK when LOCK reads 0. -/
def execUnlock (b : Bank) (s : State) : Host.Outcome State Fault Refusal :=
  match s.cur.state with
  | .decode => .next (stepDecode opUnlock b 0 (fun q => q.goto .ulReadCr) s)
  | .ulReadCr => .next (stepUlReadCr b (fun q => q.finish .ok) s)
  | .ulKey1 => .next (stepUlKey1 b s)
  | .ulKey2 => .next (stepUlKey2 b s)
  | .ulCheck => .next (stepUlCheck b (fun q => q.finish .ok) s)
  | _ => .fault .stateNotOfCommand

/-- LOCK (R150, R151): the standard lock with RES <- OK. -/
def execLock (b : Bank) (s : State) : Host.Outcome State Fault Refusal :=
  match s.cur.state with
  | .decode => .next (stepDecode opLock b 0 (fun q => (q.result .ok).goto .lkWait) s)
  | .lkWait => .next (stepLkWait b s)
  | .lkReadCr => .next (stepLkReadCr b s)
  | .lkWriteCr => .next (stepLkWriteCr b s)
  | _ => .fault .stateNotOfCommand

end Sys2Proof.Machine
end

