-- ==== Sys2Proof/Machine/ProgramEngine.lean ====
section
/-! DEFINITION. Machine/ProgramEngine.lean: WRITE_UNIT, the double-word loop (44_program_engine.md). -/
namespace Sys2Proof.Machine

/-- The loop test (R202, R204): the next pair, or the post-clear of the success path, so RES is OK from there (log
entry 5). -/
def writeLoop (q : Sequencer) : Sequencer :=
  if q.k.toNat < q.arg1.toNat then q.goto .pgWriteLo else (q.result .ok).goto .clrReadCr

/-- AFTER_OP of WRITE_UNIT (R204): `ADDR <- ADDR + 8; K <- K + 1`, then the loop test. -/
def writeAfterOp (q : Sequencer) : Sequencer := writeLoop { q with addr := q.addr + 8, k := q.k + 1 }

/-- VALIDATE for WRITE_UNIT on bank b (R201). -/
def writeValidate (c : Config) (b : Bank) (q : Sequencer) : Sequencer :=
  if c.unitCount ≤ q.idx.toNat ∨ c.unitSize < 8 * q.arg1.toNat then q.errorExit .pageOutOfRange .lkWait
  else { q with addr := BitVec.ofNat 32 (c.unitToAddress q.idx.toNat b), k := 0 }.goto .cfgReadCr

/-- PG_WRITE_LO (R203). -/
def stepPgWriteLo (s : State) : State :=
  seqWriteArr s.cur.addr (lo32 (s.cur.dword s.cur.k.toNat)) (fun q => q.goto .pgWriteHi) s

/-- PG_WRITE_HI (R203). -/
def stepPgWriteHi (s : State) : State :=
  seqWriteArr (s.cur.addr + 4) (hi32 (s.cur.dword s.cur.k.toNat)) (fun q => q.goto .waitBsy) s

/-- WRITE_UNIT (R200-R205). -/
def execWriteUnit (b : Bank) (idx : BitVec 8) (s : State) : Host.Outcome State Fault Refusal :=
  match s.cur.state with
  | .decode => .next (stepDecode opWriteUnit b idx (fun q => q.goto .ulReadCr) s)
  | .ulReadCr => .next (stepUlReadCr b (fun q => q.goto .busyCheck) s)
  | .ulKey1 => .next (stepUlKey1 b s)
  | .ulKey2 => .next (stepUlKey2 b s)
  | .ulCheck => .next (stepUlCheck b (fun q => q.goto .busyCheck) s)
  | .busyCheck => .next (stepBusyCheck b s)
  | .fcReadSr => .next (stepFcReadSr b s)
  | .fcClear => .next (stepFcClear b (fun q => q.goto .validate) s)
  | .validate => .next (s.onCur (writeValidate s.cfg b))
  | .cfgReadCr => .next (stepCfgReadCr b s)
  | .cfgWriteCr => .next (stepCfgWriteCr b (writeUnitCfg s.cur.crv) writeLoop s)
  | .pgWriteLo => .next (stepPgWriteLo s)
  | .pgWriteHi => .next (stepPgWriteHi s)
  | .waitBsy => .next (stepWaitBsy b s)
  | .postCheck => .next (stepPostCheck writeAfterOp s)
  | .waitEop => .next (stepWaitEop b s)
  | .ackEop => .next (stepAckEop b writeAfterOp s)
  | .clrReadCr => .next (stepClrReadCr b s)
  | .clrWriteCr => .next (stepClrWriteCr b s)
  | .lkWait => .next (stepLkWait b s)
  | .lkReadCr => .next (stepLkReadCr b s)
  | .lkWriteCr => .next (stepLkWriteCr b s)
  | _ => .fault .stateNotOfCommand

end Sys2Proof.Machine
end

