-- ==== Sys2Proof/Machine/ReadTranslate.lean ====
section
/-! DEFINITION. Machine/ReadTranslate.lean: READ_UNIT and UNIT_TO_ADDRESS (45_address_translation_and_read.md). Neither
touches the lock gate. -/
namespace Sys2Proof.Machine

/-- VALIDATE for UNIT_TO_ADDRESS on bank b (R221). -/
def translateValidate (c : Config) (b : Bank) (q : Sequencer) : Sequencer :=
  if c.unitCount ≤ q.idx.toNat then q.errorExit .pageOutOfRange .done
  else { q with raddr := BitVec.ofNat 32 (c.unitToAddress q.idx.toNat b) }.finish .ok

/-- VALIDATE for READ_UNIT on bank b (R223), in unbounded arithmetic. -/
def readValidate (c : Config) (b : Bank) (q : Sequencer) : Sequencer :=
  if c.unitCount ≤ q.idx.toNat ∨ c.unitSize < q.arg0.toNat + q.arg1.toNat then q.errorExit .pageOutOfRange .done
  else
    let p := { q with addr := BitVec.ofNat 32 (c.unitToAddress q.idx.toNat b + q.arg0.toNat), k := 0 }
    if q.arg1 = 0 then p.finish .ok else p.goto .rdByte

/-- The registers after a byte has been read (R223 RD_BYTE). -/
def readByteDone (v : Byte) (q : Sequencer) : Sequencer :=
  let p := { q with rbuf := bufferWrite q.rbuf q.k.toNat v, addr := q.addr + 1, k := q.k + 1 }
  if p.k.toNat < p.arg1.toNat then p else p.finish .ok

/-- RD_BYTE (R223, R224): a busy bank leaves the sequencer without a step (R120, R246). -/
def stepRdByte (s : State) : State :=
  match s.arrayRead .b8 s.cur.addr with
  | .refused => s.refuse
  | .stalled => s
  | .data v t => t.onCur (readByteDone (v.setWidth 8))

/-- READ_UNIT (R223, R224). -/
def execReadUnit (b : Bank) (idx : BitVec 8) (s : State) : Host.Outcome State Fault Refusal :=
  match s.cur.state with
  | .decode => .next (stepDecode opReadUnit b idx (fun q => q.goto .validate) s)
  | .validate => .next (s.onCur (readValidate s.cfg b))
  | .rdByte => .next (stepRdByte s)
  | _ => .fault .stateNotOfCommand

/-- UNIT_TO_ADDRESS (R220, R221). -/
def execUnitToAddress (b : Bank) (idx : BitVec 8) (s : State) : Host.Outcome State Fault Refusal :=
  match s.cur.state with
  | .decode => .next (stepDecode opUnitToAddress b idx (fun q => q.goto .validate) s)
  | .validate => .next (s.onCur (translateValidate s.cfg b))
  | _ => .fault .stateNotOfCommand

end Sys2Proof.Machine
end

