-- ==== Sys2Proof/Machine/RegAccess.lean ====
section
/-! DEFINITION. Machine/RegAccess.lean: the raw register transactions KEYR_RD to RSV_WR (R101-R115). The address is on
the bus lines; the transaction is the one the descriptor says it is only at that register's own address. -/
namespace Sys2Proof.Machine

/-- R100, in order, for a raw register transaction at an offset: no clock, refuse; an address in no window, not this
block's (`foreign`); an address that is not that register's, refuse (log entry 9). -/
def State.atRegister (s : State) (off : Nat) (foreign : State) (k : Bank → State) : State :=
  if s.cfg.clockEnabled = false then s.refuse
  else
    match s.cfg.groupBank s.bus.addr.toNat with
    | some b => if s.bus.addr.toNat = s.cfg.groupBase b + off then k b else s.refuse
    | none =>
      match s.cfg.flashBank s.bus.addr.toNat with
      | some _ => s.refuse
      | none => foreign

/-- A raw register read: R107, then the value on the data lines. -/
def State.readRegister (s : State) (off : Nat) (value : Group → Word) : State :=
  s.atRegister off (s.answer (Config.freeForeign s.draws)).drawn (fun b => (s.touch b).answer (value (s.grp b)))

/-- KEYR read (R101): 0, after R107. -/
def execKeyrRd (s : State) : Host.Outcome State Fault Refusal := .next (s.readRegister keyrOff fun _ => 0)

/-- KEYR write (R104-R106). -/
def execKeyrWr (s : State) : Host.Outcome State Fault Refusal :=
  .next (s.atRegister keyrOff s fun b => s.writeKeyr b s.bus.wdata)

/-- SR read (R102). -/
def execSrRd (s : State) : Host.Outcome State Fault Refusal := .next (s.readRegister srOff (srWord s.cfg))

/-- SR write (R108). -/
def execSrWr (s : State) : Host.Outcome State Fault Refusal :=
  .next (s.atRegister srOff s fun b => s.writeSr b s.bus.wdata)

/-- CR read (R103). -/
def execCrRd (s : State) : Host.Outcome State Fault Refusal := .next (s.readRegister crOff (crWord s.cfg))

/-- CR write (R109-R114). -/
def execCrWr (s : State) : Host.Outcome State Fault Refusal :=
  .next (s.atRegister crOff s fun b => s.writeCr b s.bus.wdata)

/-- Reserved word read (R115): 0, after R107. -/
def execRsvRd (s : State) : Host.Outcome State Fault Refusal := .next (s.readRegister rsvOff fun _ => 0)

/-- Reserved word write (R115): no effect, after R107. -/
def execRsvWr (s : State) : Host.Outcome State Fault Refusal := .next (s.atRegister rsvOff s fun b => s.touch b)

end Sys2Proof.Machine
end

