-- ==== Sys2Proof/Machine/Dispatch.lean ====
section
/-! DEFINITION. Machine/Dispatch.lean: one arm per instruction. A command's meaning is its step at the STATE of the
sequencer instance `turn` names (R44, R246); a bus transaction's meaning is the whole transaction, its address and data
being on the bus lines (R85). -/
namespace Sys2Proof.Machine

def exec (i : Instr) (s : State) : Host.Outcome State Fault Refusal :=
  match i with
  | .unlock b => Sys2Proof.Machine.execUnlock b s
  | .lock b => Sys2Proof.Machine.execLock b s
  | .clearErrors b => Sys2Proof.Machine.execClearErrors b s
  | .eraseUnit b idx => Sys2Proof.Machine.execEraseUnit b idx s
  | .eraseBank b => Sys2Proof.Machine.execEraseBank b s
  | .writeUnit b idx => Sys2Proof.Machine.execWriteUnit b idx s
  | .readUnit b idx => Sys2Proof.Machine.execReadUnit b idx s
  | .unitToAddress b idx => Sys2Proof.Machine.execUnitToAddress b idx s
  | .keyrRd => Sys2Proof.Machine.execKeyrRd s
  | .keyrWr => Sys2Proof.Machine.execKeyrWr s
  | .srRd => Sys2Proof.Machine.execSrRd s
  | .srWr => Sys2Proof.Machine.execSrWr s
  | .crRd => Sys2Proof.Machine.execCrRd s
  | .crWr => Sys2Proof.Machine.execCrWr s
  | .rsvRd => Sys2Proof.Machine.execRsvRd s
  | .rsvWr => Sys2Proof.Machine.execRsvWr s
  | .arrRd8 => Sys2Proof.Machine.execArrRd8 s
  | .arrRd16 => Sys2Proof.Machine.execArrRd16 s
  | .arrRd32 => Sys2Proof.Machine.execArrRd32 s
  | .arrWr8 => Sys2Proof.Machine.execArrWr8 s
  | .arrWr16 => Sys2Proof.Machine.execArrWr16 s
  | .arrWr32 => Sys2Proof.Machine.execArrWr32 s

end Sys2Proof.Machine
end

