-- ==== Sys2Proof/Decode.lean ====
section
/-! DEFINITION. Decode.lean: the decoders of the two interfaces (R85, R86, R90), total on any word and rejecting by
name, then the encoder, written from the same tables. -/
namespace Sys2Proof
open Machine

/-- Why a word is no instruction. -/
inductive DecodeError where
  /-- CMD[3:0] is 0x0 or 0x9-0xF (R90 (a)). -/
  | reservedOperation
  /-- CMD[7:5] or CMD[31:16] is not 0 (R90 (b)). -/
  | reservedCommandBits
  /-- INDEX is not 0 in a command without an index (R90 (c)). -/
  | indexNotZero
  /-- BUS16[11:4] is not 0 (R85; with SP = 1 that this is no instruction is a DESIGN CHOICE, log entry 9). -/
  | reservedDescriptorBits
  /-- SZ = 3 (R85). -/
  | reservedSize
  /-- A register-window access that is not 32 bits wide (R61, R85). -/
  | registerSize
  /-- A register-window offset that names no register word (R61, R85). -/
  | registerOffset
  /-- OFF is not 0 with SP = 1 (R85: "must be 0"; that this is no instruction is a DESIGN CHOICE, log entry 9). -/
  | arrayOffset
deriving DecidableEq, Repr

/-- The command an operation code, a bank and an index name (R87). Commands without an index take none. -/
def commandOf (op : BitVec 4) (b : Bank) (idx : BitVec 8) : Option Instr :=
  if op = opUnlock then some (.unlock b)
  else if op = opLock then some (.lock b)
  else if op = opClearErrors then some (.clearErrors b)
  else if op = opEraseUnit then some (.eraseUnit b idx)
  else if op = opEraseBank then some (.eraseBank b)
  else if op = opWriteUnit then some (.writeUnit b idx)
  else if op = opReadUnit then some (.readUnit b idx)
  else if op = opUnitToAddress then some (.unitToAddress b idx)
  else none

/-- The commands whose INDEX must be 0 (R86, R90 (c)). -/
def takesNoIndex (op : BitVec 4) : Bool :=
  op == opUnlock || op == opLock || op == opClearErrors || op == opEraseBank

/-- BANK as a bank name (R86). -/
def bankOfBit (v : Bool) : Bank := if v then .b2 else .b1

/-- Decode a CMD32 command word (R86, R87, R90 (a)-(c)). -/
def decodeCommand (w : Word) : Except DecodeError Instr :=
  if w.extractLsb' 16 16 ≠ 0 ∨ w.extractLsb' 5 3 ≠ 0 then .error .reservedCommandBits
  else if takesNoIndex (w.extractLsb' 0 4) = true ∧ w.extractLsb' 8 8 ≠ 0 then .error .indexNotZero
  else
    match commandOf (w.extractLsb' 0 4) (bankOfBit (w.getLsbD 4)) (w.extractLsb' 8 8) with
    | some i => .ok i
    | none => .error .reservedOperation

/-- The register transaction at an offset (R80, R85). -/
def registerTxn (write : Bool) (off : BitVec 4) : Except DecodeError Instr :=
  if off = 0x0 then .ok (if write then .keyrWr else .keyrRd)
  else if off = 0x4 then .ok (if write then .srWr else .srRd)
  else if off = 0x8 then .ok (if write then .crWr else .crRd)
  else if off = 0xC then .ok (if write then .rsvWr else .rsvRd)
  else .error .registerOffset

/-- The array transaction of a size (R85). -/
def arrayTxn (write : Bool) (sz : BitVec 2) : Except DecodeError Instr :=
  if sz = 0 then .ok (if write then .arrWr8 else .arrRd8)
  else if sz = 1 then .ok (if write then .arrWr16 else .arrRd16)
  else if sz = 2 then .ok (if write then .arrWr32 else .arrRd32)
  else .error .reservedSize

/-- Decode a BUS16 descriptor (R85): W is bit 15, SZ bits 14:13, SP bit 12, OFF bits 3:0. -/
def decodeBus (d : Desc) : Except DecodeError Instr :=
  if d.extractLsb' 4 8 ≠ 0 then .error .reservedDescriptorBits
  else if d.getLsbD 12 = false then
    if d.extractLsb' 13 2 = 2 then registerTxn (d.getLsbD 15) (d.extractLsb' 0 4) else .error .registerSize
  else if d.extractLsb' 0 4 ≠ 0 then .error .arrayOffset
  else arrayTxn (d.getLsbD 15) (d.extractLsb' 13 2)

/-- The decoder of both interfaces. -/
def decode (k : Code) : Except DecodeError Instr :=
  match k with
  | .cmd w => decodeCommand w
  | .bus d => decodeBus d

/-- A CMD32 word (R86): OP, BANK and INDEX, the reserved bits 0. -/
def commandWord (op : BitVec 4) (b : Bank) (idx : BitVec 8) : Word :=
  (0#16 ++ idx ++ 0#3 ++ BitVec.ofBool b.index ++ op : BitVec 32)

/-- A BUS16 descriptor (R85): W, SZ, SP and OFF, bits 11:4 being 0. -/
def descriptor (write : Bool) (sz : BitVec 2) (sp : Bool) (off : BitVec 4) : Desc :=
  (BitVec.ofBool write ++ sz ++ BitVec.ofBool sp ++ 0#8 ++ off : BitVec 16)

/-- The word of an instruction in its interface. -/
def encode (i : Instr) : Code :=
  match i with
  | .unlock b => .cmd (commandWord opUnlock b 0)
  | .lock b => .cmd (commandWord opLock b 0)
  | .clearErrors b => .cmd (commandWord opClearErrors b 0)
  | .eraseUnit b idx => .cmd (commandWord opEraseUnit b idx)
  | .eraseBank b => .cmd (commandWord opEraseBank b 0)
  | .writeUnit b idx => .cmd (commandWord opWriteUnit b idx)
  | .readUnit b idx => .cmd (commandWord opReadUnit b idx)
  | .unitToAddress b idx => .cmd (commandWord opUnitToAddress b idx)
  | .keyrRd => .bus (descriptor false 2 false 0x0)
  | .keyrWr => .bus (descriptor true 2 false 0x0)
  | .srRd => .bus (descriptor false 2 false 0x4)
  | .srWr => .bus (descriptor true 2 false 0x4)
  | .crRd => .bus (descriptor false 2 false 0x8)
  | .crWr => .bus (descriptor true 2 false 0x8)
  | .rsvRd => .bus (descriptor false 2 false 0xC)
  | .rsvWr => .bus (descriptor true 2 false 0xC)
  | .arrRd8 => .bus (descriptor false 0 true 0)
  | .arrRd16 => .bus (descriptor false 1 true 0)
  | .arrRd32 => .bus (descriptor false 2 true 0)
  | .arrWr8 => .bus (descriptor true 0 true 0)
  | .arrWr16 => .bus (descriptor true 1 true 0)
  | .arrWr32 => .bus (descriptor true 2 true 0)

/-- What the decoder reads from an instruction of `nbits` bits whose bits are `w` (16: a BUS16 descriptor; 32: a CMD32
word), none where it refuses. -/
def decodeTableWord (nbits w : Nat) : Option Instr :=
  if w < 2 ^ nbits then
    if nbits = 16 then (decodeBus (BitVec.ofNat 16 w)).toOption
    else if nbits = 32 then (decodeCommand (BitVec.ofNat 32 w)).toOption
    else none
  else none

end Sys2Proof
end

