-- ==== Sys2Proof/Machine/Engine.lean ====
section
/-! DEFINITION. Machine/Engine.lean: the operation engine's completion step (R122-R125), the reset event with an
operation cut short (R290, R292), and the host's moves at a command port (R247). These are the machine's moves that are
no instruction. -/
namespace Sys2Proof.Machine

/-- The array bytes an operation of bank b targets, `[lo, lo + n)` (R123, R124, R125, R292). -/
def opRange (c : Config) (b : Bank) (op : Operation) : Nat × Nat :=
  match op with
  | .eraseUnit u => (c.unitToAddress u.toNat b, c.unitSize)
  | .eraseBank => (c.origin b, c.bankSize)
  | .program a _ => (a.toNat, 8)

/-- Erase completion (R123, R124): every targeted byte 0xFF, and the marks cleared where they are used. -/
def State.eraseDone (s : State) (b : Bank) (lo n : Nat) : State :=
  { s with
    mem := s.mem.erase lo n
    marks := match s.cfg.rewriteCheck with
      | .programmed => dropMarks s.marks lo n
      | .content => s.marks }.onGrp b (Group.complete s.cfg)

/-- Whether a program of `d` at `a` succeeds (R125): the double-word is erased, or the data is 0. -/
def State.programAccepted (s : State) (a : Nat) (d : DWord) : Bool :=
  (s.mem.dword a == BitVec.allOnes 64 && (s.cfg.rewriteCheck == .content || !s.marks.contains a)) || d == 0

/-- What a failed program leaves in the double-word (R125 `REWRITE_RESULT`). -/
def State.rewriteValue (s : State) (a : Nat) : DWord :=
  match s.cfg.rewriteResult with
  | .unchanged => s.mem.dword a
  | .anyValue => Config.freeRewrite s.draws

/-- Program completion (R125): store and mark, or PGSERR with the stale fields and the rewrite value. -/
def State.programDone (s : State) (b : Bank) (a : Nat) (d : DWord) : State :=
  if s.programAccepted a d then
    { s with mem := s.mem.fill a 8 (byteOf d), marks := addMark s.marks a }.onGrp b (Group.complete s.cfg)
  else
    ({ s with mem := s.mem.fill a 8 (byteOf (s.rewriteValue a)) }.onGrp b fun g =>
      { g with inflight := none }.fail s.cfg s.draws .pgserr).drawn

/-- The engine completion step of bank b (R122); without an operation in flight the engine has no step. -/
def State.engineStep (s : State) (b : Bank) : State :=
  match (s.grp b).inflight with
  | none => s
  | some (.eraseUnit u) => s.eraseDone b (s.cfg.unitToAddress u.toNat b) s.cfg.unitSize
  | some .eraseBank => s.eraseDone b (s.cfg.origin b) s.cfg.bankSize
  | some (.program a d) => s.programDone b a.toNat d

/-- The targeted bytes of an operation cut short by reset become free values, and their `programmed` bits too where
they are used (R292). -/
def State.cutShort (s : State) (b : Bank) : State :=
  match (s.grp b).inflight with
  | none => s
  | some op =>
    let r := opRange s.cfg b op
    { s with
      mem := s.mem.fill r.1 r.2 (fun i => Config.freeByte s.draws (r.1 + i))
      marks := match s.cfg.rewriteCheck with
        | .programmed => fillMarks s.marks r.1 (r.2 / 8) (Config.freeMark s.draws)
        | .content => s.marks }

/-- The reset event (R290-R293), at power-on and by a system reset. The array and the marks keep their values but for
R292; the refusal mark stays; what waits outside the block (host moves, other masters' transactions) stays. -/
def State.resetEvent (s : State) : State :=
  { (s.cutShort .b1).cutShort .b2 with
    g1 := Group.reset
    g2 := Group.reset
    q1 := Sequencer.reset s.draws
    q2 := Sequencer.reset (s.draws + 1)
    draws := s.draws + 2 }

/-- `issue(cmd, arg0, arg1, dbuf)` (R247). DBUF entries the host gives no word for are free values. A list of more than
UNIT_SIZE/8 words, DBUF's length (R45), is kept whole: DESIGN CHOICE, log entry 6; no rule reads the excess (R201). -/
def Sequencer.issue (q : Sequencer) (cmd arg0 arg1 : Word) (dbuf : List DWord) (era : Nat) : Sequencer :=
  { q with cmd := cmd, arg0 := arg0, arg1 := arg1, dbuf := dbuf, dbufEra := era }.goto .decode

/-- The host's next move at a port (R247): `issue` is enabled only at IDLE and `collect` only at DONE; a move that is
not enabled waits. -/
def State.hostStep (s : State) (n : SeqId) : State :=
  match (s.port n).queue with
  | [] => s
  | .issue cmd arg0 arg1 dbuf :: rest =>
    if (s.seq n).state = .idle then
      ((s.onSeq n fun q => q.issue cmd arg0 arg1 dbuf s.draws).onPort n fun p => { p with queue := rest }).drawn
    else s
  | .collect :: rest =>
    if (s.seq n).state = .done then
      (s.onSeq n Sequencer.leave).onPort n fun _ =>
        { queue := rest
          ret := some { res := (s.seq n).res, raddr := (s.seq n).raddr, rbuf := (s.seq n).rbuf,
                        rbufEra := (s.seq n).rbufEra } }
    else s

end Sys2Proof.Machine
end

