-- ==== Sys2Proof/Machine/Schedule.lean ====
section
/-! DEFINITION. Machine/Schedule.lean: which agent moves (R16, R66), what a sequencer or a master fetches, and the
refusal of an illegal word. -/
namespace Sys2Proof.Machine

/-- The command an instance is in the middle of, from OPR, BK and IDX (R45). -/
def Sequencer.command (q : Sequencer) : Option Instr := commandOf q.opr q.bk q.idx

/-- DECODE of an illegal word (R90, R242): BAD_COMMAND, no bus access, no other register changed. -/
def State.badCommand (s : State) : State := s.onCur fun q => q.finish .badCommand

/-- A transaction whose descriptor `d` is no legal pattern (R85), by R100: refused, except that an address in no window
with the clock enabled is not this block's (R63): nothing is refused or changed, and what the platform answers a read
(`d` bit 15 clear) is a free value. DESIGN CHOICE (safe), log entries 9 and 10. R85 says what is refused for SP = 0 (any
other pattern) and SZ = 3; that an SP = 1 descriptor with bits 11:4 or OFF not 0 is refused in a window is the model's
choice (DESIGN CHOICE, safe, log entry 9): R85 says of those bits only that they must be 0. -/
def State.illegalTxn (s : State) (d : Desc) : State :=
  if s.cfg.clockEnabled = false then s.refuse
  else
    match s.cfg.groupBank s.bus.addr.toNat, s.cfg.flashBank s.bus.addr.toNat with
    | none, none => if d.getLsbD 15 then s else (s.answer (Config.freeForeign s.draws)).drawn
    | _, _ => s.refuse

/-- Put a master's transaction on the bus lines (R85). -/
def State.present (s : State) (t : Txn) : State :=
  { s with bus := { s.bus with addr := t.addr, wdata := t.data, stall := false } }

/-- The transaction a master has ready. -/
def State.ready (s : State) (k : Nat) : Option Txn :=
  match s.masters[k]? with
  | some (t :: _) => some t
  | _ => none

/-- Drop the oldest transaction of master k: it has been made. -/
def dropTxn (l : List (List Txn)) (k : Nat) : List (List Txn) :=
  match l, k with
  | [], _ => []
  | q :: r, 0 => q.tail :: r
  | q :: r, k + 1 => q :: dropTxn r k

/-- The transaction has been made, unless it is held in a stall (R15: the agent has no step until the stall ends). -/
def State.retire (s : State) (k : Nat) : State :=
  if s.bus.stall then s else { s with masters := dropTxn s.masters k }

/-- The size of an array read descriptor. -/
def readSize (d : Desc) : Option Size :=
  match decodeBus d with
  | .ok .arrRd8 => some .b8
  | .ok .arrRd16 => some .h16
  | .ok .arrRd32 => some .w32
  | _ => none

/-- A transaction would stall now (R120). -/
def State.stalls (s : State) (t : Txn) : Bool :=
  match readSize t.desc with
  | none => false
  | some z =>
    match s.arrayRead z t.addr with
    | .stalled => true
    | _ => false

/-- The wedge of a part that allows it (R122): whether an engine takes its turn is a free value. -/
def State.engineWilling (s : State) : Bool := !s.cfg.wedgeAllowed || Config.freeWedge s.draws

/-- A sequencer in mid-command has a step unless its array read stalls (R246). -/
def State.seqEnabled (s : State) (n : SeqId) : Bool :=
  match (s.seq n).state with
  | .idle => false
  | .done => false
  | .rdByte =>
    match s.arrayRead .b8 (s.seq n).addr with
    | .stalled => false
    | _ => true
  | _ => true

/-- The host's next move is enabled (R247). -/
def State.hostEnabled (s : State) (n : SeqId) : Bool :=
  match (s.port n).queue with
  | [] => false
  | .issue _ _ _ _ :: _ => (s.seq n).state == .idle
  | .collect :: _ => (s.seq n).state == .done

/-- An agent that can move. -/
def State.enabled (s : State) (a : Agent) : Bool :=
  match a with
  | .seq n => s.seqEnabled n
  | .engine b => (s.grp b).busy && s.engineWilling
  | .host n => s.hostEnabled n
  | .master k => match s.ready k with
    | some t => !s.stalls t
    | none => false
  | .reset => false

/-- The other sequencer instance. -/
def SeqId.other (n : SeqId) : SeqId :=
  match n with
  | .s1 => .s2
  | .s2 => .s1

/-- The order agents are tried in when no order of moves is given: engines first (the prompt schedule of
95_test_vectors.md), then masters and hosts, then the sequencers in turn. It is weakly fair (R122, R246). -/
def State.candidates (s : State) : List Agent :=
  [.engine .b1, .engine .b2] ++ (List.range s.masters.length).map Agent.master ++
    [.host .s1, .host .s2, .seq (SeqId.other s.turn), .seq s.turn]

/-- Who moves when `sched` is empty, none when nothing can. DESIGN CHOICE, log entry 3. -/
def State.promptAgent (s : State) : Option Agent := s.candidates.find? s.enabled

/-- Who moves next (R66 (b)): the head of `sched`, else the prompt choice. -/
def State.mover (s : State) : Option Agent :=
  match s.sched with
  | a :: _ => some a
  | [] => s.promptAgent

/-- The order of moves once the mover has been taken from it; a wedge decision is a draw. -/
def State.scheduled (s : State) : State :=
  match s.sched with
  | _ :: r => { s with sched := r }
  | [] => if s.cfg.wedgeAllowed then s.drawn else s

end Sys2Proof.Machine
end

