-- ==== Sys2Proof/Machine/Moves.lean ====
section
/-! DEFINITION. Machine/Moves.lean: what each agent of R16 does when it moves: it fetches its instruction and runs it,
or makes the move that is no instruction; and where an instruction can be placed for the next move. -/
namespace Sys2Proof.Machine

/-- What a step adds after the meaning it ran, when that answers a next state. -/
def andThen (o : Host.Outcome State Fault Refusal) (f : State → State) : Host.Outcome State Fault Refusal :=
  match o with
  | .next t => .next (f t)
  | .fault r => .fault r
  | .refused r => .refused r

/-- The move of sequencer n (R246): at DECODE it fetches CMD, past it the command is the one OPR, BK and IDX hold. -/
def seqMove (n : SeqId) (s : State) : Host.Outcome State Fault Refusal :=
  match (s.seq n).state with
  | .idle => .next s
  | .done => .next s
  | .decode =>
    match decodeCommand (s.seq n).cmd with
    | .ok i => exec i { s with turn := n }
    | .error _ => .next { s with turn := n }.badCommand
  | _ =>
    match (s.seq n).command with
    | some i => exec i { s with turn := n }
    | none => .fault .noCommand

/-- The move of master k (R16 (d)): present its next transaction, run it, and drop it unless it stalls. -/
def masterMove (k : Nat) (s : State) : Host.Outcome State Fault Refusal :=
  match s.ready k with
  | none => .next s
  | some t =>
    match decodeBus t.desc with
    | .ok i => andThen (exec i (s.present t)) fun u => u.retire k
    | .error _ => .next (((s.present t).illegalTxn t.desc).retire k)

/-- The move of an agent; one with no step changes nothing. -/
def move (a : Agent) (s : State) : Host.Outcome State Fault Refusal :=
  match a with
  | .seq n => seqMove n s
  | .engine b => .next (s.engineStep b)
  | .host n => .next (s.hostStep n)
  | .master k => masterMove k s
  | .reset => .next s.resetEvent

/-- The address at which a descriptor's transaction reaches Bank1: its register, or the first array byte. -/
def fetchAddr (c : Config) (d : Desc) : Word :=
  if d.getLsbD 12 then BitVec.ofNat 32 (c.origin .b1)
  else BitVec.ofNat 32 (c.groupBase .b1 + (d.extractLsb' 0 4).toNat)

/-- Put a transaction before every other of master 0. -/
def placeTxn (l : List (List Txn)) (t : Txn) : List (List Txn) :=
  match l with
  | [] => [[t]]
  | q :: r => (t :: q) :: r

end Sys2Proof.Machine
end

