-- ==== Sys2Proof/WellFormed.lean ====
section
/-! DEFINITION. WellFormed.lean: the checks on a configuration (R9, with the ranges of R5 and R8), one definition each,
and the check that an instruction's bank is one the part has (R90 (d), R93). -/
namespace Sys2Proof

/-- The banks of the part, `BANKS` (R4). -/
def Config.banks (c : Config) : List Bank := [Bank.b1, Bank.b2].filter c.hasBank

/-- R9 (a): every origin is a multiple of 8. -/
def Config.originsAligned (c : Config) : Bool :=
  c.banks.all fun b => decide (c.origin b % 8 = 0)

/-- R9 (b): no flash window wraps the 32-bit address space. -/
def Config.flashFits (c : Config) : Bool :=
  c.banks.all fun b => decide (c.origin b + c.bankSize ≤ 2 ^ 32)

/-- Windows `[x, x+m)` and `[y, y+n)` have no address in common. -/
def apart (x m y n : Nat) : Bool := decide (x + m ≤ y) || decide (y + n ≤ x)

/-- R9 (c): the flash windows of different banks are disjoint. -/
def Config.flashDisjoint (c : Config) : Bool :=
  !c.hasBank .b2 || apart (c.origin .b1) c.bankSize (c.origin .b2) c.bankSize

/-- R9 (d): register windows are 4-aligned, in the 32-bit space (R60), disjoint from each other and from every flash
window. -/
def Config.groupsPlaced (c : Config) : Bool :=
  (c.banks.all fun b => decide (c.groupBase b % 4 = 0) && decide (c.groupBase b + 16 ≤ 2 ^ 32)) &&
  (!c.hasBank .b2 || apart (c.groupBase .b1) 16 (c.groupBase .b2) 16) &&
  (c.banks.all fun b => c.banks.all fun d => apart (c.groupBase b) 16 (c.origin d) c.bankSize)

/-- R9 (e), with R5's lower bound: `1 <= UNIT_COUNT(b) <= 256`. -/
def Config.countsFit (c : Config) : Bool := decide (1 ≤ c.unitCount) && decide (c.unitCount ≤ 256)

/-- R9 (f): protected units are units of their bank. -/
def Config.wrpInRange (c : Config) : Bool :=
  c.banks.all fun b => (c.wrpUnits b).all fun u => decide (u < c.unitCount)

/-- R8: ECC_FAULTY holds 8-aligned addresses. -/
def Config.eccAligned (c : Config) : Bool := c.eccFaulty.all fun a => decide (a % 8 = 0)

/-- R8: a poll budget is a positive integer. -/
def Config.budgetPositive (c : Config) : Bool :=
  match c.pollBudget with
  | none => true
  | some n => decide (0 < n)

/-- R8: each instance owns banks of the part, and the instances' sets are disjoint. -/
def Config.ownedLegal (c : Config) : Bool :=
  c.owned1.all c.hasBank && c.owned2.all c.hasBank && c.owned1.all fun b => !c.owned2.contains b

/-- A configuration the model accepts: "A model should reject a configuration that breaks one" (R9). -/
def Config.wf (c : Config) : Bool :=
  c.originsAligned && c.flashFits && c.flashDisjoint && c.groupsPlaced && c.countsFit && c.wrpInRange &&
    c.eccAligned && c.budgetPositive && c.ownedLegal

/-- The bank a command names (R86 field BANK); a bus transaction names none. -/
def Instr.bank (i : Instr) : Option Bank :=
  match i with
  | .unlock b => some b
  | .lock b => some b
  | .clearErrors b => some b
  | .eraseUnit b _ => some b
  | .eraseBank b => some b
  | .writeUnit b _ => some b
  | .readUnit b _ => some b
  | .unitToAddress b _ => some b
  | .keyrRd => none
  | .keyrWr => none
  | .srRd => none
  | .srWr => none
  | .crRd => none
  | .crWr => none
  | .rsvRd => none
  | .rsvWr => none
  | .arrRd8 => none
  | .arrRd16 => none
  | .arrRd32 => none
  | .arrWr8 => none
  | .arrWr16 => none
  | .arrWr32 => none

/-- An instruction is well formed for a part that has the bank it names (R90 (d)): BANK = 1 is legal only in
SECTOR_DUAL (R93). -/
def Instr.wfFor (c : Config) (i : Instr) : Bool :=
  match i.bank with
  | some b => c.hasBank b
  | none => true

end Sys2Proof
end

