-- ==== Sys2Proof/Machine/Step.lean ====
section
/-! DEFINITION. Machine/Step.lean: one move of one agent (R16, R66), and placing an instruction where the next step
fetches it. -/
namespace Sys2Proof.Machine

/-- One step: the mover's move. A configuration that breaks R9 is refused. -/
def step (s : State) : Host.Outcome State Fault Refusal :=
  if s.cfg.wf then
    match s.mover with
    | some a => move a s.scheduled
    | none => .next s.scheduled
  else .refused .illegalConfiguration

/-- `s` with an instruction placed so that the next step runs it (log entry 4): a CMD32 word in the first instance's CMD
with STATE at DECODE, as `issue` leaves it, or a BUS16 descriptor as master 0's next transaction (address in Bank1's
window, data 0), and that agent as the next mover. -/
def State.withFetchWord (s : State) (nbits w : Nat) : State :=
  if nbits = 16 then
    { s with
      masters := placeTxn s.masters
        { desc := BitVec.ofNat 16 w, addr := fetchAddr s.cfg (BitVec.ofNat 16 w), data := 0 }
      sched := .master 0 :: s.sched }
  else
    { s.onSeq .s1 fun q => { q with cmd := BitVec.ofNat 32 w }.goto .decode with
      sched := .seq .s1 :: s.sched }

end Sys2Proof.Machine
end

