-- ==== Sys2Proof/Safety.lean ====
section
/-! DEFINITION. Safety.lean: what the claims about runs are stated in: the invariants of 10_state.md R47 and of the
commands' own registers, the lock invariant (R156), and a command's own run under the schedules of 95_test_vectors.md. -/
namespace Sys2Proof.Machine

/-- An operation the start rules accept (R113, R116-R118): its target is a part of its own bank that is not
protected. -/
def OperationLegal (c : Config) (b : Bank) (op : Operation) : Prop :=
  match op with
  | .eraseUnit u => u.toNat < c.unitCount ∧ u.toNat ∉ c.wrpUnits b
  | .eraseBank => c.wrpUnits b = []
  | .program a _ => a.toNat % 8 = 0 ∧ c.inFlash b a.toNat = true ∧ c.unitOf b a.toNat ∉ c.wrpUnits b

/-- What holds of a register group in every run: R47 (b), R47 (c), the latch holds the first half of a legal program,
what the operation in flight may be (in a bank the
part has), what `key_lockout` means (R39), and absent fields read 0 (R29, R37). -/
structure GroupInv (c : Config) (b : Bank) (g : Group) : Prop where
  latchGate : ∀ l, g.latch = some l →
    g.pg = true ∧ g.uer = false ∧ g.mer = false ∧ g.lock = false ∧ g.inflight = none
  latchAddr : ∀ l, g.latch = some l →
    l.addr.toNat % 8 = 0 ∧ c.inFlash b l.addr.toNat = true ∧ c.unitOf b l.addr.toNat ∉ c.wrpUnits b
  keyLocked : g.keyState = .k1 → g.lock = true
  lockout : g.keyLockout = true →
    c.keyErrorPolicy = .lockoutUntilReset ∧ g.keyState = .k0 ∧ g.lock = true
  opLegal : ∀ op, g.inflight = some op → OperationLegal c b op
  present : ∀ op, g.inflight = some op → c.hasBank b = true
  eopAbsent : c.hasEop = false → g.eop = false
  bkselAbsent : c.variant = .pageSingle → g.bksel = false

/-- The states an operation's command passes through (R141, R151, R161, R175, R185, R200, R221, R223), beside IDLE,
DECODE and DONE. -/
def stateOfCommand (op : BitVec 4) (st : SeqState) : Bool :=
  match st with
  | .idle | .decode | .done => true
  | .ulReadCr | .ulKey1 | .ulKey2 | .ulCheck =>
    op == opUnlock || op == opEraseUnit || op == opEraseBank || op == opWriteUnit
  | .fcReadSr | .fcClear => op == opClearErrors || op == opEraseUnit || op == opEraseBank || op == opWriteUnit
  | .validate => op == opEraseUnit || op == opWriteUnit || op == opReadUnit || op == opUnitToAddress
  | .lkWait | .lkReadCr | .lkWriteCr => op == opLock || op == opEraseUnit || op == opEraseBank || op == opWriteUnit
  | .busyCheck | .cfgReadCr | .cfgWriteCr | .waitBsy | .postCheck | .waitEop | .ackEop | .clrReadCr | .clrWriteCr =>
    op == opEraseUnit || op == opEraseBank || op == opWriteUnit
  | .start => op == opEraseUnit || op == opEraseBank
  | .pgWriteLo | .pgWriteHi => op == opWriteUnit
  | .rdByte => op == opReadUnit

/-- What holds of a sequencer's control registers in every run: STATE is one of its command's, and a command once
decoded names a bank the instance may use (R242). -/
structure SequencerInv (c : Config) (n : SeqId) (q : Sequencer) : Prop where
  place : stateOfCommand q.opr q.state = true
  bank : q.opr ≠ 0 → bankLegal c n q.bk = true

/-- The states of WRITE_UNIT's pair loop (R203, R204). -/
def inPairLoop (st : SeqState) : Bool :=
  match st with
  | .pgWriteLo | .pgWriteHi | .waitBsy | .postCheck | .waitEop | .ackEop => true
  | _ => false

/-- What holds of the loop registers: from the configure states on, WRITE_UNIT has validated its unit and count and
ADDR is at word K of the unit (R201, R203), and READ_UNIT reads byte OFFSET + K of its unit (R223, R224 (d)). -/
structure AddressInv (c : Config) (q : Sequencer) : Prop where
  configure : q.opr = opWriteUnit → q.state = .cfgReadCr ∨ q.state = .cfgWriteCr →
    q.idx.toNat < c.unitCount ∧ 8 * q.arg1.toNat ≤ c.unitSize ∧ q.k = 0 ∧
      q.addr.toNat = c.unitToAddress q.idx.toNat q.bk
  pairs : q.opr = opWriteUnit → inPairLoop q.state = true →
    q.idx.toNat < c.unitCount ∧ 8 * q.arg1.toNat ≤ c.unitSize ∧ q.k.toNat < q.arg1.toNat ∧
      q.addr.toNat = c.unitToAddress q.idx.toNat q.bk + 8 * q.k.toNat
  bytes : q.opr = opReadUnit → q.state = .rdByte →
    q.idx.toNat < c.unitCount ∧ q.arg0.toNat + q.arg1.toNat ≤ c.unitSize ∧ q.k.toNat < q.arg1.toNat ∧
      q.addr.toNat = c.unitToAddress q.idx.toNat q.bk + q.arg0.toNat + q.k.toNat

/-- The model's invariant. -/
structure Inv (s : State) : Prop where
  config : s.cfg.wf = true
  memory : s.mem.wf
  marks : marksWf s.marks
  group1 : GroupInv s.cfg .b1 s.g1
  group2 : GroupInv s.cfg .b2 s.g2
  seq1 : SequencerInv s.cfg .s1 s.q1
  seq2 : SequencerInv s.cfg .s2 s.q2
  addr1 : AddressInv s.cfg s.q1
  addr2 : AddressInv s.cfg s.q2

/-- A command that re-locks on every exit (R156, R306): LOCK, ERASE_UNIT, ERASE_BANK, WRITE_UNIT. -/
def relocks (op : BitVec 4) : Bool := op == opLock || op == opEraseUnit || op == opEraseBank || op == opWriteUnit

/-- Between commands: IDLE, DONE, or a command word not yet decoded. -/
def atRest (st : SeqState) : Bool :=
  match st with
  | .idle | .decode | .done => true
  | _ => false

/-- No other bus master has a transaction to make: the single owner of R156 and R248. -/
def singleOwner (s : State) : Prop := ∀ l ∈ s.masters, l = []

/-- The lock invariant (R156): an instance at rest after a command that re-locks leaves that command's group locked;
and past the read of LOCK = 1 that ends a failed unlock nothing can have cleared it. -/
structure LockInv (s : State) : Prop where
  owner : singleOwner s
  rest : ∀ n, relocks (s.seq n).opr = true → atRest (s.seq n).state = true → (s.grp (s.seq n).bk).lock = true

/-- Both engines take their completion step: the prompt schedule of 95_test_vectors.md. -/
def settle (s : State) : State := (s.engineStep .b1).engineStep .b2

/-- `n` steps of a command in a row, the engines completing as `each` says after each step. -/
def commandRun (each : State → State) (i : Instr) (n : Nat) (s : State) : Host.Outcome State Fault Refusal :=
  match n with
  | 0 => .next s
  | n + 1 =>
    match exec i s with
    | .next t => commandRun each i n (each t)
    | .fault r => .fault r
    | .refused r => .refused r

/-- A command's steps under the prompt schedule. -/
def promptRun (i : Instr) (n : Nat) (s : State) : Host.Outcome State Fault Refusal := commandRun settle i n s

/-- A command's steps while no engine steps. -/
def heldRun (i : Instr) (n : Nat) (s : State) : Host.Outcome State Fault Refusal := commandRun id i n s

/-- Instance `turn` has its command at DECODE, may use bank b, and the clock is enabled. -/
structure Ready (s : State) (b : Bank) : Prop where
  config : s.cfg.wf = true
  clock : s.cfg.clockEnabled = true
  state : s.cur.state = .decode
  legal : bankLegal s.cfg s.turn b = true

/-- A raw register transaction at bank b's register `off` reaches it (R80, R100). -/
structure RegisterAccess (s : State) (b : Bank) (off : Nat) : Prop where
  config : s.cfg.wf = true
  clock : s.cfg.clockEnabled = true
  bank : s.cfg.hasBank b = true
  addr : s.bus.addr.toNat = s.cfg.groupBase b + off

/-- A raw array transaction reaches bank b's flash window (R60, R100). -/
structure ArrayAccess (s : State) (b : Bank) : Prop where
  config : s.cfg.wf = true
  clock : s.cfg.clockEnabled = true
  addr : s.cfg.inFlash b s.bus.addr.toNat = true

/-- `h` is `g` but for the stale select fields (R114): UNB, and BKSEL in SECTOR_DUAL, may be anything where
STALE_FIELDS_AFTER_ERROR is true. -/
def StaleAs (c : Config) (g h : Group) : Prop :=
  (∃ u k, h = { g with unb := u, bksel := k } ∧ (c.variant = .pageSingle → k = g.bksel)) ∧
    (c.staleFieldsAfterError = false → h = g)

/-- The 14 bus transactions. -/
def busInstrs : List Instr :=
  [.keyrRd, .keyrWr, .srRd, .srWr, .crRd, .crWr, .rsvRd, .rsvWr, .arrRd8, .arrRd16, .arrRd32, .arrWr8, .arrWr16,
    .arrWr32]

/-- The register transactions with the offset each is made at (R80). -/
def regOffsets : List (Instr × Nat) :=
  [(.keyrRd, 0x0), (.keyrWr, 0x0), (.srRd, 0x4), (.srWr, 0x4), (.crRd, 0x8), (.crWr, 0x8), (.rsvRd, 0xC), (.rsvWr, 0xC)]

/-- The 8 register transactions. -/
def regInstrs : List Instr := regOffsets.map Prod.fst

/-- No operation is in flight in either bank. -/
def enginesIdle (s : State) : Prop := s.g1.inflight = none ∧ s.g2.inflight = none

/-- The group can be unlocked: no key lockout holds it (R143 (a)). -/
def unlockable (g : Group) : Prop := g.lock = true → g.keyLockout = false

/-- Everything but the groups, the current sequencer and the draw counter is as before, and the other bank's group
too. -/
structure OnlyCommand (b : Bank) (s t : State) : Prop where
  cfg : t.cfg = s.cfg
  group : ∀ d, d ≠ b → t.grp d = s.grp d
  seq : ∀ n, n ≠ s.turn → t.seq n = s.seq n
  p1 : t.p1 = s.p1
  p2 : t.p2 = s.p2
  bus : t.bus = s.bus
  masters : t.masters = s.masters
  mark : t.refusalMark = s.refusalMark
  turn : t.turn = s.turn
  sched : t.sched = s.sched

end Sys2Proof.Machine
end

