-- ==== Sys2Proof/Certificates/Slice0/Obligations.lean ====
section
/-! DEFINITION. Certificates/Slice0/Obligations.lean: the statements for the provers, from the numbered rules of spec/.
The parameters of R4-R11 are a field of State, so a statement about every state holds for every configuration. A
statement that names a draw holds for every value of the draw: the free values are opaque constants. -/
open Sys2Proof Sys2Proof.Machine

/-! ### Encodings (R85, R86, R90) -/

/-- Decoding the word of any instruction, every operand at every value, gives the instruction back. -/
def Obligations.DecodeOfEncode : Prop := ∀ i : Instr, decode (encode i) = .ok i

/-- Every word the decoder accepts is the encoder's word of what it decodes to: no word of the table's interfaces has
two meanings and no reserved bit is ignored. That an SP = 1 descriptor with bits 11:4 or OFF not 0 is no instruction is
the model's choice (log entry 9, DESIGN CHOICE): R85 says of those bits only that they must be 0. -/
def Obligations.EncodeOfDecode : Prop := ∀ (k : Code) (i : Instr), decode k = .ok i → encode i = k

/-- Words written out from the spec's own encodings and examples (R85, R86, R91). -/
def Obligations.WrittenWordsDecode : Prop :=
  decode (.cmd 0b00000000000000000000101000000100#32) = .ok (.eraseUnit .b1 10) ∧
  decode (.cmd 0b00000000000000000000000000010101#32) = .ok (.eraseBank .b2) ∧
  decode (.cmd 0b00000000000000000000001100010100#32) = .ok (.eraseUnit .b2 3) ∧
  decode (.cmd 0b00000000000000000000000000000001#32) = .ok (.unlock .b1) ∧
  decode (.bus 0b1100000000001000#16) = .ok .crWr ∧
  decode (.bus 0b0011000000000000#16) = .ok .arrRd16 ∧
  decode (.bus 0b1101000000000000#16) = .ok .arrWr32

/-- R90: an illegal command word (a reserved OP, a reserved bit set, an INDEX where none belongs, or a bank the part
lacks or the instance does not own) ends as BAD_COMMAND: RES and STATE change, and nothing else of the block. -/
def Obligations.IllegalCommandEndsBadCommand : Prop :=
  ∀ (s : State) (n : SeqId) (rest : List Agent), s.cfg.wf = true → s.sched = .seq n :: rest →
    (s.seq n).state = .decode →
    ((s.seq n).cmd.extractLsb' 0 4 = 0 ∨ 9 ≤ ((s.seq n).cmd.extractLsb' 0 4).toNat ∨
      (s.seq n).cmd.extractLsb' 5 3 ≠ 0 ∨ (s.seq n).cmd.extractLsb' 16 16 ≠ 0 ∨
      ((s.seq n).cmd.extractLsb' 8 8 ≠ 0 ∧ ((s.seq n).cmd.extractLsb' 0 4).toNat ∈ [1, 2, 3, 5]) ∨
      ((s.seq n).cmd.getLsbD 4 = true ∧ s.cfg.variant = .pageSingle) ∨
      (if (s.seq n).cmd.getLsbD 4 then Bank.b2 else Bank.b1) ∉ s.cfg.owned n) →
    step s = .next ({ s with turn := n, sched := rest }.onSeq n fun q => { q with res := .badCommand, state := .done })

/-- DECODE of a legal word (R242): OPR, BK and IDX are loaded and the command's first state is entered. -/
def Obligations.DecodeLoadsTheCommand : Prop :=
  ∀ (s : State) (b : Bank) (idx : BitVec 8), s.cur.state = .decode → s.cfg.hasBank b = true →
    b ∈ s.cfg.owned s.turn →
    exec (.unlock b) s = .next (s.onCur fun q => { q with opr := 1, bk := b, idx := 0, state := .ulReadCr }) ∧
    exec (.lock b) s =
      .next (s.onCur fun q => { q with opr := 2, bk := b, idx := 0, res := .ok, polls := 0, state := .lkWait }) ∧
    exec (.clearErrors b) s = .next (s.onCur fun q => { q with opr := 3, bk := b, idx := 0, state := .fcReadSr }) ∧
    exec (.eraseUnit b idx) s = .next (s.onCur fun q => { q with opr := 4, bk := b, idx := idx, state := .ulReadCr }) ∧
    exec (.eraseBank b) s = .next (s.onCur fun q => { q with opr := 5, bk := b, idx := 0, state := .ulReadCr }) ∧
    exec (.writeUnit b idx) s = .next (s.onCur fun q => { q with opr := 6, bk := b, idx := idx, state := .ulReadCr }) ∧
    exec (.readUnit b idx) s = .next (s.onCur fun q => { q with opr := 7, bk := b, idx := idx, state := .validate }) ∧
    exec (.unitToAddress b idx) s =
      .next (s.onCur fun q => { q with opr := 8, bk := b, idx := idx, state := .validate })

/-! ### Reset (R290-R292) -/

/-- R290 and R291: after the reset event, from any state, every group is locked and idle with no flag, SR reads 0 and
CR 0x8000_0000, every sequencer is IDLE with its registers 0 and RES = OK, and without an operation in flight every
array byte and `programmed` bit keeps its value; the refusal mark too. -/
def Obligations.ResetLeavesTheResetValues : Prop :=
  ∀ (s : State) (rest : List Agent), s.cfg.wf = true → s.sched = .reset :: rest →
    ∃ t, step s = .next t ∧
      (∀ b, srWord t.cfg (t.grp b) = 0x00000000 ∧ crWord t.cfg (t.grp b) = 0x80000000 ∧ t.grp b = Group.reset) ∧
      (∀ n, (t.seq n).state = .idle ∧ (t.seq n).res = .ok ∧ (t.seq n).raddr = 0 ∧ (t.seq n).cmd = 0 ∧
        (t.seq n).arg0 = 0 ∧ (t.seq n).arg1 = 0 ∧ (t.seq n).opr = 0 ∧ (t.seq n).bk = .b1 ∧ (t.seq n).idx = 0 ∧
        (t.seq n).addr = 0 ∧ (t.seq n).k = 0 ∧ (t.seq n).polls = 0 ∧ (t.seq n).srv = 0 ∧ (t.seq n).crv = 0 ∧
        (t.seq n).fcm = 0) ∧
      ((∀ b, (s.grp b).inflight = none) → t.mem = s.mem ∧ t.marks = s.marks) ∧
      t.refusalMark = s.refusalMark ∧ t.cfg = s.cfg

/-- R292: a reset while an operation is in flight changes no array byte outside what that operation targets: unit u of
an EraseUnit(u), bank g of an EraseBank, the 8 bytes at A of a Program(A, D). Every other byte keeps its value. -/
def Obligations.ResetTouchesTheTargetOnly : Prop :=
  ∀ (s : State) (rest : List Agent), s.cfg.wf = true → s.sched = .reset :: rest →
    ∃ t, step s = .next t ∧ ∀ a,
      (∀ b u, (s.grp b).inflight = some (.eraseUnit u) →
        ¬(s.cfg.origin b + u.toNat * s.cfg.unitSize ≤ a ∧ a < s.cfg.origin b + (u.toNat + 1) * s.cfg.unitSize)) →
      (∀ b, (s.grp b).inflight = some .eraseBank →
        ¬(s.cfg.origin b ≤ a ∧ a < s.cfg.origin b + s.cfg.unitCount * s.cfg.unitSize)) →
      (∀ b x d, (s.grp b).inflight = some (.program x d) → ¬(x.toNat ≤ a ∧ a < x.toNat + 8)) →
      t.mem.read a = s.mem.read a

/-! ### Raw register transactions (R100-R115) -/

/-- R101, R102, R103 and R115: what each register reads as, bit by bit; a read changes no flag, returns K1 to K0 (R107),
and changes nothing else of the block. -/
def Obligations.RegisterReadsGiveTheFields : Prop :=
  ∀ (s : State) (b : Bank),
    (RegisterAccess s b 0x0 → exec .keyrRd s = .next
      { s.onGrp b (fun g => { g with keyState := .k0 }) with bus := { s.bus with rdata := 0, stall := false } }) ∧
    (RegisterAccess s b 0xC → exec .rsvRd s = .next
      { s.onGrp b (fun g => { g with keyState := .k0 }) with bus := { s.bus with rdata := 0, stall := false } }) ∧
    (RegisterAccess s b 0xC → exec .rsvWr s = .next (s.onGrp b (fun g => { g with keyState := .k0 }))) ∧
    (RegisterAccess s b 0x4 → ∃ v : Word, exec .srRd s = .next
        { s.onGrp b (fun g => { g with keyState := .k0 }) with bus := { s.bus with rdata := v, stall := false } } ∧
      v.getLsbD 0 = (s.grp b).inflight.isSome ∧ v.getLsbD 1 = (s.cfg.hasEop && (s.grp b).eop) ∧
      v.getLsbD 2 = (s.grp b).wrperr ∧ v.getLsbD 3 = (s.grp b).sizerr ∧ v.getLsbD 4 = (s.grp b).pgserr ∧
      v.getLsbD 5 = (s.grp b).eccerr ∧ v.getLsbD 6 = (s.grp b).bsyerr ∧ v.extractLsb' 7 25 = 0) ∧
    (RegisterAccess s b 0x8 → ∃ v : Word, exec .crRd s = .next
        { s.onGrp b (fun g => { g with keyState := .k0 }) with bus := { s.bus with rdata := v, stall := false } } ∧
      v.getLsbD 0 = (s.grp b).pg ∧ v.getLsbD 1 = (s.grp b).uer ∧ v.getLsbD 2 = (s.grp b).mer ∧ v.getLsbD 3 = false ∧
      v.extractLsb' 4 4 = 0 ∧ v.extractLsb' 8 8 = (s.grp b).unb ∧
      (s.cfg.variant = .sectorDual → v.getLsbD 16 = (s.grp b).bksel) ∧
      (s.cfg.variant = .pageSingle → v.getLsbD 16 = false) ∧
      v.extractLsb' 17 14 = 0 ∧ v.getLsbD 31 = (s.grp b).lock)

/-- R104, R105, R106: the KEYR write in every key state, with no flag and no other state changed. -/
def Obligations.KeyrWriteFollowsTheKeyState : Prop :=
  ∀ (s : State) (b : Bank), RegisterAccess s b 0x0 →
    ((s.grp b).lock = false → exec .keyrWr s = .next s) ∧
    ((s.grp b).lock = true → (s.grp b).keyState = .k0 → (s.grp b).keyLockout = true → exec .keyrWr s = .next s) ∧
    ((s.grp b).lock = true → (s.grp b).keyState = .k0 → (s.grp b).keyLockout = false → s.bus.wdata = 0x45670123 →
      exec .keyrWr s = .next (s.onGrp b fun g => { g with keyState := .k1 })) ∧
    ((s.grp b).lock = true → (s.grp b).keyState = .k0 → (s.grp b).keyLockout = false → s.bus.wdata ≠ 0x45670123 →
      exec .keyrWr s = .next (s.onGrp b fun g =>
        { g with keyState := .k0, keyLockout := decide (s.cfg.keyErrorPolicy = .lockoutUntilReset) })) ∧
    ((s.grp b).lock = true → (s.grp b).keyState = .k1 → s.bus.wdata = 0xCDEF89AB →
      exec .keyrWr s = .next (s.onGrp b fun g => { g with lock := false, keyState := .k0 })) ∧
    ((s.grp b).lock = true → (s.grp b).keyState = .k1 → s.bus.wdata ≠ 0xCDEF89AB →
      exec .keyrWr s = .next (s.onGrp b fun g => { g with
        keyState := .k0
        keyLockout := g.keyLockout || decide (s.cfg.keyErrorPolicy = .lockoutUntilReset) }))

/-- R107: any access to a group's registers other than a KEYR write returns K1 to K0, so key word 2 after it leaves the
group locked. -/
def Obligations.InterleavedAccessKeepsTheLock : Prop :=
  ∀ (s : State) (b : Bank) (i : Instr) (off : Nat),
    (i, off) ∈ [(Instr.keyrRd, 0x0), (Instr.srRd, 0x4), (Instr.srWr, 0x4), (Instr.crRd, 0x8), (Instr.crWr, 0x8),
      (Instr.rsvRd, 0xC), (Instr.rsvWr, 0xC)] →
    RegisterAccess s b off → (s.grp b).lock = true →
    ∃ t u, exec i s = .next t ∧ (t.grp b).keyState = .k0 ∧ (t.grp b).lock = true ∧
      exec .keyrWr { t with bus := { t.bus with
        addr := BitVec.ofNat 32 (s.cfg.groupBase b), wdata := 0xCDEF89AB } } = .next u ∧
      (u.grp b).lock = true

/-- R108: each 1 written to SR clears its flag, a 0 leaves it, bits 0 and 31:7 are ignored; whatever LOCK and BSY are. -/
def Obligations.SrWriteClearsTheWrittenOnes : Prop :=
  ∀ (s : State) (b : Bank), RegisterAccess s b 0x4 →
    exec .srWr s = .next (s.onGrp b fun g => { g with
      keyState := .k0
      eop := g.eop && !(s.cfg.hasEop && s.bus.wdata.getLsbD 1)
      wrperr := g.wrperr && !s.bus.wdata.getLsbD 2
      sizerr := g.sizerr && !s.bus.wdata.getLsbD 3
      pgserr := g.pgserr && !s.bus.wdata.getLsbD 4
      eccerr := g.eccerr && !s.bus.wdata.getLsbD 5
      bsyerr := g.bsyerr && !s.bus.wdata.getLsbD 6 })

/-- R109 and R111: a CR write to a locked group has no effect; to an unlocked busy group it only sets LOCK when bit 31
is 1, and raises BSYERR when it would change an RW field or sets STRT. (The draw counter is the model's own.) -/
def Obligations.CrWriteLockedOrBusy : Prop :=
  ∀ (s : State) (b : Bank), RegisterAccess s b 0x8 →
    ((s.grp b).lock = true →
      exec .crWr s = .next { s.onGrp b (fun g => { g with keyState := .k0 }) with draws := s.draws + 1 }) ∧
    ((s.grp b).lock = false → (s.grp b).inflight ≠ none →
      ∃ e : Bool, exec .crWr s = .next { s.onGrp b (fun g => { g with
          keyState := .k0, lock := s.bus.wdata.getLsbD 31, bsyerr := g.bsyerr || e }) with draws := s.draws + 1 } ∧
        (e = true ↔ s.bus.wdata.getLsbD 0 ≠ (s.grp b).pg ∨ s.bus.wdata.getLsbD 1 ≠ (s.grp b).uer ∨
          s.bus.wdata.getLsbD 2 ≠ (s.grp b).mer ∨ s.bus.wdata.extractLsb' 8 8 ≠ (s.grp b).unb ∨
          (s.cfg.variant = .sectorDual ∧ s.bus.wdata.getLsbD 16 ≠ (s.grp b).bksel) ∨
          s.bus.wdata.getLsbD 3 = true))

/-- R110 without STRT: a CR write to an unlocked idle group sets every RW field, drops a half-full latch when PG is 0 or
UER, MER or LOCK is 1, and sets LOCK when bit 31 is 1; nothing starts and no flag changes. -/
def Obligations.CrWriteIdleSetsTheFields : Prop :=
  ∀ (s : State) (b : Bank), RegisterAccess s b 0x8 → (s.grp b).lock = false → (s.grp b).inflight = none →
    s.bus.wdata.getLsbD 3 = false →
    exec .crWr s = .next { s.onGrp b (fun g => { g with
      keyState := .k0
      pg := s.bus.wdata.getLsbD 0
      uer := s.bus.wdata.getLsbD 1
      mer := s.bus.wdata.getLsbD 2
      unb := s.bus.wdata.extractLsb' 8 8
      bksel := if s.cfg.variant = .sectorDual then s.bus.wdata.getLsbD 16 else g.bksel
      latch := if s.bus.wdata.getLsbD 0 = false ∨ s.bus.wdata.getLsbD 1 = true ∨ s.bus.wdata.getLsbD 2 = true ∨
        s.bus.wdata.getLsbD 31 = true then none else g.latch
      lock := s.bus.wdata.getLsbD 31 }) with draws := s.draws + 1 }

/-- R113 with R110 and R114: what STRT = 1 does on an unlocked idle group. `f` is the group with the fields just
written; the checks are tried in the order written, and only the first failing one raises its flag. -/
def Obligations.StartChecksInOrder : Prop :=
  ∀ (s : State) (b : Bank) (f : Group), RegisterAccess s b 0x8 → (s.grp b).lock = false → (s.grp b).inflight = none →
    s.bus.wdata.getLsbD 3 = true →
    f = { s.grp b with
      keyState := .k0
      pg := s.bus.wdata.getLsbD 0
      uer := s.bus.wdata.getLsbD 1
      mer := s.bus.wdata.getLsbD 2
      unb := s.bus.wdata.extractLsb' 8 8
      bksel := if s.cfg.variant = .sectorDual then s.bus.wdata.getLsbD 16 else (s.grp b).bksel
      latch := if s.bus.wdata.getLsbD 0 = false ∨ s.bus.wdata.getLsbD 1 = true ∨ s.bus.wdata.getLsbD 2 = true ∨
        s.bus.wdata.getLsbD 31 = true then none else (s.grp b).latch
      lock := s.bus.wdata.getLsbD 31 } →
    ∃ h : Group, exec .crWr s = .next { s.onGrp b (fun _ => h) with draws := s.draws + 1 } ∧
      (if f.wrperr = true ∨ f.sizerr = true ∨ f.pgserr = true ∨ f.eccerr = true ∨ f.bsyerr = true then
        StaleAs s.cfg { f with pgserr := true } h
      else if f.pg = true ∨ f.uer = f.mer then StaleAs s.cfg { f with pgserr := true } h
      else if f.uer = true then
        if s.cfg.variant = .sectorDual ∧ f.bksel ≠ b.index then StaleAs s.cfg { f with pgserr := true } h
        else if s.cfg.unitCount ≤ f.unb.toNat then StaleAs s.cfg { f with pgserr := true } h
        else if f.unb.toNat ∈ s.cfg.wrpUnits b then StaleAs s.cfg { f with wrperr := true } h
        else h = { f with inflight := some (.eraseUnit f.unb) }
      else if s.cfg.wrpUnits b ≠ [] then StaleAs s.cfg { f with wrperr := true } h
      else h = { f with inflight := some .eraseBank })

/-- R112: one write v that sets the fields and STRT (and LOCK or not) has the same effect on the group as a write of the
same fields with STRT and LOCK 0 and then v itself: where an operation starts the two groups are equal; where the start
fails both are one and the same group but for what the draws put in the stale fields (R114), and equal when there are
no stale fields. LOCK is left to the second write, since a locked group ignores it (R109). -/
def Obligations.MergedStartIsTheSplitStart : Prop :=
  ∀ (s : State) (b : Bank) (v : Word), RegisterAccess s b 0x8 → (s.grp b).lock = false →
    (s.grp b).inflight = none → v.getLsbD 3 = true →
    ∃ t u w f, exec .crWr { s with bus := { s.bus with wdata := v } } = .next t ∧
      exec .crWr { s with bus := { s.bus with wdata := v &&& ~~~0x80000008#32 } } = .next u ∧
      exec .crWr { u with bus := { u.bus with wdata := v } } = .next w ∧
      StaleAs s.cfg f (t.grp b) ∧ StaleAs s.cfg f (w.grp b) ∧
      ((t.grp b).inflight ≠ none → w.grp b = t.grp b)

/-! ### Raw array transactions (R116-R121) -/

/-- R116, R117 and R118: what an array write of each size does to its bank's group, the checks in order, with R114 on
every failed attempt; the array itself never changes at the write, and nothing else of the block does. -/
def Obligations.ArrayWriteGateAndPair : Prop :=
  ∀ (s : State) (b : Bank) (i : Instr) (z : Size),
    (i, z) ∈ [(Instr.arrWr8, Size.b8), (Instr.arrWr16, Size.h16), (Instr.arrWr32, Size.w32)] → ArrayAccess s b →
    ∃ h : Group, exec i s = .next { s.onGrp b (fun _ => h) with draws := s.draws + 1 } ∧
      (if (s.grp b).inflight ≠ none then h = { s.grp b with bsyerr := true }
      else if (s.grp b).lock = true ∨ (s.grp b).pg = false ∨ (s.grp b).uer = true ∨ (s.grp b).mer = true then
        StaleAs s.cfg { s.grp b with pgserr := true, latch := none } h
      else match (s.grp b).latch with
        | none =>
          if (s.grp b).wrperr = true ∨ (s.grp b).sizerr = true ∨ (s.grp b).pgserr = true ∨ (s.grp b).eccerr = true ∨
            (s.grp b).bsyerr = true then StaleAs s.cfg { s.grp b with pgserr := true } h
          else if z ≠ .w32 ∨ s.bus.addr.toNat % 8 ≠ 0 then StaleAs s.cfg { s.grp b with sizerr := true } h
          else if (s.bus.addr.toNat - s.cfg.origin b) / s.cfg.unitSize ∈ s.cfg.wrpUnits b then
            StaleAs s.cfg { s.grp b with wrperr := true } h
          else h = { s.grp b with latch := some { addr := s.bus.addr, low := s.bus.wdata } }
        | some l =>
          if z ≠ .w32 ∨ s.bus.addr.toNat ≠ l.addr.toNat + 4 then
            StaleAs s.cfg { s.grp b with sizerr := true, latch := none } h
          else h = { s.grp b with latch := none, inflight := some (.program l.addr (s.bus.wdata ++ l.low)) })

/-- R119: reads, SR writes and KEYR writes never discard a half-full latch, of any bank. -/
def Obligations.ReadsKeepTheLatch : Prop :=
  ∀ (s : State) (i : Instr),
    i ∈ [Instr.keyrRd, .keyrWr, .srRd, .srWr, .crRd, .rsvRd, .rsvWr, .arrRd8, .arrRd16, .arrRd32] →
    ∃ t, exec i s = .next t ∧ ∀ b, (t.grp b).latch = (s.grp b).latch

/-- R120 and R121: an aligned array read of an idle bank returns the stored bytes, little-endian, or, where it touches
an ECC-faulty double-word, some value and ECCERR; of a busy bank it stalls. Every array byte reads as before. -/
def Obligations.ArrayReadReturnsTheBytes : Prop :=
  ∀ (s : State) (b : Bank) (i : Instr) (n : Nat),
    (i, n) ∈ [(Instr.arrRd8, 1), (Instr.arrRd16, 2), (Instr.arrRd32, 4)] → ArrayAccess s b →
    s.bus.addr.toNat % n = 0 →
    ((s.grp b).inflight ≠ none → exec i s = .next { s with bus := { s.bus with stall := true } }) ∧
    ((s.grp b).inflight = none → (∀ k, k < n → (s.bus.addr.toNat + k) / 8 * 8 ∉ s.cfg.eccFaulty) →
      ∃ v : Word, exec i s = .next { s with bus := { s.bus with rdata := v, stall := false } } ∧
        ∀ k, k < n → v.extractLsb' (8 * k) 8 = s.mem.read (s.bus.addr.toNat + k)) ∧
    ((s.grp b).inflight = none → (∃ k, k < n ∧ (s.bus.addr.toNat + k) / 8 * 8 ∈ s.cfg.eccFaulty) →
      ∃ v : Word, exec i s = .next { s.onGrp b (fun g => { g with eccerr := true }) with
        bus := { s.bus with rdata := v, stall := false }, draws := s.draws + 1 })

/-- R269 with R61, R62, R85 and R100: the refused transactions: any without the clock; a misaligned array read; in a
register window, a register transaction whose address is not 4-aligned and an array transaction of 8 or 16 bits; an
illegal descriptor, so SZ = 3 in either window. Each sets the refusal mark and changes nothing else of the block. The
spec does not say what a legal descriptor does at an aligned address that its SP or OFF does not name: that it is
refused too is the model's choice (log entry 9), and so are the last three forms of the third clause. -/
def Obligations.RefusedTransactionsSetTheMarkOnly : Prop :=
  (∀ (s : State) (i : Instr), i ∈ busInstrs → s.cfg.clockEnabled = false →
    exec i s = .next { s with refusalMark := true }) ∧
  (∀ (s : State) (b : Bank) (i : Instr) (n : Nat), (i, n) ∈ [(Instr.arrRd16, 2), (Instr.arrRd32, 4)] →
    ArrayAccess s b → s.bus.addr.toNat % n ≠ 0 → exec i s = .next { s with refusalMark := true }) ∧
  (∀ (s : State) (i : Instr), s.cfg.wf = true →
    (i ∈ regInstrs ∧ (s.cfg.groupBank s.bus.addr.toNat).isSome = true ∧ s.bus.addr.toNat % 4 ≠ 0 ∨
      i ∈ [Instr.arrRd8, .arrRd16, .arrWr8, .arrWr16] ∧ (s.cfg.groupBank s.bus.addr.toNat).isSome = true ∨
      i ∈ [Instr.arrRd32, .arrWr32] ∧ (s.cfg.groupBank s.bus.addr.toNat).isSome = true ∨
      i ∈ regInstrs ∧ (s.cfg.flashBank s.bus.addr.toNat).isSome = true ∨
      (∃ b off, (i, off) ∈ regOffsets ∧ s.cfg.groupBank s.bus.addr.toNat = some b ∧
        s.bus.addr.toNat ≠ s.cfg.groupBase b + off)) →
    exec i s = .next { s with refusalMark := true }) ∧
  (∀ (s : State) (k : Nat) (x : Txn) (q : List Txn) (rest : List Agent), s.cfg.wf = true →
    s.sched = .master k :: rest → s.masters[k]? = some (x :: q) →
    ((s.cfg.groupBank x.addr.toNat).isSome = true ∨ (s.cfg.flashBank x.addr.toNat).isSome = true) →
    (x.desc.extractLsb' 13 2 = 3 ∨
      (x.desc.getLsbD 12 = false ∧ (x.desc.extractLsb' 13 2 ≠ 2 ∨ x.desc.extractLsb' 0 2 ≠ 0))) →
    step s = .next { s with
      refusalMark := true
      sched := rest
      masters := dropTxn s.masters k
      bus := { s.bus with addr := x.addr, wdata := x.data, stall := false } })

/-- R270 with R63: a transaction outside every register window and every flash window raises no flag and is not refused.
That it changes no other state of the block either is the model's deduction (log entry 10, DEDUCED): the spec calls the
transaction not this block's. The bus lines and the draw counter are the model's own. -/
def Obligations.ForeignAddressesTouchNothing : Prop :=
  ∀ (s : State) (i : Instr), i ∈ busInstrs → s.cfg.clockEnabled = true →
    s.cfg.groupBank s.bus.addr.toNat = none → s.cfg.flashBank s.bus.addr.toNat = none →
    ∃ t, exec i s = .next t ∧ t = { s with bus := t.bus, draws := t.draws }

/-! ### The operation engine (R122-R125) -/

/-- R123 with R122: the completion of EraseUnit(u) sets every byte of the unit to 0xFF and no other, clears the
`programmed` bits of the unit under `Programmed`, ends BSY, sets EOP where it exists, and raises no flag. -/
def Obligations.EraseUnitCompletion : Prop :=
  ∀ (s : State) (b : Bank) (u : BitVec 8) (rest : List Agent), s.cfg.wf = true → s.sched = .engine b :: rest →
    (s.grp b).inflight = some (.eraseUnit u) →
    ∃ t, step s = .next t ∧
      t = { s.onGrp b (fun g => { g with inflight := none, eop := g.eop || s.cfg.hasEop }) with
        sched := rest, mem := t.mem, marks := t.marks } ∧
      (∀ a, t.mem.read a =
        if s.cfg.origin b + u.toNat * s.cfg.unitSize ≤ a ∧ a < s.cfg.origin b + (u.toNat + 1) * s.cfg.unitSize
        then 0xFF else s.mem.read a) ∧
      (s.cfg.rewriteCheck = .content → t.marks = s.marks) ∧
      (s.cfg.rewriteCheck = .programmed → ∀ a, (a ∈ t.marks ↔ a ∈ s.marks ∧
        ¬(s.cfg.origin b + u.toNat * s.cfg.unitSize ≤ a ∧ a < s.cfg.origin b + (u.toNat + 1) * s.cfg.unitSize)))

/-- R124 with R122: the completion of EraseBank erases every unit of the bank and leaves every other byte, so another
bank's, alone. -/
def Obligations.EraseBankCompletion : Prop :=
  ∀ (s : State) (b : Bank) (rest : List Agent), s.cfg.wf = true → s.sched = .engine b :: rest →
    (s.grp b).inflight = some .eraseBank →
    ∃ t, step s = .next t ∧
      t = { s.onGrp b (fun g => { g with inflight := none, eop := g.eop || s.cfg.hasEop }) with
        sched := rest, mem := t.mem, marks := t.marks } ∧
      (∀ a, t.mem.read a =
        if s.cfg.origin b ≤ a ∧ a < s.cfg.origin b + s.cfg.unitCount * s.cfg.unitSize then 0xFF else s.mem.read a) ∧
      (s.cfg.rewriteCheck = .content → t.marks = s.marks) ∧
      (s.cfg.rewriteCheck = .programmed → ∀ a, (a ∈ t.marks ↔ a ∈ s.marks ∧
        ¬(s.cfg.origin b ≤ a ∧ a < s.cfg.origin b + s.cfg.unitCount * s.cfg.unitSize)))

/-- R125 with R122: a program of an erased double-word, or of 0, stores its 8 bytes little-endian and sets EOP where it
exists; any other raises PGSERR (R114), sets no EOP, and leaves in the double-word its old bytes under `Unchanged` and
some bytes under `AnyValue`. No other byte changes. -/
def Obligations.ProgramCompletion : Prop :=
  ∀ (s : State) (b : Bank) (x : Word) (d : DWord) (rest : List Agent), s.cfg.wf = true →
    s.sched = .engine b :: rest → (s.grp b).inflight = some (.program x d) →
    ∃ t, step s = .next t ∧
      (∀ a, ¬(x.toNat ≤ a ∧ a < x.toNat + 8) → t.mem.read a = s.mem.read a) ∧
      (((∀ i, i < 8 → s.mem.read (x.toNat + i) = 0xFF) ∧ (s.cfg.rewriteCheck = .content ∨ x.toNat ∉ s.marks)) ∨
          d = 0 →
        (∀ i, i < 8 → t.mem.read (x.toNat + i) = d.extractLsb' (8 * i) 8) ∧
        (∀ a, a ∈ t.marks ↔ a = x.toNat ∨ a ∈ s.marks) ∧
        t = { s.onGrp b (fun g => { g with inflight := none, eop := g.eop || s.cfg.hasEop }) with
          sched := rest, mem := t.mem, marks := t.marks }) ∧
      (¬(((∀ i, i < 8 → s.mem.read (x.toNat + i) = 0xFF) ∧ (s.cfg.rewriteCheck = .content ∨ x.toNat ∉ s.marks)) ∨
          d = 0) →
        (s.cfg.rewriteResult = .unchanged → ∀ i, i < 8 → t.mem.read (x.toNat + i) = s.mem.read (x.toNat + i)) ∧
        t = { s.onGrp b (fun _ => t.grp b) with sched := rest, mem := t.mem, draws := s.draws + 1 } ∧
        StaleAs s.cfg { s.grp b with inflight := none, pgserr := true } (t.grp b))

/-! ### Steps and the command port (R16, R246, R247) -/

/-- A step whose mover is a sequencer at DECODE runs the instruction its command word decodes to; past DECODE, the
command OPR, BK and IDX hold; a step whose mover is a master runs the instruction its descriptor decodes to with its
address and data on the bus lines, and then drops the transaction unless it stalls. -/
def Obligations.StepRunsTheDecodedInstruction : Prop :=
  (∀ (s : State) (n : SeqId) (i : Instr) (rest : List Agent), s.cfg.wf = true → s.sched = .seq n :: rest →
    (s.seq n).state = .decode → decode (.cmd (s.seq n).cmd) = .ok i →
    step s = exec i { s with turn := n, sched := rest }) ∧
  (∀ (s : State) (n : SeqId) (i : Instr) (rest : List Agent), s.cfg.wf = true → s.sched = .seq n :: rest →
    atRest (s.seq n).state = false → commandOf (s.seq n).opr (s.seq n).bk (s.seq n).idx = some i →
    step s = exec i { s with turn := n, sched := rest }) ∧
  (∀ (s : State) (k : Nat) (x : Txn) (q : List Txn) (i : Instr) (rest : List Agent), s.cfg.wf = true →
    s.sched = .master k :: rest → s.masters[k]? = some (x :: q) → decode (.bus x.desc) = .ok i →
    ∃ t, exec i { s with sched := rest, bus := { s.bus with addr := x.addr, wdata := x.data, stall := false } } =
        .next t ∧
      step s = .next (if t.bus.stall then t else { t with masters := dropTxn t.masters k }))

/-- R247: `issue` at IDLE loads CMD, ARG0, ARG1 and DBUF and goes to DECODE; `collect` at DONE returns RES, RADDR and
RBUF and goes to IDLE; in any other state neither is enabled. Two clauses are the model's choices (DESIGN CHOICE): an
`issue` of more than UNIT_SIZE/8 words is accepted and its list kept whole (log entry 6), and a move that the order of
moves names when it is not enabled waits in its queue, using up its place in the order (log entry 3). The draw counter
and the DBUF draw are the model's own. -/
def Obligations.HostPortActions : Prop :=
  ∀ (s : State) (n : SeqId) (rest : List Agent) (m : HostMove) (q : List HostMove), s.cfg.wf = true →
    s.sched = .host n :: rest → (s.port n).queue = m :: q →
    match m with
    | .issue cmd arg0 arg1 dbuf =>
      step s = .next (if (s.seq n).state = .idle then
        { (s.onSeq n fun r => { r with
            cmd := cmd, arg0 := arg0, arg1 := arg1, dbuf := dbuf, dbufEra := s.draws, state := .decode }).onPort n
              (fun p => { p with queue := q }) with sched := rest, draws := s.draws + 1 }
        else { s with sched := rest })
    | .collect =>
      step s = .next (if (s.seq n).state = .done then
        { (s.onSeq n fun r => { r with state := .idle }).onPort n (fun _ =>
            { queue := q
              ret := some { res := (s.seq n).res, raddr := (s.seq n).raddr, rbuf := (s.seq n).rbuf,
                            rbufEra := (s.seq n).rbufEra } }) with sched := rest }
        else { s with sched := rest })

/-! ### The commands, step by step -/

/-- R141: the unlock sequence, for UNLOCK and for the three commands that unlock first, over the register transactions
it makes. -/
def Obligations.UnlockSequence : Prop :=
  ∀ (s : State) (b : Bank) (i : Instr) (idx : BitVec 8),
    i ∈ [Instr.unlock b, .eraseUnit b idx, .eraseBank b, .writeUnit b idx] → s.cfg.clockEnabled = true →
    (s.cur.state = .ulReadCr →
      exec i s = .next ((s.onGrp b fun g => { g with keyState := .k0 }).onCur fun q =>
        if (s.grp b).lock = true then { q with crv := crWord s.cfg (s.grp b), state := .ulKey1 }
        else if i = .unlock b then { q with crv := crWord s.cfg (s.grp b), res := .ok, state := .done }
        else { q with crv := crWord s.cfg (s.grp b), state := .busyCheck })) ∧
    (s.cur.state = .ulKey1 → (s.grp b).lock = true → (s.grp b).keyState = .k0 → (s.grp b).keyLockout = false →
      exec i s = .next ((s.onGrp b fun g => { g with keyState := .k1 }).onCur fun q => { q with state := .ulKey2 })) ∧
    (s.cur.state = .ulKey2 → (s.grp b).lock = true → (s.grp b).keyState = .k1 →
      exec i s = .next ((s.onGrp b fun g => { g with lock := false, keyState := .k0 }).onCur fun q =>
        { q with state := .ulCheck })) ∧
    (s.cur.state = .ulCheck →
      exec i s = .next ((s.onGrp b fun g => { g with keyState := .k0 }).onCur fun q =>
        if (s.grp b).lock = true then { q with crv := crWord s.cfg (s.grp b), res := .failure, state := .done }
        else if i = .unlock b then { q with crv := crWord s.cfg (s.grp b), res := .ok, state := .done }
        else { q with crv := crWord s.cfg (s.grp b), state := .busyCheck }))

/-- R151, R155, R243 and R245: LK_WAIT polls until BSY reads 0, or until POLL_BUDGET reads have been made, when TIMEOUT
replaces the pending result; LK_READ_CR and LK_WRITE_CR follow. With CRV the CR value just read, the write changes LOCK
only, raising no flag: on an unlocked idle group it drops a half-full latch too (R119); on an unlocked busy group (the
immediate re-lock of the BUSY and TIMEOUT exits) the operation goes on; a locked group stays locked. That the count of
reads compared with POLL_BUDGET is unbounded where POLLS has 32 bits is the model's choice (log entry 13, DEDUCED). -/
def Obligations.StandardLock : Prop :=
  ∀ (s : State) (b : Bank) (i : Instr) (idx : BitVec 8),
    i ∈ [Instr.lock b, .eraseUnit b idx, .eraseBank b, .writeUnit b idx] → s.cfg.clockEnabled = true →
    (s.cur.state = .lkWait → (s.grp b).inflight = none →
      exec i s = .next ((s.onGrp b fun g => { g with keyState := .k0 }).onCur fun q =>
        { q with srv := srWord s.cfg (s.grp b), polls := q.polls + 1, state := .lkReadCr })) ∧
    (s.cur.state = .lkWait → (s.grp b).inflight ≠ none →
      (∃ n, s.cfg.pollBudget = some n ∧ n ≤ s.cur.polls + 1) →
      exec i s = .next ((s.onGrp b fun g => { g with keyState := .k0 }).onCur fun q =>
        { q with srv := srWord s.cfg (s.grp b), polls := q.polls + 1, res := .timeout, state := .lkReadCr })) ∧
    (s.cur.state = .lkWait → (s.grp b).inflight ≠ none →
      (∀ n, s.cfg.pollBudget = some n → s.cur.polls + 1 < n) →
      exec i s = .next ((s.onGrp b fun g => { g with keyState := .k0 }).onCur fun q =>
        { q with srv := srWord s.cfg (s.grp b), polls := q.polls + 1 })) ∧
    (s.cur.state = .lkReadCr →
      exec i s = .next ((s.onGrp b fun g => { g with keyState := .k0 }).onCur fun q =>
        { q with crv := crWord s.cfg (s.grp b), state := .lkWriteCr })) ∧
    (s.cur.state = .lkWriteCr → s.cur.crv = crWord s.cfg (s.grp b) →
      exec i s = .next { (s.onGrp b fun g => { g with
          keyState := .k0
          lock := true
          latch := if (s.grp b).lock = false ∧ (s.grp b).inflight = none then none else g.latch }).onCur
        (fun q => { q with state := .done }) with draws := s.draws + 1 })

/-- R161: FC_READ_SR reads SR once and keeps its error bits; FC_CLEAR, while a flag is left, clears the lowest of them
with a write of that bit alone, and then leaves for the command's next state without a bus access. -/
def Obligations.FlagClearSequence : Prop :=
  ∀ (s : State) (b : Bank) (i : Instr) (idx : BitVec 8),
    i ∈ [Instr.clearErrors b, .eraseUnit b idx, .eraseBank b, .writeUnit b idx] → s.cfg.clockEnabled = true →
    (s.cur.state = .fcReadSr →
      exec i s = .next ((s.onGrp b fun g => { g with keyState := .k0 }).onCur fun q =>
        { q with srv := srWord s.cfg (s.grp b), fcm := srWord s.cfg (s.grp b) &&& 0x0000007C, state := .fcClear })) ∧
    (s.cur.state = .fcClear → s.cur.fcm = 0 →
      exec i s = .next (s.onCur fun q =>
        if i = .clearErrors b then { q with res := .ok, state := .done }
        else if i = .eraseBank b then { q with state := .cfgReadCr }
        else { q with state := .validate })) ∧
    (∀ k, s.cur.state = .fcClear → k < 32 → s.cur.fcm.getLsbD k = true → (∀ j, j < k → s.cur.fcm.getLsbD j = false) →
      exec i s = .next ((s.onGrp b fun g => { g with
          keyState := .k0
          eop := g.eop && !(s.cfg.hasEop && decide (k = 1))
          wrperr := g.wrperr && decide (k ≠ 2)
          sizerr := g.sizerr && decide (k ≠ 3)
          pgserr := g.pgserr && decide (k ≠ 4)
          eccerr := g.eccerr && decide (k ≠ 5)
          bsyerr := g.bsyerr && decide (k ≠ 6) }).onCur fun q =>
        { q with fcm := q.fcm &&& ~~~(1#32 <<< k) }))

/-- R240, R162 and the loop test of R204: BUSY_CHECK reads SR and answers BUSY through LK_READ_CR when BSY is 1;
POST_CHECK makes no bus access and goes to the failure exit when SRV has an error bit, else to WAIT_EOP with HAS_EOP,
else to AFTER_OP. That RES is set to OK on the way to CLR_READ_CR is the model's choice (log entry 5, DEDUCED): the
rules give the success result at the command's end. -/
def Obligations.BusyCheckAndPostCheck : Prop :=
  ∀ (s : State) (b : Bank) (i : Instr) (idx : BitVec 8),
    i ∈ [Instr.eraseUnit b idx, .eraseBank b, .writeUnit b idx] → s.cfg.clockEnabled = true →
    (s.cur.state = .busyCheck →
      exec i s = .next ((s.onGrp b fun g => { g with keyState := .k0 }).onCur fun q =>
        if (s.grp b).inflight ≠ none then
          { q with srv := srWord s.cfg (s.grp b), res := .busy, state := .lkReadCr }
        else { q with srv := srWord s.cfg (s.grp b), state := .fcReadSr })) ∧
    (s.cur.state = .postCheck →
      exec i s = .next (s.onCur fun q =>
        if q.srv &&& 0x0000007C ≠ 0 then { q with res := .failure, state := .clrReadCr }
        else if s.cfg.hasEop = true then { q with polls := 0, state := .waitEop }
        else if i = .writeUnit b idx then
          if (q.k + 1).toNat < q.arg1.toNat then { q with addr := q.addr + 8, k := q.k + 1, state := .pgWriteLo }
          else { q with addr := q.addr + 8, k := q.k + 1, res := .ok, state := .clrReadCr }
        else { q with res := .ok, state := .clrReadCr }))

/-- R180 and R186: on an unlocked idle group with no flag, the configure write of ERASE_UNIT sets UER, UNB and BKSEL and
clears PG and MER, that of ERASE_BANK sets MER alone, and neither starts anything; the start write then starts the
erase of exactly the unit configured, or of the bank. -/
def Obligations.EraseConfigureThenStart : Prop :=
  ∀ (s : State) (b : Bank) (idx : BitVec 8), s.cfg.clockEnabled = true → (s.grp b).lock = false →
    (s.grp b).inflight = none → s.cur.crv.getLsbD 31 = false →
    (s.cur.state = .cfgWriteCr → ∃ v, exec (.eraseUnit b idx) s =
      .next { (s.onGrp b fun g => { g with
          keyState := .k0, pg := false, uer := true, mer := false, unb := s.cur.idx, latch := none
          bksel := if s.cfg.variant = .sectorDual then b.index else g.bksel }).onCur
        (fun q => { q with crv := v, state := .start }) with draws := s.draws + 1 } ∧
      v = (s.cur.crv &&& ~~~0x0001FF0F#32) ||| 0x00000002#32 ||| ((s.cur.idx.setWidth 32) <<< 8) |||
        (if s.cfg.variant = .sectorDual ∧ b = .b2 then 0x00010000#32 else 0)) ∧
    (s.cur.state = .cfgWriteCr → exec (.eraseBank b) s =
      .next { (s.onGrp b fun g => { g with
          keyState := .k0, pg := false, uer := false, mer := true, unb := 0, latch := none
          bksel := if s.cfg.variant = .sectorDual then false else g.bksel }).onCur
        (fun q => { q with crv := (s.cur.crv &&& ~~~0x0001FF0F#32) ||| 0x00000004#32, state := .start }) with
          draws := s.draws + 1 }) ∧
    (s.cur.state = .start → s.cur.crv = crWord s.cfg (s.grp b) → (s.grp b).errorPending = false →
      (s.grp b).pg = false → (s.grp b).uer = true → (s.grp b).mer = false →
      (s.cfg.variant = .sectorDual → (s.grp b).bksel = b.index) → (s.grp b).unb.toNat < s.cfg.unitCount →
      (s.grp b).unb.toNat ∉ s.cfg.wrpUnits b →
      exec (.eraseUnit b idx) s = .next { (s.onGrp b fun g => { g with
          keyState := .k0, latch := none, inflight := some (.eraseUnit g.unb) }).onCur
        (fun q => { q with polls := 0, state := .waitBsy }) with draws := s.draws + 1 }) ∧
    (s.cur.state = .start → s.cur.crv = crWord s.cfg (s.grp b) → (s.grp b).errorPending = false →
      (s.grp b).pg = false → (s.grp b).uer = false → (s.grp b).mer = true → s.cfg.wrpUnits b = [] →
      exec (.eraseBank b) s = .next { (s.onGrp b fun g => { g with
          keyState := .k0, latch := none, inflight := some .eraseBank }).onCur
        (fun q => { q with polls := 0, state := .waitBsy }) with draws := s.draws + 1 })

/-- R201, R202 and R203: WRITE_UNIT validates its index and count, sets PG alone and takes the loop test, and writes each
word as a pair, low half at ADDR and high half at ADDR + 4, the second half starting the program of the word. That the
loop test with no word left sets RES to OK on the way to CLR_READ_CR is the model's choice (log entry 5, DEDUCED). -/
def Obligations.ProgramConfigureAndPair : Prop :=
  ∀ (s : State) (b : Bank) (idx : BitVec 8), s.cfg.wf = true → s.cfg.clockEnabled = true →
    (s.cur.state = .validate → s.cfg.hasBank b = true → ∃ a : Word, exec (.writeUnit b idx) s = .next (s.onCur fun q =>
        if s.cfg.unitCount ≤ q.idx.toNat ∨ s.cfg.unitSize < 8 * q.arg1.toNat then
          { q with res := .pageOutOfRange, polls := 0, state := .lkWait }
        else { q with addr := a, k := 0, state := .cfgReadCr }) ∧
      (s.cur.idx.toNat < s.cfg.unitCount → a.toNat = s.cfg.origin b + s.cur.idx.toNat * s.cfg.unitSize)) ∧
    (s.cur.state = .cfgWriteCr → (s.grp b).lock = false → (s.grp b).inflight = none →
      s.cur.crv = crWord s.cfg (s.grp b) →
      exec (.writeUnit b idx) s = .next { (s.onGrp b fun g => { g with
          keyState := .k0, pg := true, uer := false, mer := false }).onCur
        (fun q => if q.k.toNat < q.arg1.toNat then
            { q with crv := (s.cur.crv &&& ~~~0x00000007#32) ||| 0x00000001#32, state := .pgWriteLo }
          else { q with
            crv := (s.cur.crv &&& ~~~0x00000007#32) ||| 0x00000001#32, res := .ok, state := .clrReadCr }) with
          draws := s.draws + 1 }) ∧
    (∀ w : DWord, s.cur.dbuf[s.cur.k.toNat]? = some w → (s.grp b).lock = false → (s.grp b).inflight = none →
      (s.grp b).pg = true → (s.grp b).uer = false → (s.grp b).mer = false →
      (s.cur.state = .pgWriteLo → (s.grp b).latch = none → (s.grp b).errorPending = false →
        s.cfg.inFlash b s.cur.addr.toNat = true → s.cur.addr.toNat % 8 = 0 →
        s.cfg.unitOf b s.cur.addr.toNat ∉ s.cfg.wrpUnits b →
        exec (.writeUnit b idx) s = .next { (s.onGrp b fun g => { g with
            latch := some { addr := s.cur.addr, low := w.extractLsb' 0 32 } }).onCur
          (fun q => { q with state := .pgWriteHi }) with draws := s.draws + 1 }) ∧
      (∀ l, s.cur.state = .pgWriteHi → (s.grp b).latch = some l → (s.cur.addr + 4).toNat = l.addr.toNat + 4 →
        s.cfg.inFlash b (s.cur.addr + 4).toNat = true →
        exec (.writeUnit b idx) s = .next { (s.onGrp b fun g => { g with
            latch := none, inflight := some (.program l.addr (w.extractLsb' 32 32 ++ l.low)) }).onCur
          (fun q => { q with polls := 0, state := .waitBsy }) with draws := s.draws + 1 }))

/-- R221, R223 and R121: UNIT_TO_ADDRESS and READ_UNIT validate without a bus access; RD_BYTE stores the byte at ADDR in
RBUF[K], advances, and ends the command with the last byte; of an ECC-faulty double-word the byte is some value and
ECCERR is raised, and the command goes on the same; a busy bank leaves the command where it is. -/
def Obligations.TranslateAndReadSteps : Prop :=
  ∀ (s : State) (b : Bank) (idx : BitVec 8), s.cfg.wf = true → s.cfg.hasBank b = true →
    (s.cur.state = .validate → ∃ a : Word, exec (.unitToAddress b idx) s = .next (s.onCur fun q =>
        if s.cfg.unitCount ≤ q.idx.toNat then { q with res := .pageOutOfRange, state := .done }
        else { q with raddr := a, res := .ok, state := .done }) ∧
      (s.cur.idx.toNat < s.cfg.unitCount → a.toNat = s.cfg.origin b + s.cur.idx.toNat * s.cfg.unitSize)) ∧
    (s.cur.state = .validate → ∃ a : Word, exec (.readUnit b idx) s = .next (s.onCur fun q =>
        if s.cfg.unitCount ≤ q.idx.toNat ∨ s.cfg.unitSize < q.arg0.toNat + q.arg1.toNat then
          { q with res := .pageOutOfRange, state := .done }
        else if q.arg1 = 0 then { q with addr := a, k := 0, res := .ok, state := .done }
        else { q with addr := a, k := 0, state := .rdByte }) ∧
      (s.cur.idx.toNat < s.cfg.unitCount → s.cur.arg0.toNat + s.cur.arg1.toNat ≤ s.cfg.unitSize → s.cur.arg1 ≠ 0 →
        a.toNat = s.cfg.origin b + s.cur.idx.toNat * s.cfg.unitSize + s.cur.arg0.toNat)) ∧
    (s.cur.state = .rdByte → s.cfg.clockEnabled = true → s.cfg.inFlash b s.cur.addr.toNat = true →
      ((s.grp b).inflight ≠ none → exec (.readUnit b idx) s = .next s) ∧
      ((s.grp b).inflight = none → s.cur.addr.toNat / 8 * 8 ∉ s.cfg.eccFaulty →
        ∃ l, exec (.readUnit b idx) s = .next (s.onCur fun q =>
            if (q.k + 1).toNat < q.arg1.toNat then { q with rbuf := l, addr := q.addr + 1, k := q.k + 1 }
            else { q with rbuf := l, addr := q.addr + 1, k := q.k + 1, res := .ok, state := .done }) ∧
          bufferRead l s.cur.rbufEra s.cur.k.toNat = s.mem.read s.cur.addr.toNat ∧
          ∀ j, j ≠ s.cur.k.toNat → bufferRead l s.cur.rbufEra j = s.cur.rbyte j) ∧
      ((s.grp b).inflight = none → s.cur.addr.toNat / 8 * 8 ∈ s.cfg.eccFaulty →
        ∃ l, exec (.readUnit b idx) s = .next { (s.onGrp b fun g => { g with eccerr := true }).onCur (fun q =>
            if (q.k + 1).toNat < q.arg1.toNat then { q with rbuf := l, addr := q.addr + 1, k := q.k + 1 }
            else { q with rbuf := l, addr := q.addr + 1, k := q.k + 1, res := .ok, state := .done }) with
              draws := s.draws + 1 } ∧
          ∀ j, j ≠ s.cur.k.toNat → bufferRead l s.cur.rbufEra j = s.cur.rbyte j))

/-- R182, R243 and R244: WAIT_BSY polls SR until BSY reads 0, and after POLL_BUDGET reads leaves for the immediate
re-lock with TIMEOUT; WAIT_EOP polls until EOP reads 1, and after POLL_BUDGET reads leaves for the post-clear with
TIMEOUT; ACK_EOP clears EOP and no error flag, and goes to AFTER_OP. That RES is set to OK on the way to CLR_READ_CR is
the model's choice (log entry 5, DEDUCED), and so is the count of reads being unbounded where POLLS has 32 bits (log
entry 13, DEDUCED). -/
def Obligations.WaitLoops : Prop :=
  ∀ (s : State) (b : Bank) (i : Instr) (idx : BitVec 8),
    i ∈ [Instr.eraseUnit b idx, .eraseBank b, .writeUnit b idx] → s.cfg.clockEnabled = true →
    (s.cur.state = .waitBsy → (s.grp b).inflight = none →
      exec i s = .next ((s.onGrp b fun g => { g with keyState := .k0 }).onCur fun q =>
        { q with srv := srWord s.cfg (s.grp b), polls := q.polls + 1, state := .postCheck })) ∧
    (s.cur.state = .waitBsy → (s.grp b).inflight ≠ none →
      (∃ n, s.cfg.pollBudget = some n ∧ n ≤ s.cur.polls + 1) →
      exec i s = .next ((s.onGrp b fun g => { g with keyState := .k0 }).onCur fun q =>
        { q with srv := srWord s.cfg (s.grp b), polls := q.polls + 1, res := .timeout, state := .lkReadCr })) ∧
    (s.cur.state = .waitBsy → (s.grp b).inflight ≠ none →
      (∀ n, s.cfg.pollBudget = some n → s.cur.polls + 1 < n) →
      exec i s = .next ((s.onGrp b fun g => { g with keyState := .k0 }).onCur fun q =>
        { q with srv := srWord s.cfg (s.grp b), polls := q.polls + 1 })) ∧
    (s.cur.state = .waitEop → s.cfg.hasEop = true → (s.grp b).eop = true →
      exec i s = .next ((s.onGrp b fun g => { g with keyState := .k0 }).onCur fun q =>
        { q with srv := srWord s.cfg (s.grp b), polls := q.polls + 1, state := .ackEop })) ∧
    (s.cur.state = .waitEop → (s.cfg.hasEop = false ∨ (s.grp b).eop = false) →
      (∃ n, s.cfg.pollBudget = some n ∧ n ≤ s.cur.polls + 1) →
      exec i s = .next ((s.onGrp b fun g => { g with keyState := .k0 }).onCur fun q =>
        { q with srv := srWord s.cfg (s.grp b), polls := q.polls + 1, res := .timeout, state := .clrReadCr })) ∧
    (s.cur.state = .waitEop → (s.cfg.hasEop = false ∨ (s.grp b).eop = false) →
      (∀ n, s.cfg.pollBudget = some n → s.cur.polls + 1 < n) →
      exec i s = .next ((s.onGrp b fun g => { g with keyState := .k0 }).onCur fun q =>
        { q with srv := srWord s.cfg (s.grp b), polls := q.polls + 1 })) ∧
    (s.cur.state = .ackEop →
      exec i s = .next ((s.onGrp b fun g => { g with keyState := .k0, eop := g.eop && !s.cfg.hasEop }).onCur fun q =>
        if i = .writeUnit b idx then
          if (q.k + 1).toNat < q.arg1.toNat then { q with addr := q.addr + 8, k := q.k + 1, state := .pgWriteLo }
          else { q with addr := q.addr + 8, k := q.k + 1, res := .ok, state := .clrReadCr }
        else { q with res := .ok, state := .clrReadCr }))

/-! ### The commands, whole -/

/-- R140: UNLOCK of any group that a key lockout does not hold, busy or not, ends OK with LOCK = 0; the key words change
no flag and no other state. -/
def Obligations.UnlockRunsToOk : Prop :=
  ∀ (s : State) (b : Bank), Ready s b → unlockable (s.grp b) →
    ∃ n t, heldRun (.unlock b) n s = .next t ∧ t.cur.state = .done ∧ t.cur.res = .ok ∧
      t.grp b = { s.grp b with lock := false, keyState := .k0 } ∧ t.mem = s.mem ∧ t.marks = s.marks ∧ OnlyCommand b s t

/-- R150: LOCK of an idle group ends OK with LOCK = 1; PG, UER, MER and every flag keep their values. -/
def Obligations.LockRunsToOk : Prop :=
  ∀ (s : State) (b : Bank), Ready s b → (s.grp b).inflight = none →
    ∃ n t, heldRun (.lock b) n s = .next t ∧ t.cur.state = .done ∧ t.cur.res = .ok ∧
      t.grp b = { s.grp b with
        lock := true, keyState := .k0, latch := if (s.grp b).lock = true then (s.grp b).latch else none } ∧
      t.mem = s.mem ∧ t.marks = s.marks ∧ OnlyCommand b s t

/-- R160: CLEAR_ERRORS ends OK with every error flag clear; EOP, CR and the operation in flight are as before. -/
def Obligations.ClearErrorsRunsToOk : Prop :=
  ∀ (s : State) (b : Bank), Ready s b →
    ∃ n t, heldRun (.clearErrors b) n s = .next t ∧ t.cur.state = .done ∧ t.cur.res = .ok ∧
      t.grp b = { s.grp b with
        wrperr := false, sizerr := false, pgserr := false, eccerr := false, bsyerr := false, keyState := .k0 } ∧
      t.mem = s.mem ∧ t.marks = s.marks ∧ OnlyCommand b s t

/-- R175: with both engines idle and prompt, ERASE_UNIT of an unprotected unit of the bank ends OK, locked or unlocked at
entry and with any flags set: exactly the unit's bytes read 0xFF, no flag is left, PG, UER and MER are 0, UNB names the
unit and LOCK is 1. -/
def Obligations.EraseUnitRunsToOk : Prop :=
  ∀ (s : State) (b : Bank) (idx : BitVec 8), Ready s b → enginesIdle s → unlockable (s.grp b) →
    idx.toNat < s.cfg.unitCount → idx.toNat ∉ s.cfg.wrpUnits b →
    ∃ n t, promptRun (.eraseUnit b idx) n s = .next t ∧ t.cur.state = .done ∧ t.cur.res = .ok ∧
      (∀ a, t.mem.read a =
        if s.cfg.origin b + idx.toNat * s.cfg.unitSize ≤ a ∧ a < s.cfg.origin b + (idx.toNat + 1) * s.cfg.unitSize
        then 0xFF else s.mem.read a) ∧
      (t.grp b).lock = true ∧ (t.grp b).unb = idx ∧ (t.grp b).pg = false ∧ (t.grp b).uer = false ∧
      (t.grp b).mer = false ∧ (t.grp b).errorPending = false ∧ (s.cfg.hasEop = true → (t.grp b).eop = false) ∧
      (t.grp b).inflight = none ∧ (t.grp b).latch = none ∧ OnlyCommand b s t

/-- R185: the same of ERASE_BANK of a bank without a protected unit: exactly the bank's bytes read 0xFF. -/
def Obligations.EraseBankRunsToOk : Prop :=
  ∀ (s : State) (b : Bank), Ready s b → enginesIdle s → unlockable (s.grp b) → s.cfg.wrpUnits b = [] →
    ∃ n t, promptRun (.eraseBank b) n s = .next t ∧ t.cur.state = .done ∧ t.cur.res = .ok ∧
      (∀ a, t.mem.read a =
        if s.cfg.origin b ≤ a ∧ a < s.cfg.origin b + s.cfg.unitCount * s.cfg.unitSize then 0xFF else s.mem.read a) ∧
      (t.grp b).lock = true ∧ (t.grp b).pg = false ∧ (t.grp b).uer = false ∧ (t.grp b).mer = false ∧
      (t.grp b).errorPending = false ∧ (s.cfg.hasEop = true → (t.grp b).eop = false) ∧ (t.grp b).inflight = none ∧
      (t.grp b).latch = none ∧ OnlyCommand b s t

/-- R200 with R204, R205 and R206: with both engines idle and prompt and no half of a pair left in the latch by another
master, WRITE_UNIT of any number of words that fits an unprotected unit, each word 0 or its double-word erased, ends
OK: word k's bytes are stored little-endian at the unit's base + 8k, no other byte changes, no error flag is left, PG,
UER and MER are 0 and LOCK is 1. -/
def Obligations.WriteUnitRunsToOk : Prop :=
  ∀ (s : State) (b : Bank) (idx : BitVec 8), Ready s b → enginesIdle s → unlockable (s.grp b) →
    (s.grp b).latch = none → idx.toNat < s.cfg.unitCount → idx.toNat ∉ s.cfg.wrpUnits b →
    8 * s.cur.arg1.toNat ≤ s.cfg.unitSize →
    (∀ k, k < s.cur.arg1.toNat → s.cur.dword k = 0 ∨
      ((∀ j, j < 8 → s.mem.read (s.cfg.origin b + idx.toNat * s.cfg.unitSize + 8 * k + j) = 0xFF) ∧
        (s.cfg.rewriteCheck = .content ∨ s.cfg.origin b + idx.toNat * s.cfg.unitSize + 8 * k ∉ s.marks))) →
    ∃ n t, promptRun (.writeUnit b idx) n s = .next t ∧ t.cur.state = .done ∧ t.cur.res = .ok ∧
      (∀ k j, k < s.cur.arg1.toNat → j < 8 →
        t.mem.read (s.cfg.origin b + idx.toNat * s.cfg.unitSize + 8 * k + j) = (s.cur.dword k).extractLsb' (8 * j) 8) ∧
      (∀ a, ¬(s.cfg.origin b + idx.toNat * s.cfg.unitSize ≤ a ∧
          a < s.cfg.origin b + idx.toNat * s.cfg.unitSize + 8 * s.cur.arg1.toNat) →
        t.mem.read a = s.mem.read a) ∧
      (t.grp b).lock = true ∧ (t.grp b).pg = false ∧ (t.grp b).uer = false ∧ (t.grp b).mer = false ∧
      (t.grp b).errorPending = false ∧ (s.cfg.hasEop = true → s.cur.arg1 ≠ 0 → (t.grp b).eop = false) ∧
      (t.grp b).inflight = none ∧ (t.grp b).latch = none ∧ OnlyCommand b s t

/-- R223 with R224 and R121: READ_UNIT of any part of a unit of an idle bank ends OK, locked or not, and changes no byte.
RBUF[k] is the byte at the unit's base + OFFSET + k wherever that byte's double-word is not ECC-faulty; where one is
touched ECCERR is raised and the group is otherwise as before. -/
def Obligations.ReadUnitRunsToOk : Prop :=
  ∀ (s : State) (b : Bank) (idx : BitVec 8), Ready s b → (s.grp b).inflight = none →
    idx.toNat < s.cfg.unitCount → s.cur.arg0.toNat + s.cur.arg1.toNat ≤ s.cfg.unitSize →
    ∃ n t, heldRun (.readUnit b idx) n s = .next t ∧ t.cur.state = .done ∧ t.cur.res = .ok ∧
      (∀ k, k < s.cur.arg1.toNat →
        (s.cfg.origin b + idx.toNat * s.cfg.unitSize + s.cur.arg0.toNat + k) / 8 * 8 ∉ s.cfg.eccFaulty →
        t.cur.rbyte k = s.mem.read (s.cfg.origin b + idx.toNat * s.cfg.unitSize + s.cur.arg0.toNat + k)) ∧
      ((∃ k, k < s.cur.arg1.toNat ∧
          (s.cfg.origin b + idx.toNat * s.cfg.unitSize + s.cur.arg0.toNat + k) / 8 * 8 ∈ s.cfg.eccFaulty) →
        t.grp b = { s.grp b with eccerr := true }) ∧
      ((∀ k, k < s.cur.arg1.toNat →
          (s.cfg.origin b + idx.toNat * s.cfg.unitSize + s.cur.arg0.toNat + k) / 8 * 8 ∉ s.cfg.eccFaulty) →
        t.grp b = s.grp b) ∧
      t.mem = s.mem ∧ t.marks = s.marks ∧ OnlyCommand b s t

/-- R221: UNIT_TO_ADDRESS of a valid index ends OK in two steps with RADDR the unit's base, and, of an index past the
bank's units, PAGE_OUT_OF_RANGE with RADDR as it was; locked or busy, no group, no byte and no draw changes. -/
def Obligations.UnitToAddressRunsToItsResult : Prop :=
  ∀ (s : State) (b : Bank) (idx : BitVec 8), Ready s b →
    ∃ t, heldRun (.unitToAddress b idx) 2 s = .next t ∧ t.cur.state = .done ∧
      (idx.toNat < s.cfg.unitCount → t.cur.res = .ok ∧
        t.cur.raddr.toNat = s.cfg.origin b + idx.toNat * s.cfg.unitSize) ∧
      (s.cfg.unitCount ≤ idx.toNat → t.cur.res = .pageOutOfRange ∧ t.cur.raddr = s.cur.raddr) ∧
      t.grp b = s.grp b ∧ t.mem = s.mem ∧ t.marks = s.marks ∧ t.draws = s.draws ∧ OnlyCommand b s t

/-- R241: a mutating command to a bank with an operation in flight ends BUSY while the operation carries on: LOCK is 1,
no flag is raised or cleared, no enable or select field changes, and no byte does. -/
def Obligations.BusyExitLocksAndChangesNothingElse : Prop :=
  ∀ (s : State) (b : Bank) (i : Instr) (idx : BitVec 8),
    i ∈ [Instr.eraseUnit b idx, .eraseBank b, .writeUnit b idx] → Ready s b → unlockable (s.grp b) →
    (s.grp b).inflight ≠ none →
    ∃ n t, heldRun i n s = .next t ∧ t.cur.state = .done ∧ t.cur.res = .busy ∧
      t.grp b = { s.grp b with lock := true, keyState := .k0 } ∧ t.mem = s.mem ∧ t.marks = s.marks ∧ OnlyCommand b s t

/-- R163: from POST_CHECK with an error bit in SRV, on the unlocked idle group, the command ends FAILURE in six steps
with PG, UER and MER cleared, LOCK = 1 and every flag left as it was. -/
def Obligations.FailureExitLocksAndKeepsTheFlags : Prop :=
  ∀ (s : State) (b : Bank) (i : Instr) (idx : BitVec 8),
    i ∈ [Instr.eraseUnit b idx, .eraseBank b, .writeUnit b idx] → s.cfg.clockEnabled = true →
    s.cur.state = .postCheck → s.cur.srv &&& 0x0000007C ≠ 0 → (s.grp b).lock = false → (s.grp b).inflight = none →
    ∃ t, heldRun i 6 s = .next t ∧ t.cur.state = .done ∧ t.cur.res = .failure ∧
      t.grp b = { s.grp b with
        pg := false, uer := false, mer := false, latch := none, lock := true, keyState := .k0 } ∧
      t.mem = s.mem ∧ t.marks = s.marks ∧ OnlyCommand b s t

/-- R179 and R201: an index past the bank's units, or data longer than the unit, ends PAGE_OUT_OF_RANGE on an idle bank:
LOCK is 1, the error flags present at entry are cleared, and no enable, no select field and no byte changes. -/
def Obligations.OutOfRangeArmsNothing : Prop :=
  ∀ (s : State) (b : Bank) (i : Instr) (idx : BitVec 8), Ready s b → unlockable (s.grp b) →
    (s.grp b).inflight = none →
    (i = .eraseUnit b idx ∧ s.cfg.unitCount ≤ idx.toNat ∨
      i = .writeUnit b idx ∧ (s.cfg.unitCount ≤ idx.toNat ∨ s.cfg.unitSize < 8 * s.cur.arg1.toNat)) →
    ∃ n t, heldRun i n s = .next t ∧ t.cur.state = .done ∧ t.cur.res = .pageOutOfRange ∧
      t.grp b = { s.grp b with
        wrperr := false, sizerr := false, pgserr := false, eccerr := false, bsyerr := false
        latch := none, lock := true, keyState := .k0 } ∧
      t.mem = s.mem ∧ t.marks = s.marks ∧ OnlyCommand b s t

/-- R176: a command that cannot unlock its group (a key lockout holds it) ends FAILURE in five steps without a busy
check, a flag clear or a re-lock: the group is as it was. -/
def Obligations.UnlockFailureTouchesNothing : Prop :=
  ∀ (s : State) (b : Bank) (i : Instr) (idx : BitVec 8),
    i ∈ [Instr.unlock b, .eraseUnit b idx, .eraseBank b, .writeUnit b idx] → Ready s b →
    (s.grp b).lock = true → (s.grp b).keyLockout = true →
    ∃ t, heldRun i 5 s = .next t ∧ t.cur.state = .done ∧ t.cur.res = .failure ∧
      t.grp b = { s.grp b with keyState := .k0 } ∧ t.mem = s.mem ∧ t.marks = s.marks ∧ OnlyCommand b s t

/-! ### Whole-machine rules -/

/-- The invariant (R47 (b), (c) with the commands' registers and the canonical memory) holds at reset, and the lock
invariant (R156) does. Two values of State.reset it rests on are the model's choices: the legal launch configuration
(log entry 1) and no other master having a transaction to make (log entry 7). -/
def Obligations.InvariantsHoldAtReset : Prop := Inv State.reset ∧ LockInv State.reset

/-- Every step of every agent, from every state that meets the invariant, keeps it. -/
def Obligations.StepKeepsTheInvariant : Prop := ∀ s t : State, Inv s → step s = .next t → Inv t

/-- From every state that meets the invariant, the machine takes a step: the faults and the refusal it excludes are the
model's own (log entries 16 and 20); the spec has no trap and stops nowhere (R262, R269). -/
def Obligations.InvariantStatesNeverStop : Prop := ∀ s : State, Inv s → ∃ t, step s = .next t

/-- R156: under a single owner, every step keeps the lock invariant: an instance at rest after LOCK, ERASE_UNIT,
ERASE_BANK or WRITE_UNIT, whatever the path it left by, leaves that command's group locked. -/
def Obligations.EveryExitLeavesTheLockSet : Prop :=
  ∀ s t : State, Inv s → LockInv s → step s = .next t → LockInv t

/-- R269 and R248: a sequencer's step is never a refused transaction while the clock is enabled, and touches only groups
of banks its instance owns. -/
def Obligations.SequencerStaysInItsBanks : Prop :=
  ∀ (s t : State) (n : SeqId), Inv s → s.mover = some (.seq n) → step s = .next t →
    (s.cfg.clockEnabled = true → t.refusalMark = s.refusalMark) ∧
    ∀ b, b ∉ s.cfg.owned n → t.grp b = s.grp b

/-- R66 (c): the array and the `programmed` bits change only at an engine's completion step (and at reset, R292): every
other step leaves every byte. No step changes a parameter or clears the refusal mark (R20 (e)). -/
def Obligations.ArrayChangesOnlyAtCompletion : Prop :=
  ∀ s t : State, step s = .next t →
    t.cfg = s.cfg ∧ (s.refusalMark = true → t.refusalMark = true) ∧
    ((∀ b, s.mover ≠ some (.engine b)) → s.mover ≠ some .reset → t.mem = s.mem ∧ t.marks = s.marks)

/-- R126: no transaction, command or other agent's move cancels or shortens an operation in flight: it ends only at its
completion step or at reset. -/
def Obligations.NothingCancelsAnOperation : Prop :=
  ∀ (s t : State) (b : Bank) (op : Operation), step s = .next t → (s.grp b).inflight = some op →
    s.mover ≠ some (.engine b) → s.mover ≠ some .reset → (t.grp b).inflight = some op

/-- R71 (a): no step starts an erase or a program in a locked group. -/
def Obligations.LockedGroupsStartNothing : Prop :=
  ∀ (s t : State) (b : Bank), step s = .next t → (s.grp b).lock = true → (s.grp b).inflight = none →
    (t.grp b).inflight = none

/-- R71 (b): no step, the reset event with an operation cut short included, changes a byte of a protected unit. -/
def Obligations.ProtectedUnitsNeverChange : Prop :=
  ∀ (s t : State) (b : Bank) (u o : Nat), Inv s → step s = .next t → s.cfg.hasBank b = true →
    u ∈ s.cfg.wrpUnits b → o < s.cfg.unitSize →
    t.mem.read (s.cfg.origin b + u * s.cfg.unitSize + o) = s.mem.read (s.cfg.origin b + u * s.cfg.unitSize + o)

/-- R127: the engine of one bank changes only that bank's group and that bank's bytes. -/
def Obligations.EnginesAreIndependent : Prop :=
  ∀ (s t : State) (b : Bank), Inv s → s.mover = some (.engine b) → step s = .next t →
    (∀ d, d ≠ b → t.grp d = s.grp d) ∧
    ∀ a, s.cfg.inFlash b a = false → t.mem.read a = s.mem.read a

/-- R222: in a legal configuration unit_to_address is injective over all banks' units and increasing in the index, each
unit beginning where the one before it ends. -/
def Obligations.UnitAddressesAreInjective : Prop :=
  ∀ (c : Config) (b d : Bank) (i j : Nat), c.wf = true → c.hasBank b = true → c.hasBank d = true →
    i < c.unitCount → j < c.unitCount →
    (c.unitToAddress i b = c.unitToAddress j d → b = d ∧ i = j) ∧
    (i < j → c.unitToAddress i b < c.unitToAddress j b) ∧
    c.unitToAddress (i + 1) b = c.unitToAddress i b + c.unitSize ∧
    c.unitToAddress i b + c.unitSize ≤ 2 ^ 32

/-- The second attempt of R207, at the engine: a program of the same data D that follows a successful program of a
double-word with no erase between raises PGSERR, for every D but 0 and all ones under `Content`, and for every D but 0
under `Programmed`. -/
def Obligations.SecondProgramFails : Prop :=
  ∀ (s t : State) (b : Bank) (x : Word) (d : DWord), s.cfg.wf = true → s.sched = [.engine b, .engine b] →
    (s.grp b).inflight = some (.program x d) → d ≠ 0 →
    (d ≠ BitVec.allOnes 64 ∨ s.cfg.rewriteCheck = .programmed) → (s.grp b).pgserr = false →
    step s = .next t → (t.grp b).pgserr = false →
    ∃ u, step (t.onGrp b fun g => { g with inflight := some (.program x d) }) = .next u ∧ (u.grp b).pgserr = true

/-- R244, R155 and R249: with POLL_BUDGET = n, a WAIT_BSY just entered whose operation never completes ends the command in
n + 2 steps, whatever n is: TIMEOUT after the n-th read, then the immediate re-lock. LOCK is 1, PG, UER, MER, the select
fields and every flag are as they were, the operation is still in flight, and no byte changes. That n may be 2^32 or more
though POLLS has 32 bits is the model's choice (log entry 13, DEDUCED). -/
def Obligations.BudgetEndsAHeldWait : Prop :=
  ∀ (s : State) (b : Bank) (i : Instr) (idx : BitVec 8) (n : Nat),
    i ∈ [Instr.eraseUnit b idx, .eraseBank b, .writeUnit b idx] → s.cfg.clockEnabled = true →
    s.cfg.pollBudget = some n → 0 < n → s.cur.state = .waitBsy → s.cur.polls = 0 → (s.grp b).inflight ≠ none →
    ∃ t, heldRun i (n + 2) s = .next t ∧ t.cur.state = .done ∧ t.cur.res = .timeout ∧ t.cur.polls = n ∧
      t.grp b = { s.grp b with lock := true, keyState := .k0 } ∧ t.mem = s.mem ∧ t.marks = s.marks ∧ OnlyCommand b s t
end

