-- ==== Sys2Proof/Laws/Operands.lean ====
section
/-! SUPPORT. Laws/Operands.lean: the bits of the words the sequences read and write (R81, R82, R102, R103, R151, R180,
R183, R186, R202), where an address lies (R60), and what a legal configuration gives (R9). -/
namespace Sys2Proof.Machine

/-! ### SR (R102) -/

theorem srWord_bits (c : Config) (g : Group) :
    (srWord c g).getLsbD 0 = g.busy ∧ (srWord c g).getLsbD 1 = (c.hasEop && g.eop) ∧
    (srWord c g).getLsbD 2 = g.wrperr ∧ (srWord c g).getLsbD 3 = g.sizerr ∧ (srWord c g).getLsbD 4 = g.pgserr ∧
    (srWord c g).getLsbD 5 = g.eccerr ∧ (srWord c g).getLsbD 6 = g.bsyerr := by
  unfold srWord
  cases g.busy <;> cases (c.hasEop && g.eop) <;> cases g.wrperr <;> cases g.sizerr <;> cases g.pgserr <;>
    cases g.eccerr <;> cases g.bsyerr <;> decide

@[simp] theorem srWord_bsy (c : Config) (g : Group) : (srWord c g).getLsbD 0 = g.busy := (srWord_bits c g).1

@[simp] theorem srWord_eop (c : Config) (g : Group) : (srWord c g).getLsbD 1 = (c.hasEop && g.eop) :=
  (srWord_bits c g).2.1

/-- The error bits of SR are set exactly when an error flag is (R81, R113). -/
theorem srWord_errMask (c : Config) (g : Group) : srWord c g &&& errMask = 0 ↔ g.errorPending = false := by
  unfold srWord Group.errorPending
  cases g.busy <;> cases (c.hasEop && g.eop) <;> cases g.wrperr <;> cases g.sizerr <;> cases g.pgserr <;>
    cases g.eccerr <;> cases g.bsyerr <;> decide

/-- SR depends on the flags and on BSY only. -/
theorem srWord_congr (c : Config) (g h : Group) (hb : g.busy = h.busy) (he : g.eop = h.eop) (h1 : g.wrperr = h.wrperr)
    (h2 : g.sizerr = h.sizerr) (h3 : g.pgserr = h.pgserr) (h4 : g.eccerr = h.eccerr) (h5 : g.bsyerr = h.bsyerr) :
    srWord c g = srWord c h := by
  unfold srWord
  rw [hb, he, h1, h2, h3, h4, h5]

/-! ### CR (R103) -/

@[simp] theorem crWord_pg (c : Config) (g : Group) : (crWord c g).getLsbD 0 = g.pg := by
  simp only [crWord, BitVec.getLsbD_append]; simp

@[simp] theorem crWord_uer (c : Config) (g : Group) : (crWord c g).getLsbD 1 = g.uer := by
  simp only [crWord, BitVec.getLsbD_append]; simp

@[simp] theorem crWord_mer (c : Config) (g : Group) : (crWord c g).getLsbD 2 = g.mer := by
  simp only [crWord, BitVec.getLsbD_append]; simp

@[simp] theorem crWord_strt (c : Config) (g : Group) : (crWord c g).getLsbD 3 = false := by
  simp only [crWord, BitVec.getLsbD_append]; simp

@[simp] theorem crWord_bksel (c : Config) (g : Group) : (crWord c g).getLsbD 16 = bkselBit c g := by
  simp only [crWord, BitVec.getLsbD_append]; simp

@[simp] theorem crWord_lock (c : Config) (g : Group) : (crWord c g).getLsbD 31 = g.lock := by
  simp only [crWord, BitVec.getLsbD_append]; simp

@[simp] theorem crWord_unb (c : Config) (g : Group) : (crWord c g).extractLsb' 8 8 = g.unb := by
  apply BitVec.eq_of_getLsbD_eq
  intro i hi
  simp only [BitVec.getLsbD_extractLsb', crWord, BitVec.getLsbD_append]
  simp (disch := omega) only [decide_eq_true, Bool.true_and, if_neg, if_pos]
  congr 1
  omega

/-! ### The values the sequences write, over any CR value read -/

theorem extract_and (v w : Word) (s l : Nat) :
    (v &&& w).extractLsb' s l = v.extractLsb' s l &&& w.extractLsb' s l := by
  apply BitVec.eq_of_getLsbD_eq
  intro i hi
  simp only [BitVec.getLsbD_extractLsb', BitVec.getLsbD_and]
  cases decide (i < l) <;> simp

theorem extract_or (v w : Word) (s l : Nat) :
    (v ||| w).extractLsb' s l = v.extractLsb' s l ||| w.extractLsb' s l := by
  apply BitVec.eq_of_getLsbD_eq
  intro i hi
  simp only [BitVec.getLsbD_extractLsb', BitVec.getLsbD_or]
  cases decide (i < l) <;> simp

/-- `CRV | 0x8000_0000` (R151): the bits read, with LOCK set. -/
theorem lockValue_bits (v : Word) :
    (lockValue v).getLsbD 0 = v.getLsbD 0 ∧ (lockValue v).getLsbD 1 = v.getLsbD 1 ∧
    (lockValue v).getLsbD 2 = v.getLsbD 2 ∧ (lockValue v).getLsbD 3 = v.getLsbD 3 ∧
    (lockValue v).getLsbD 16 = v.getLsbD 16 ∧ (lockValue v).getLsbD 31 = true ∧
    (lockValue v).extractLsb' 8 8 = v.extractLsb' 8 8 := by
  refine ⟨?_, ?_, ?_, ?_, ?_, ?_, ?_⟩
  · simp [lockValue, crLock]
  · simp [lockValue, crLock]
  · simp [lockValue, crLock]
  · simp [lockValue, crLock]
  · simp [lockValue, crLock]
  · simp [lockValue, crLock]
  · rw [lockValue, extract_or, show crLock.extractLsb' 8 8 = 0 from by decide]; simp

/-- `CRV & ~0x7` (R183): PG, UER and MER cleared, the rest as read. -/
theorem postClear_bits (v : Word) :
    (postClear v).getLsbD 0 = false ∧ (postClear v).getLsbD 1 = false ∧
    (postClear v).getLsbD 2 = false ∧ (postClear v).getLsbD 3 = v.getLsbD 3 ∧
    (postClear v).getLsbD 16 = v.getLsbD 16 ∧ (postClear v).getLsbD 31 = v.getLsbD 31 ∧
    (postClear v).extractLsb' 8 8 = v.extractLsb' 8 8 := by
  refine ⟨?_, ?_, ?_, ?_, ?_, ?_, ?_⟩
  · simp [postClear, enableMask]
  · simp [postClear, enableMask]
  · simp [postClear, enableMask]
  · simp [postClear, enableMask]
  · simp [postClear, enableMask]
  · simp [postClear, enableMask]
  · rw [postClear, extract_and, show (~~~enableMask).extractLsb' 8 8 = BitVec.allOnes 8 from by decide, BitVec.and_allOnes]

/-- `(CRV & ~0x7) | 0x1` (R202). -/
theorem writeUnitCfg_bits (v : Word) :
    (writeUnitCfg v).getLsbD 0 = true ∧ (writeUnitCfg v).getLsbD 1 = false ∧
    (writeUnitCfg v).getLsbD 2 = false ∧ (writeUnitCfg v).getLsbD 3 = v.getLsbD 3 ∧
    (writeUnitCfg v).getLsbD 16 = v.getLsbD 16 ∧ (writeUnitCfg v).getLsbD 31 = v.getLsbD 31 ∧
    (writeUnitCfg v).extractLsb' 8 8 = v.extractLsb' 8 8 := by
  refine ⟨?_, ?_, ?_, ?_, ?_, ?_, ?_⟩
  · simp [writeUnitCfg, enableMask, crPg]
  · simp [writeUnitCfg, enableMask, crPg]
  · simp [writeUnitCfg, enableMask, crPg]
  · simp [writeUnitCfg, enableMask, crPg]
  · simp [writeUnitCfg, enableMask, crPg]
  · simp [writeUnitCfg, enableMask, crPg]
  · rw [writeUnitCfg, extract_or, extract_and, show (~~~enableMask).extractLsb' 8 8 = BitVec.allOnes 8 from by decide,
      show crPg.extractLsb' 8 8 = 0 from by decide, BitVec.and_allOnes]; simp

/-- `(CRV & ~SELMASK) | 0x4` (R186). -/
theorem eraseBankCfg_bits (v : Word) :
    (eraseBankCfg v).getLsbD 0 = false ∧ (eraseBankCfg v).getLsbD 1 = false ∧
    (eraseBankCfg v).getLsbD 2 = true ∧ (eraseBankCfg v).getLsbD 3 = false ∧
    (eraseBankCfg v).getLsbD 16 = false ∧ (eraseBankCfg v).getLsbD 31 = v.getLsbD 31 ∧
    (eraseBankCfg v).extractLsb' 8 8 = 0 := by
  refine ⟨?_, ?_, ?_, ?_, ?_, ?_, ?_⟩
  · simp [eraseBankCfg, selMask, crMer]
  · simp [eraseBankCfg, selMask, crMer]
  · simp [eraseBankCfg, selMask, crMer]
  · simp [eraseBankCfg, selMask, crMer]
  · simp [eraseBankCfg, selMask, crMer]
  · simp [eraseBankCfg, selMask, crMer]
  · rw [eraseBankCfg, extract_or, extract_and, show (~~~selMask).extractLsb' 8 8 = 0 from by decide,
      show crMer.extractLsb' 8 8 = 0 from by decide]; simp

/-- ERASE_UNIT's configure value (R180): UER, the unit index, and in SECTOR_DUAL the bank index in BKSEL. -/
theorem eraseUnitCfg_bits (c : Config) (b : Bank) (idx : BitVec 8) (v : Word) :
    (eraseUnitCfg c b idx v).getLsbD 0 = false ∧ (eraseUnitCfg c b idx v).getLsbD 1 = true ∧
    (eraseUnitCfg c b idx v).getLsbD 2 = false ∧ (eraseUnitCfg c b idx v).getLsbD 3 = false ∧
    (c.variant = .sectorDual → (eraseUnitCfg c b idx v).getLsbD 16 = b.index) ∧
    (eraseUnitCfg c b idx v).getLsbD 31 = v.getLsbD 31 ∧
    (eraseUnitCfg c b idx v).extractLsb' 8 8 = idx := by
  have hi : ((idx.setWidth 32 : Word) <<< 8).extractLsb' 8 8 = idx := by
    apply BitVec.eq_of_getLsbD_eq
    intro i hi
    simp only [BitVec.getLsbD_extractLsb', BitVec.getLsbD_shiftLeft, BitVec.getLsbD_setWidth]
    simp (disch := omega) only [decide_eq_true, Bool.true_and, Nat.add_sub_cancel_left]
    simp [show ¬(8 + i < 8) from by omega]
  refine ⟨?_, ?_, ?_, ?_, ?_, ?_, ?_⟩
  · cases hv : c.variant <;> cases b <;> simp [eraseUnitCfg, selMask, crUer, hv, Bank.index]
  · cases hv : c.variant <;> cases b <;> simp [eraseUnitCfg, selMask, crUer, hv, Bank.index]
  · cases hv : c.variant <;> cases b <;> simp [eraseUnitCfg, selMask, crUer, hv, Bank.index]
  · cases hv : c.variant <;> cases b <;> simp [eraseUnitCfg, selMask, crUer, hv, Bank.index]
  · intro hv
    cases b <;> simp [eraseUnitCfg, selMask, crUer, hv, Bank.index]
  · cases hv : c.variant <;> cases b <;> simp [eraseUnitCfg, selMask, crUer, hv, Bank.index]
  · cases hv : c.variant <;> cases b <;>
      simp only [eraseUnitCfg, hv, extract_or, extract_and, hi, Bank.index] <;>
      rw [show (~~~selMask).extractLsb' 8 8 = 0 from by decide, show crUer.extractLsb' 8 8 = 0 from by decide]
    · rw [show (0 : Word).extractLsb' 8 8 = 0 from by decide]; simp
    · rw [show (0 : Word).extractLsb' 8 8 = 0 from by decide]; simp
    · rw [show (((BitVec.ofBool false).setWidth 32 : Word) <<< 16).extractLsb' 8 8 = 0 from by decide]; simp
    · rw [show (((BitVec.ofBool true).setWidth 32 : Word) <<< 16).extractLsb' 8 8 = 0 from by decide]; simp

end Sys2Proof.Machine

namespace Sys2Proof
open Machine

/-! ### Windows (R60) and legal configurations (R9) -/

theorem Config.flashBank_some {c : Config} {a : Nat} {b : Bank} (h : c.flashBank a = some b) : c.inFlash b a = true := by
  unfold Config.flashBank at h
  split at h
  · cases h; assumption
  · split at h
    · cases h; assumption
    · cases h

theorem Config.groupBank_some {c : Config} {a : Nat} {b : Bank} (h : c.groupBank a = some b) : c.inGroup b a = true := by
  unfold Config.groupBank at h
  split at h
  · cases h; assumption
  · split at h
    · cases h; assumption
    · cases h

/-- The parts of a legal configuration. -/
theorem Config.wf_parts {c : Config} (h : c.wf = true) :
    c.originsAligned = true ∧ c.flashFits = true ∧ c.flashDisjoint = true ∧ c.groupsPlaced = true ∧
      c.countsFit = true ∧ c.wrpInRange = true ∧ c.eccAligned = true ∧ c.budgetPositive = true ∧
      c.ownedLegal = true := by
  simpa [Config.wf, and_assoc] using h

theorem Config.mem_banks {c : Config} {b : Bank} : b ∈ c.banks ↔ c.hasBank b = true := by
  cases b <;> simp [Config.banks]

/-- R9 (a). -/
theorem Config.wf_origin_aligned {c : Config} (h : c.wf = true) {b : Bank} (hb : c.hasBank b = true) :
    c.origin b % 8 = 0 := by
  have := (Config.wf_parts h).1
  simp only [Config.originsAligned, List.all_eq_true] at this
  simpa using this b (Config.mem_banks.mpr hb)

/-- R9 (b). -/
theorem Config.wf_flash_fits {c : Config} (h : c.wf = true) {b : Bank} (hb : c.hasBank b = true) :
    c.origin b + c.bankSize ≤ 2 ^ 32 := by
  have := (Config.wf_parts h).2.1
  simp only [Config.flashFits, List.all_eq_true] at this
  simpa using this b (Config.mem_banks.mpr hb)

/-- R9 (c): an address lies in one flash window at most. -/
theorem Config.wf_flash_disjoint {c : Config} (h : c.wf = true) {a : Nat} (h1 : c.inFlash .b1 a = true)
    (h2 : c.inFlash .b2 a = true) : False := by
  have := (Config.wf_parts h).2.2.1
  simp only [Config.inFlash, Bool.and_eq_true, decide_eq_true_eq] at h1 h2
  simp only [Config.flashDisjoint, apart, h2.1.1, Bool.not_true, Bool.false_or, Bool.or_eq_true,
    decide_eq_true_eq] at this
  omega

/-- The flash window an address lies in is the one `flashBank` names. -/
theorem Config.flashBank_of_inFlash {c : Config} (h : c.wf = true) {a : Nat} {b : Bank} (hb : c.inFlash b a = true) :
    c.flashBank a = some b := by
  unfold Config.flashBank
  cases b with
  | b1 => rw [if_pos hb]
  | b2 =>
    rw [if_neg, if_pos hb]
    intro h1
    exact Config.wf_flash_disjoint h h1 hb

/-- R9 (d): an address lies in one register window at most. -/
theorem Config.groupBank_of_inGroup {c : Config} (h : c.wf = true) {a : Nat} {b : Bank} (hb : c.inGroup b a = true) :
    c.groupBank a = some b := by
  unfold Config.groupBank
  cases b with
  | b1 => rw [if_pos hb]
  | b2 =>
    rw [if_neg, if_pos hb]
    intro h1
    have := (Config.wf_parts h).2.2.2.1
    simp only [Config.inGroup, Bool.and_eq_true, decide_eq_true_eq] at h1 hb
    simp only [Config.groupsPlaced, apart, hb.1.1, Bool.not_true, Bool.false_or, Bool.and_eq_true, Bool.or_eq_true,
      decide_eq_true_eq] at this
    omega

/-- R9 (d): the windows of a register group and of the array have no address in common. -/
theorem Config.wf_group_flash_disjoint {c : Config} (h : c.wf = true) {a : Nat} {b d : Bank}
    (h1 : c.inGroup b a = true) (h2 : c.inFlash d a = true) : False := by
  have := (Config.wf_parts h).2.2.2.1
  simp only [Config.groupsPlaced, Bool.and_eq_true, List.all_eq_true] at this
  simp only [Config.inGroup, Config.inFlash, Bool.and_eq_true, decide_eq_true_eq] at h1 h2
  have := this.2 b (Config.mem_banks.mpr h1.1.1) d (Config.mem_banks.mpr h2.1.1)
  simp only [apart, Bool.or_eq_true, decide_eq_true_eq] at this
  omega

/-- R5, R6, R9 (e). -/
theorem Config.wf_count {c : Config} (h : c.wf = true) : 1 ≤ c.unitCount ∧ c.unitCount ≤ 256 := by
  have := (Config.wf_parts h).2.2.2.2.1
  simpa [Config.countsFit] using this

/-- R8: the instances' bank sets are disjoint. -/
theorem Config.wf_owned_disjoint {c : Config} (h : c.wf = true) {b : Bank} (h1 : b ∈ c.owned1) (h2 : b ∈ c.owned2) :
    False := by
  have := (Config.wf_parts h).2.2.2.2.2.2.2.2
  simp only [Config.ownedLegal, Bool.and_eq_true, List.all_eq_true] at this
  have := this.2 b h1
  simp [h2] at this

/-- UNIT_SIZE is a multiple of 8 (R5, R6). -/
theorem Config.unitSize_mod (c : Config) : c.unitSize % 8 = 0 := by
  unfold Config.unitSize
  cases c.variant <;> rfl

theorem Config.unitSize_pos (c : Config) : 0 < c.unitSize := by
  unfold Config.unitSize
  cases c.variant <;> simp

/-- A byte of a unit of a bank lies in the bank's window and belongs to that unit (R43, R117). -/
theorem Config.inUnit {c : Config} {b : Bank} (hb : c.hasBank b = true) {u o : Nat} (hu : u < c.unitCount)
    (ho : o < c.unitSize) :
    c.inFlash b (c.unitToAddress u b + o) = true ∧ c.unitOf b (c.unitToAddress u b + o) = u := by
  have hmul : u * c.unitSize + c.unitSize ≤ c.unitCount * c.unitSize := by
    rw [← Nat.succ_mul]
    exact Nat.mul_le_mul_right _ hu
  refine ⟨?_, ?_⟩
  · simp only [Config.inFlash, hb, Config.unitToAddress, Config.bankSize, Bool.true_and, Bool.and_eq_true]
    exact ⟨decide_eq_true (by omega), decide_eq_true (by omega)⟩
  · simp only [Config.unitOf, Config.unitToAddress, Nat.add_assoc, Nat.add_sub_cancel_left]
    rw [Nat.mul_comm, Nat.mul_add_div (Config.unitSize_pos c), Nat.div_eq_of_lt ho, Nat.add_zero]

end Sys2Proof
end

