-- ==== Sys2Proof/Laws/Group.lean ====
section
/-! SUPPORT. Laws/Group.lean: everything each transition of a register group can do, and that each keeps the group's
invariant (R47). -/
namespace Sys2Proof.Machine

/-! ### Frames -/

/-- A KEYR write changes LOCK and the key state only, and clears LOCK only (R104-R106). -/
theorem Group.keyWrite_frame (c : Config) (v : Word) (g : Group) :
    ∃ l k o, g.keyWrite c v = { g with lock := l, keyState := k, keyLockout := o } ∧ (l = true → g.lock = true) := by
  unfold Group.keyWrite Group.wrongKey
  split
  · exact ⟨g.lock, g.keyState, g.keyLockout, rfl, id⟩
  · split
    · split
      · exact ⟨g.lock, g.keyState, g.keyLockout, rfl, id⟩
      · split
        · exact ⟨g.lock, .k1, g.keyLockout, rfl, id⟩
        · exact ⟨g.lock, .k0, _, rfl, id⟩
    · split
      · exact ⟨false, .k0, g.keyLockout, rfl, fun h => by cases h⟩
      · exact ⟨g.lock, .k0, _, rfl, id⟩

/-- The interleave rule leaves the key state at K0 and changes nothing else (R107). -/
theorem Group.interleave_eq (g : Group) : g.interleave = { g with keyState := .k0 } := by
  unfold Group.interleave
  split
  · rfl
  · next h => rw [← h]

/-- A raised flag changes the flags only (R264). -/
theorem Group.raise_frame (f : ErrorFlag) (g : Group) :
    ∃ a b c d e, g.raise f = { g with wrperr := a, sizerr := b, pgserr := c, eccerr := d, bsyerr := e } := by
  cases f <;> exact ⟨_, _, _, _, _, rfl⟩

/-- A failed attempt raises a flag and may change the select fields (R114). -/
theorem Group.fail_frame (c : Config) (n : Nat) (f : ErrorFlag) (g : Group) :
    ∃ a b d e h u k, g.fail c n f =
      { g with wrperr := a, sizerr := b, pgserr := d, eccerr := e, bsyerr := h, unb := u, bksel := k } ∧
      (c.variant = .pageSingle → k = g.bksel) := by
  unfold Group.fail Group.stale
  split
  · cases f <;> refine ⟨_, _, _, _, _, _, _, rfl, fun h => ?_⟩ <;> simp [h, Group.raise]
  · cases f <;> exact ⟨_, _, _, _, _, _, _, rfl, fun _ => rfl⟩

/-- Everything a start evaluation can do (R113): a failed attempt, or a legal erase. -/
theorem Group.start_cases (c : Config) (b : Bank) (n : Nat) (g : Group) :
    (∃ f, g.start c b n = g.fail c n f) ∨
    (g.pg = false ∧ ∃ op, OperationLegal c b op ∧ g.start c b n = { g with inflight := some op }) := by
  unfold Group.start
  split
  · exact .inl ⟨_, rfl⟩
  · split
    · exact .inl ⟨_, rfl⟩
    · next hpg =>
      have hpg' : g.pg = false := by simpa using fun h => hpg (.inl h)
      split
      · split
        · exact .inl ⟨_, rfl⟩
        · split
          · exact .inl ⟨_, rfl⟩
          · split
            · exact .inl ⟨_, rfl⟩
            · next h1 h2 => exact .inr ⟨hpg', .eraseUnit g.unb, ⟨by omega, h2⟩, rfl⟩
      · split
        · exact .inl ⟨_, rfl⟩
        · next h => exact .inr ⟨hpg', .eraseBank, by simpa [OperationLegal] using h, rfl⟩

/-- Everything an array write can do (R116-R118): BSYERR on a busy bank, a failed attempt that empties the latch or
found it empty, the first half latched, or the program started from the latch. -/
theorem Group.arrWrite_cases (c : Config) (b : Bank) (n : Nat) (z : Size) (a v : Word) (g : Group) :
    (g.busy = true ∧ g.arrWrite c b n z a v = g.raise .bsyerr) ∨
    (g.busy = false ∧ ∃ f, g.arrWrite c b n z a v = { g with latch := none }.fail c n f) ∨
    (g.busy = false ∧ g.latch = none ∧ g.lock = false ∧ g.pg = true ∧ g.uer = false ∧ g.mer = false ∧ z = .w32 ∧
      a.toNat % 8 = 0 ∧ c.unitOf b a.toNat ∉ c.wrpUnits b ∧
      g.arrWrite c b n z a v = { g with latch := some { addr := a, low := v } }) ∨
    (g.busy = false ∧ g.lock = false ∧ z = .w32 ∧ ∃ l, g.latch = some l ∧ a.toNat = l.addr.toNat + 4 ∧
      g.arrWrite c b n z a v = { g with latch := none, inflight := some (.program l.addr (v ++ l.low)) }) := by
  unfold Group.arrWrite
  split
  · next h => exact .inl ⟨h, rfl⟩
  · next hb =>
    have hb' : g.busy = false := by simpa using hb
    split
    · exact .inr (.inl ⟨hb', _, rfl⟩)
    · next hg =>
      have hl : g.lock = false := by simpa using fun h => hg (.inl h)
      have hp : g.pg = true := by simpa using fun h => hg (.inr (.inl h))
      have hu : g.uer = false := by simpa using fun h => hg (.inr (.inr (.inl h)))
      have hm : g.mer = false := by simpa using fun h => hg (.inr (.inr (.inr h)))
      split
      · next hn =>
        have he : g = { g with latch := none } := by rw [← hn]
        split
        · exact .inr (.inl ⟨hb', .pgserr, by rw [← he]⟩)
        · unfold Group.firstHalf
          split
          · exact .inr (.inl ⟨hb', .sizerr, by rw [← he]⟩)
          · next hz =>
            split
            · exact .inr (.inl ⟨hb', .wrperr, by rw [← he]⟩)
            · next hw =>
              refine .inr (.inr (.inl ⟨hb', hn, hl, hp, hu, hm, ?_, ?_, hw, rfl⟩))
              · exact Classical.byContradiction fun h => hz (.inl h)
              · exact Classical.byContradiction fun h => hz (.inr h)
      · next l hs =>
        unfold Group.secondHalf
        split
        · exact .inr (.inl ⟨hb', .sizerr, rfl⟩)
        · next hz =>
          refine .inr (.inr (.inr ⟨hb', hl, ?_, l, hs, ?_, rfl⟩))
          · exact Classical.byContradiction fun h => hz (.inl h)
          · exact Classical.byContradiction fun h => hz (.inr h)

/-! ### LOCK (R36): a CR or array write never clears it -/

@[simp] theorem Group.raise_lock (f : ErrorFlag) (g : Group) : (g.raise f).lock = g.lock := by cases f <;> rfl

@[simp] theorem Group.fail_lock (c : Config) (n : Nat) (f : ErrorFlag) (g : Group) : (g.fail c n f).lock = g.lock := by
  obtain ⟨_, _, _, _, _, _, _, h, -⟩ := Group.fail_frame c n f g
  rw [h]

@[simp] theorem Group.interleave_lock (g : Group) : g.interleave.lock = g.lock := by rw [Group.interleave_eq]

@[simp] theorem Group.srWrite_lock (c : Config) (v : Word) (g : Group) : (g.srWrite c v).lock = g.lock := rfl

@[simp] theorem Group.complete_lock (c : Config) (g : Group) : (g.complete c).lock = g.lock := rfl

@[simp] theorem Group.start_lock (c : Config) (b : Bank) (n : Nat) (g : Group) : (g.start c b n).lock = g.lock := by
  rcases Group.start_cases c b n g with ⟨f, h⟩ | ⟨-, op, -, h⟩ <;> rw [h]
  · simp

@[simp] theorem Group.arrWrite_lock (c : Config) (b : Bank) (n : Nat) (z : Size) (a v : Word) (g : Group) :
    (g.arrWrite c b n z a v).lock = g.lock := by
  rcases Group.arrWrite_cases c b n z a v g with ⟨-, h⟩ | ⟨-, f, h⟩ | ⟨-, -, -, -, -, -, -, -, -, h⟩ |
    ⟨-, -, -, l, -, -, h⟩ <;> rw [h] <;> simp

/-- A CR write sets LOCK when bit 31 is 1 and leaves it otherwise (R36, R110, R111). -/
theorem Group.crWrite_lock (c : Config) (b : Bank) (n : Nat) (v : Word) (g : Group) :
    (g.crWrite c b n v).lock = (g.lock || v.getLsbD 31) := by
  unfold Group.crWrite Group.crWriteBusy Group.crWriteIdle Group.setLock
  cases hl : g.lock
  · cases hv : v.getLsbD 31
    · simp only [Bool.false_eq_true, if_false, Bool.or_self]
      split
      · split <;> simp [hl]
      · cases v.getLsbD 3 <;> simp [Group.setFields, hl]
    · simp only [Bool.false_eq_true, if_false, if_true, Bool.or_true]
      split <;> rfl
  · simp [hl]

/-! ### The invariant (R47) -/

theorem GroupInv.reset (c : Config) (b : Bank) : GroupInv c b Group.reset where
  latchGate := by intro l h; cases h
  latchAddr := by intro l h; cases h
  keyLocked := by intro h; cases h
  lockout := by intro h; cases h
  opLegal := by intro op h; cases h
  present := by intro op h; cases h
  eopAbsent := fun _ => rfl
  bkselAbsent := fun _ => rfl

variable {c : Config} {b : Bank} {g : Group}

theorem GroupInv.interleave (h : GroupInv c b g) : GroupInv c b g.interleave := by
  rw [Group.interleave_eq]
  exact ⟨h.latchGate, h.latchAddr, (fun e => by cases e), fun e => ⟨(h.lockout e).1, rfl, (h.lockout e).2.2⟩, h.opLegal, h.present,
    h.eopAbsent, h.bkselAbsent⟩

theorem GroupInv.raise (h : GroupInv c b g) (f : ErrorFlag) : GroupInv c b (g.raise f) := by
  cases f <;>
    exact ⟨h.latchGate, h.latchAddr, h.keyLocked, h.lockout, h.opLegal, h.present, h.eopAbsent, h.bkselAbsent⟩

theorem GroupInv.fail (h : GroupInv c b g) (n : Nat) (f : ErrorFlag) : GroupInv c b (g.fail c n f) := by
  obtain ⟨_, _, _, _, _, _, k, e, hk⟩ := Group.fail_frame c n f g
  rw [e]
  exact ⟨h.latchGate, h.latchAddr, h.keyLocked, h.lockout, h.opLegal, h.present, h.eopAbsent,
    fun hv => (hk hv).trans (h.bkselAbsent hv)⟩

theorem GroupInv.dropLatch (h : GroupInv c b g) : GroupInv c b { g with latch := none } :=
  ⟨(fun l e => by cases e), (fun l e => by cases e), h.keyLocked, h.lockout, h.opLegal, h.present, h.eopAbsent, h.bkselAbsent⟩

theorem GroupInv.srWrite (h : GroupInv c b g) (v : Word) : GroupInv c b (g.srWrite c v) :=
  ⟨h.latchGate, h.latchAddr, h.keyLocked, h.lockout, h.opLegal, h.present,
    (fun e => by simp [Group.srWrite, h.eopAbsent e]), h.bkselAbsent⟩

theorem GroupInv.complete (h : GroupInv c b g) : GroupInv c b (g.complete c) :=
  ⟨fun l e => ⟨(h.latchGate l e).1, (h.latchGate l e).2.1, (h.latchGate l e).2.2.1, (h.latchGate l e).2.2.2.1, rfl⟩,
    h.latchAddr, h.keyLocked, h.lockout, (fun op e => by cases e), (fun op e => by cases e),
    (fun e => by simp [Group.complete, h.eopAbsent e, e]), h.bkselAbsent⟩

theorem GroupInv.idle (h : GroupInv c b g) : GroupInv c b { g with inflight := none } :=
  ⟨fun l e => ⟨(h.latchGate l e).1, (h.latchGate l e).2.1, (h.latchGate l e).2.2.1, (h.latchGate l e).2.2.2.1, rfl⟩,
    h.latchAddr, h.keyLocked, h.lockout, (fun op e => by cases e), (fun op e => by cases e), h.eopAbsent, h.bkselAbsent⟩

theorem GroupInv.keyWrite (h : GroupInv c b g) (v : Word) : GroupInv c b (g.keyWrite c v) := by
  have hlatch : g.lock = true → ∀ l, g.latch ≠ some l := fun hl l e => by
    have := (h.latchGate l e).2.2.2.1
    simp [hl] at this
  unfold Group.keyWrite Group.wrongKey
  split
  · exact h
  · next hl =>
    have hl' : g.lock = true := by simpa using hl
    split
    · split
      · exact h
      · next ho =>
        split
        · exact ⟨h.latchGate, h.latchAddr, fun _ => hl', fun e => absurd e ho, h.opLegal, h.present, h.eopAbsent, h.bkselAbsent⟩
        · refine ⟨h.latchGate, h.latchAddr, (fun e => by cases e), (fun e => ?_), h.opLegal, h.present, h.eopAbsent,
            h.bkselAbsent⟩
          cases hp : c.keyErrorPolicy with
          | retry => simp [hp] at e; exact absurd e ho
          | lockoutUntilReset => exact ⟨rfl, rfl, hl'⟩
    · next hk =>
      have ho : g.keyLockout = false := by
        cases e : g.keyLockout
        · rfl
        · have := (h.lockout e).2.1
          simp [hk] at this
      split
      · exact ⟨(fun l e => absurd e (hlatch hl' l)), h.latchAddr, (fun e => by cases e),
          (fun e => by simp [ho] at e), h.opLegal, h.present, h.eopAbsent, h.bkselAbsent⟩
      · refine ⟨h.latchGate, h.latchAddr, (fun e => by cases e), (fun e => ?_), h.opLegal, h.present, h.eopAbsent,
          h.bkselAbsent⟩
        cases hp : c.keyErrorPolicy with
        | retry => simp [hp, ho] at e
        | lockoutUntilReset => exact ⟨rfl, rfl, hl'⟩

theorem GroupInv.setLock (h : GroupInv c b g) (hn : g.latch = none) : GroupInv c b g.setLock :=
  ⟨(fun l e => by simp [Group.setLock, hn] at e), (fun l e => by simp [Group.setLock, hn] at e), fun _ => rfl,
    fun e => ⟨(h.lockout e).1, rfl, rfl⟩, h.opLegal, h.present, h.eopAbsent, h.bkselAbsent⟩

theorem GroupInv.setFields (h : GroupInv c b g) (hb : g.busy = false) (hl : g.lock = false) (v : Word) :
    GroupInv c b (g.setFields c v) := by
  have hi : g.inflight = none := by simpa [Group.busy] using hb
  refine ⟨fun l e => ?_, fun l e => ?_, h.keyLocked, h.lockout, h.opLegal, h.present, h.eopAbsent, fun hv => ?_⟩
  · simp only [Group.setFields] at e ⊢
    split at e
    · cases e
    · next hd =>
      simp only [dropsLatch, Bool.or_eq_true, Bool.not_eq_true', not_or, Bool.not_eq_true, Bool.not_eq_false] at hd
      exact ⟨hd.1.1.1, hd.1.1.2, hd.1.2, hl, hi⟩
  · simp only [Group.setFields] at e
    split at e
    · cases e
    · exact h.latchAddr l e
  · simp [Group.setFields, hv, h.bkselAbsent hv]

theorem GroupInv.start (h : GroupInv c b g) (hb : c.hasBank b = true) (n : Nat) : GroupInv c b (g.start c b n) := by
  rcases Group.start_cases c b n g with ⟨f, e⟩ | ⟨hp, op, hop, e⟩ <;> rw [e]
  · exact h.fail n f
  · refine ⟨fun l e => ?_, h.latchAddr, h.keyLocked, h.lockout, fun o e => ?_, fun _ _ => hb, h.eopAbsent, h.bkselAbsent⟩
    · have := (h.latchGate l e).1
      simp [hp] at this
    · cases e
      exact hop

/-- The latch after a start is the latch before it (R113 discards none). -/
theorem Group.start_latch (c : Config) (b : Bank) (n : Nat) (g : Group) : (g.start c b n).latch = g.latch := by
  rcases Group.start_cases c b n g with ⟨f, e⟩ | ⟨-, op, -, e⟩ <;> rw [e]
  obtain ⟨_, _, _, _, _, _, _, e, -⟩ := Group.fail_frame c n f g
  rw [e]

theorem GroupInv.crWrite (h : GroupInv c b g) (hbank : c.hasBank b = true) (n : Nat) (v : Word) : GroupInv c b (g.crWrite c b n v) := by
  unfold Group.crWrite
  split
  · exact h
  · next hl =>
    have hl' : g.lock = false := by simpa using hl
    split
    · next hb =>
      have hn : g.latch = none := by
        cases e : g.latch with
        | none => rfl
        | some l =>
          have := (h.latchGate l e).2.2.2.2
          simp [Group.busy, this] at hb
      unfold Group.crWriteBusy
      have hr : ∀ t : Group, (t = g.raise .bsyerr ∨ t = g) → GroupInv c b t ∧ t.latch = none := by
        rintro t (rfl | rfl)
        · exact ⟨h.raise _, hn⟩
        · exact ⟨h, hn⟩
      have ht := hr (if v &&& crRwMask c ≠ crWord c g &&& crRwMask c ∨ v.getLsbD 3 = true then g.raise .bsyerr else g)
        (by split <;> simp)
      cases hv : v.getLsbD 31
      · simpa [hv] using ht.1
      · simpa [hv] using ht.1.setLock ht.2
    · next hb =>
      have hb' : g.busy = false := by simpa using hb
      have hf := h.setFields hb' hl' v
      unfold Group.crWriteIdle
      have hs : GroupInv c b (if v.getLsbD 3 = true then (g.setFields c v).start c b n else g.setFields c v) := by
        split
        · exact hf.start hbank n
        · exact hf
      cases hv : v.getLsbD 31
      · simpa [hv] using hs
      · suffices hd' : (if v.getLsbD 3 = true then (g.setFields c v).start c b n else g.setFields c v).latch = none by
          simpa [hv] using hs.setLock hd'
        have hd : (g.setFields c v).latch = none := by simp [Group.setFields, dropsLatch, hv]
        split
        · rw [Group.start_latch, hd]
        · exact hd

theorem GroupInv.arrWrite (h : GroupInv c b g) (n : Nat) (z : Size) (a v : Word)
    (ha : c.inFlash b a.toNat = true) : GroupInv c b (g.arrWrite c b n z a v) := by
  have hbank : c.hasBank b = true := by
    simp only [Config.inFlash, Bool.and_eq_true] at ha
    exact ha.1.1
  rcases Group.arrWrite_cases c b n z a v g with ⟨-, e⟩ | ⟨-, f, e⟩ | ⟨hb, -, hl, hp, hu, hm, -, h8, hw, e⟩ |
    ⟨hb, hl, -, l, hl', -, e⟩ <;> rw [e]
  · exact h.raise _
  · exact h.dropLatch.fail n f
  · have hi : g.inflight = none := by simpa [Group.busy] using hb
    refine ⟨fun l e => ?_, fun l e => ?_, h.keyLocked, h.lockout, h.opLegal, h.present, h.eopAbsent, h.bkselAbsent⟩
    · exact ⟨hp, hu, hm, hl, hi⟩
    · cases e
      exact ⟨h8, ha, hw⟩
  · refine ⟨(fun l e => by cases e), (fun l e => by cases e), h.keyLocked, h.lockout, fun o e => ?_, fun _ _ => hbank,
      h.eopAbsent, h.bkselAbsent⟩
    cases e
    exact h.latchAddr l hl'

end Sys2Proof.Machine
end

