-- ==== Sys2Proof/Laws/State.lean ====
section
/-! SUPPORT. Laws/State.lean: what each named update of State leaves and sets, one lemma per field and update. -/
namespace Sys2Proof.Machine

@[simp] theorem onGrp_cfg (s : State) (b : Bank) (f : Group → Group) :
    (s.onGrp b f).cfg = s.cfg := by cases b <;> rfl
@[simp] theorem onGrp_mem (s : State) (b : Bank) (f : Group → Group) :
    (s.onGrp b f).mem = s.mem := by cases b <;> rfl
@[simp] theorem onGrp_marks (s : State) (b : Bank) (f : Group → Group) :
    (s.onGrp b f).marks = s.marks := by cases b <;> rfl
@[simp] theorem onGrp_bus (s : State) (b : Bank) (f : Group → Group) :
    (s.onGrp b f).bus = s.bus := by cases b <;> rfl
@[simp] theorem onGrp_masters (s : State) (b : Bank) (f : Group → Group) :
    (s.onGrp b f).masters = s.masters := by cases b <;> rfl
@[simp] theorem onGrp_refusalMark (s : State) (b : Bank) (f : Group → Group) :
    (s.onGrp b f).refusalMark = s.refusalMark := by cases b <;> rfl
@[simp] theorem onGrp_turn (s : State) (b : Bank) (f : Group → Group) :
    (s.onGrp b f).turn = s.turn := by cases b <;> rfl
@[simp] theorem onGrp_sched (s : State) (b : Bank) (f : Group → Group) :
    (s.onGrp b f).sched = s.sched := by cases b <;> rfl
@[simp] theorem onGrp_draws (s : State) (b : Bank) (f : Group → Group) :
    (s.onGrp b f).draws = s.draws := by cases b <;> rfl
@[simp] theorem onGrp_q1 (s : State) (b : Bank) (f : Group → Group) :
    (s.onGrp b f).q1 = s.q1 := by cases b <;> rfl
@[simp] theorem onGrp_q2 (s : State) (b : Bank) (f : Group → Group) :
    (s.onGrp b f).q2 = s.q2 := by cases b <;> rfl
@[simp] theorem onGrp_p1 (s : State) (b : Bank) (f : Group → Group) :
    (s.onGrp b f).p1 = s.p1 := by cases b <;> rfl
@[simp] theorem onGrp_p2 (s : State) (b : Bank) (f : Group → Group) :
    (s.onGrp b f).p2 = s.p2 := by cases b <;> rfl
@[simp] theorem onGrp_grp_same (s : State) (b : Bank) (f : Group → Group) :
    (s.onGrp b f).grp b = f (s.grp b) := by cases b <;> rfl
theorem onGrp_grp_other (s : State) (b d : Bank) (f : Group → Group) (h : d ≠ b) :
    (s.onGrp b f).grp d = s.grp d := by cases b <;> cases d <;> first | rfl | exact absurd rfl h
@[simp] theorem onGrp_seq (s : State) (b : Bank) (f : Group → Group) (n : SeqId) :
    (s.onGrp b f).seq n = s.seq n := by cases b <;> cases n <;> rfl
@[simp] theorem onGrp_port (s : State) (b : Bank) (f : Group → Group) (n : SeqId) :
    (s.onGrp b f).port n = s.port n := by cases b <;> cases n <;> rfl
@[simp] theorem onGrp_cur (s : State) (b : Bank) (f : Group → Group) : (s.onGrp b f).cur = s.cur := by
  simp [State.cur]
@[simp] theorem onSeq_cfg (s : State) (n : SeqId) (f : Sequencer → Sequencer) :
    (s.onSeq n f).cfg = s.cfg := by cases n <;> rfl
@[simp] theorem onSeq_mem (s : State) (n : SeqId) (f : Sequencer → Sequencer) :
    (s.onSeq n f).mem = s.mem := by cases n <;> rfl
@[simp] theorem onSeq_marks (s : State) (n : SeqId) (f : Sequencer → Sequencer) :
    (s.onSeq n f).marks = s.marks := by cases n <;> rfl
@[simp] theorem onSeq_bus (s : State) (n : SeqId) (f : Sequencer → Sequencer) :
    (s.onSeq n f).bus = s.bus := by cases n <;> rfl
@[simp] theorem onSeq_masters (s : State) (n : SeqId) (f : Sequencer → Sequencer) :
    (s.onSeq n f).masters = s.masters := by cases n <;> rfl
@[simp] theorem onSeq_refusalMark (s : State) (n : SeqId) (f : Sequencer → Sequencer) :
    (s.onSeq n f).refusalMark = s.refusalMark := by cases n <;> rfl
@[simp] theorem onSeq_turn (s : State) (n : SeqId) (f : Sequencer → Sequencer) :
    (s.onSeq n f).turn = s.turn := by cases n <;> rfl
@[simp] theorem onSeq_sched (s : State) (n : SeqId) (f : Sequencer → Sequencer) :
    (s.onSeq n f).sched = s.sched := by cases n <;> rfl
@[simp] theorem onSeq_draws (s : State) (n : SeqId) (f : Sequencer → Sequencer) :
    (s.onSeq n f).draws = s.draws := by cases n <;> rfl
@[simp] theorem onSeq_g1 (s : State) (n : SeqId) (f : Sequencer → Sequencer) :
    (s.onSeq n f).g1 = s.g1 := by cases n <;> rfl
@[simp] theorem onSeq_g2 (s : State) (n : SeqId) (f : Sequencer → Sequencer) :
    (s.onSeq n f).g2 = s.g2 := by cases n <;> rfl
@[simp] theorem onSeq_p1 (s : State) (n : SeqId) (f : Sequencer → Sequencer) :
    (s.onSeq n f).p1 = s.p1 := by cases n <;> rfl
@[simp] theorem onSeq_p2 (s : State) (n : SeqId) (f : Sequencer → Sequencer) :
    (s.onSeq n f).p2 = s.p2 := by cases n <;> rfl
@[simp] theorem onSeq_seq_same (s : State) (n : SeqId) (f : Sequencer → Sequencer) :
    (s.onSeq n f).seq n = f (s.seq n) := by cases n <;> rfl
theorem onSeq_seq_other (s : State) (n m : SeqId) (f : Sequencer → Sequencer) (h : m ≠ n) :
    (s.onSeq n f).seq m = s.seq m := by cases n <;> cases m <;> first | rfl | exact absurd rfl h
@[simp] theorem onSeq_grp (s : State) (n : SeqId) (f : Sequencer → Sequencer) (b : Bank) :
    (s.onSeq n f).grp b = s.grp b := by cases b <;> cases n <;> rfl
@[simp] theorem onSeq_port (s : State) (n m : SeqId) (f : Sequencer → Sequencer) :
    (s.onSeq n f).port m = s.port m := by cases n <;> cases m <;> rfl
@[simp] theorem onCur_cfg (s : State) (f : Sequencer → Sequencer) :
    (s.onCur f).cfg = s.cfg := by simp [State.onCur]
@[simp] theorem onCur_mem (s : State) (f : Sequencer → Sequencer) :
    (s.onCur f).mem = s.mem := by simp [State.onCur]
@[simp] theorem onCur_marks (s : State) (f : Sequencer → Sequencer) :
    (s.onCur f).marks = s.marks := by simp [State.onCur]
@[simp] theorem onCur_bus (s : State) (f : Sequencer → Sequencer) :
    (s.onCur f).bus = s.bus := by simp [State.onCur]
@[simp] theorem onCur_masters (s : State) (f : Sequencer → Sequencer) :
    (s.onCur f).masters = s.masters := by simp [State.onCur]
@[simp] theorem onCur_refusalMark (s : State) (f : Sequencer → Sequencer) :
    (s.onCur f).refusalMark = s.refusalMark := by simp [State.onCur]
@[simp] theorem onCur_turn (s : State) (f : Sequencer → Sequencer) :
    (s.onCur f).turn = s.turn := by simp [State.onCur]
@[simp] theorem onCur_sched (s : State) (f : Sequencer → Sequencer) :
    (s.onCur f).sched = s.sched := by simp [State.onCur]
@[simp] theorem onCur_draws (s : State) (f : Sequencer → Sequencer) :
    (s.onCur f).draws = s.draws := by simp [State.onCur]
@[simp] theorem onCur_g1 (s : State) (f : Sequencer → Sequencer) :
    (s.onCur f).g1 = s.g1 := by simp [State.onCur]
@[simp] theorem onCur_g2 (s : State) (f : Sequencer → Sequencer) :
    (s.onCur f).g2 = s.g2 := by simp [State.onCur]
@[simp] theorem onCur_p1 (s : State) (f : Sequencer → Sequencer) :
    (s.onCur f).p1 = s.p1 := by simp [State.onCur]
@[simp] theorem onCur_p2 (s : State) (f : Sequencer → Sequencer) :
    (s.onCur f).p2 = s.p2 := by simp [State.onCur]
@[simp] theorem onCur_cur (s : State) (f : Sequencer → Sequencer) : (s.onCur f).cur = f s.cur := by
  simp [State.onCur, State.cur]
@[simp] theorem onCur_grp (s : State) (f : Sequencer → Sequencer) (b : Bank) :
    (s.onCur f).grp b = s.grp b := by simp [State.onCur]
@[simp] theorem onCur_port (s : State) (f : Sequencer → Sequencer) (n : SeqId) :
    (s.onCur f).port n = s.port n := by simp [State.onCur]
theorem onCur_seq_other (s : State) (f : Sequencer → Sequencer) (m : SeqId) (h : m ≠ s.turn) :
    (s.onCur f).seq m = s.seq m := onSeq_seq_other s s.turn m f h
@[simp] theorem onPort_cfg (s : State) (n : SeqId) (f : Port → Port) :
    (s.onPort n f).cfg = s.cfg := by cases n <;> rfl
@[simp] theorem onPort_mem (s : State) (n : SeqId) (f : Port → Port) :
    (s.onPort n f).mem = s.mem := by cases n <;> rfl
@[simp] theorem onPort_marks (s : State) (n : SeqId) (f : Port → Port) :
    (s.onPort n f).marks = s.marks := by cases n <;> rfl
@[simp] theorem onPort_bus (s : State) (n : SeqId) (f : Port → Port) :
    (s.onPort n f).bus = s.bus := by cases n <;> rfl
@[simp] theorem onPort_masters (s : State) (n : SeqId) (f : Port → Port) :
    (s.onPort n f).masters = s.masters := by cases n <;> rfl
@[simp] theorem onPort_refusalMark (s : State) (n : SeqId) (f : Port → Port) :
    (s.onPort n f).refusalMark = s.refusalMark := by cases n <;> rfl
@[simp] theorem onPort_turn (s : State) (n : SeqId) (f : Port → Port) :
    (s.onPort n f).turn = s.turn := by cases n <;> rfl
@[simp] theorem onPort_sched (s : State) (n : SeqId) (f : Port → Port) :
    (s.onPort n f).sched = s.sched := by cases n <;> rfl
@[simp] theorem onPort_draws (s : State) (n : SeqId) (f : Port → Port) :
    (s.onPort n f).draws = s.draws := by cases n <;> rfl
@[simp] theorem onPort_g1 (s : State) (n : SeqId) (f : Port → Port) :
    (s.onPort n f).g1 = s.g1 := by cases n <;> rfl
@[simp] theorem onPort_g2 (s : State) (n : SeqId) (f : Port → Port) :
    (s.onPort n f).g2 = s.g2 := by cases n <;> rfl
@[simp] theorem onPort_q1 (s : State) (n : SeqId) (f : Port → Port) :
    (s.onPort n f).q1 = s.q1 := by cases n <;> rfl
@[simp] theorem onPort_q2 (s : State) (n : SeqId) (f : Port → Port) :
    (s.onPort n f).q2 = s.q2 := by cases n <;> rfl
@[simp] theorem onPort_port_same (s : State) (n : SeqId) (f : Port → Port) :
    (s.onPort n f).port n = f (s.port n) := by cases n <;> rfl
@[simp] theorem onPort_grp (s : State) (n : SeqId) (f : Port → Port) (b : Bank) :
    (s.onPort n f).grp b = s.grp b := by cases b <;> cases n <;> rfl
@[simp] theorem onPort_seq (s : State) (n m : SeqId) (f : Port → Port) :
    (s.onPort n f).seq m = s.seq m := by cases n <;> cases m <;> rfl
@[simp] theorem drawn_cfg (s : State) :
    (s.drawn).cfg = s.cfg := rfl
@[simp] theorem drawn_g1 (s : State) :
    (s.drawn).g1 = s.g1 := rfl
@[simp] theorem drawn_g2 (s : State) :
    (s.drawn).g2 = s.g2 := rfl
@[simp] theorem drawn_mem (s : State) :
    (s.drawn).mem = s.mem := rfl
@[simp] theorem drawn_marks (s : State) :
    (s.drawn).marks = s.marks := rfl
@[simp] theorem drawn_q1 (s : State) :
    (s.drawn).q1 = s.q1 := rfl
@[simp] theorem drawn_q2 (s : State) :
    (s.drawn).q2 = s.q2 := rfl
@[simp] theorem drawn_p1 (s : State) :
    (s.drawn).p1 = s.p1 := rfl
@[simp] theorem drawn_p2 (s : State) :
    (s.drawn).p2 = s.p2 := rfl
@[simp] theorem drawn_bus (s : State) :
    (s.drawn).bus = s.bus := rfl
@[simp] theorem drawn_masters (s : State) :
    (s.drawn).masters = s.masters := rfl
@[simp] theorem drawn_refusalMark (s : State) :
    (s.drawn).refusalMark = s.refusalMark := rfl
@[simp] theorem drawn_turn (s : State) :
    (s.drawn).turn = s.turn := rfl
@[simp] theorem drawn_sched (s : State) :
    (s.drawn).sched = s.sched := rfl
@[simp] theorem drawn_draws (s : State) :
    (s.drawn).draws = s.draws + 1 := rfl
@[simp] theorem drawn_grp (s : State) (b : Bank) : (s.drawn).grp b = s.grp b := by cases b <;> rfl
@[simp] theorem drawn_seq (s : State) (n : SeqId) : (s.drawn).seq n = s.seq n := by cases n <;> rfl
@[simp] theorem drawn_port (s : State) (n : SeqId) : (s.drawn).port n = s.port n := by cases n <;> rfl
@[simp] theorem drawn_cur (s : State) : (s.drawn).cur = s.cur := by simp [State.cur]
@[simp] theorem refuse_cfg (s : State) :
    (s.refuse).cfg = s.cfg := rfl
@[simp] theorem refuse_g1 (s : State) :
    (s.refuse).g1 = s.g1 := rfl
@[simp] theorem refuse_g2 (s : State) :
    (s.refuse).g2 = s.g2 := rfl
@[simp] theorem refuse_mem (s : State) :
    (s.refuse).mem = s.mem := rfl
@[simp] theorem refuse_marks (s : State) :
    (s.refuse).marks = s.marks := rfl
@[simp] theorem refuse_q1 (s : State) :
    (s.refuse).q1 = s.q1 := rfl
@[simp] theorem refuse_q2 (s : State) :
    (s.refuse).q2 = s.q2 := rfl
@[simp] theorem refuse_p1 (s : State) :
    (s.refuse).p1 = s.p1 := rfl
@[simp] theorem refuse_p2 (s : State) :
    (s.refuse).p2 = s.p2 := rfl
@[simp] theorem refuse_bus (s : State) :
    (s.refuse).bus = s.bus := rfl
@[simp] theorem refuse_masters (s : State) :
    (s.refuse).masters = s.masters := rfl
@[simp] theorem refuse_refusalMark (s : State) :
    (s.refuse).refusalMark = true := rfl
@[simp] theorem refuse_turn (s : State) :
    (s.refuse).turn = s.turn := rfl
@[simp] theorem refuse_sched (s : State) :
    (s.refuse).sched = s.sched := rfl
@[simp] theorem refuse_draws (s : State) :
    (s.refuse).draws = s.draws := rfl
@[simp] theorem refuse_grp (s : State) (b : Bank) : (s.refuse).grp b = s.grp b := by cases b <;> rfl
@[simp] theorem refuse_seq (s : State) (n : SeqId) : (s.refuse).seq n = s.seq n := by cases n <;> rfl
@[simp] theorem refuse_port (s : State) (n : SeqId) : (s.refuse).port n = s.port n := by cases n <;> rfl
@[simp] theorem refuse_cur (s : State) : (s.refuse).cur = s.cur := by simp [State.cur]
@[simp] theorem answer_cfg (s : State) (v : Word) :
    (s.answer v).cfg = s.cfg := rfl
@[simp] theorem answer_g1 (s : State) (v : Word) :
    (s.answer v).g1 = s.g1 := rfl
@[simp] theorem answer_g2 (s : State) (v : Word) :
    (s.answer v).g2 = s.g2 := rfl
@[simp] theorem answer_mem (s : State) (v : Word) :
    (s.answer v).mem = s.mem := rfl
@[simp] theorem answer_marks (s : State) (v : Word) :
    (s.answer v).marks = s.marks := rfl
@[simp] theorem answer_q1 (s : State) (v : Word) :
    (s.answer v).q1 = s.q1 := rfl
@[simp] theorem answer_q2 (s : State) (v : Word) :
    (s.answer v).q2 = s.q2 := rfl
@[simp] theorem answer_p1 (s : State) (v : Word) :
    (s.answer v).p1 = s.p1 := rfl
@[simp] theorem answer_p2 (s : State) (v : Word) :
    (s.answer v).p2 = s.p2 := rfl
@[simp] theorem answer_bus (s : State) (v : Word) :
    (s.answer v).bus = { s.bus with rdata := v, stall := false } := rfl
@[simp] theorem answer_masters (s : State) (v : Word) :
    (s.answer v).masters = s.masters := rfl
@[simp] theorem answer_refusalMark (s : State) (v : Word) :
    (s.answer v).refusalMark = s.refusalMark := rfl
@[simp] theorem answer_turn (s : State) (v : Word) :
    (s.answer v).turn = s.turn := rfl
@[simp] theorem answer_sched (s : State) (v : Word) :
    (s.answer v).sched = s.sched := rfl
@[simp] theorem answer_draws (s : State) (v : Word) :
    (s.answer v).draws = s.draws := rfl
@[simp] theorem answer_grp (s : State) (v : Word) (b : Bank) : (s.answer v).grp b = s.grp b := by cases b <;> rfl
@[simp] theorem answer_seq (s : State) (v : Word) (n : SeqId) : (s.answer v).seq n = s.seq n := by cases n <;> rfl
@[simp] theorem answer_port (s : State) (v : Word) (n : SeqId) : (s.answer v).port n = s.port n := by cases n <;> rfl
@[simp] theorem answer_cur (s : State) (v : Word) : (s.answer v).cur = s.cur := by simp [State.cur]
@[simp] theorem hold_cfg (s : State) :
    (s.hold).cfg = s.cfg := rfl
@[simp] theorem hold_g1 (s : State) :
    (s.hold).g1 = s.g1 := rfl
@[simp] theorem hold_g2 (s : State) :
    (s.hold).g2 = s.g2 := rfl
@[simp] theorem hold_mem (s : State) :
    (s.hold).mem = s.mem := rfl
@[simp] theorem hold_marks (s : State) :
    (s.hold).marks = s.marks := rfl
@[simp] theorem hold_q1 (s : State) :
    (s.hold).q1 = s.q1 := rfl
@[simp] theorem hold_q2 (s : State) :
    (s.hold).q2 = s.q2 := rfl
@[simp] theorem hold_p1 (s : State) :
    (s.hold).p1 = s.p1 := rfl
@[simp] theorem hold_p2 (s : State) :
    (s.hold).p2 = s.p2 := rfl
@[simp] theorem hold_bus (s : State) :
    (s.hold).bus = { s.bus with stall := true } := rfl
@[simp] theorem hold_masters (s : State) :
    (s.hold).masters = s.masters := rfl
@[simp] theorem hold_refusalMark (s : State) :
    (s.hold).refusalMark = s.refusalMark := rfl
@[simp] theorem hold_turn (s : State) :
    (s.hold).turn = s.turn := rfl
@[simp] theorem hold_sched (s : State) :
    (s.hold).sched = s.sched := rfl
@[simp] theorem hold_draws (s : State) :
    (s.hold).draws = s.draws := rfl
@[simp] theorem hold_grp (s : State) (b : Bank) : (s.hold).grp b = s.grp b := by cases b <;> rfl
@[simp] theorem hold_seq (s : State) (n : SeqId) : (s.hold).seq n = s.seq n := by cases n <;> rfl
@[simp] theorem hold_port (s : State) (n : SeqId) : (s.hold).port n = s.port n := by cases n <;> rfl
@[simp] theorem hold_cur (s : State) : (s.hold).cur = s.cur := by simp [State.cur]

/-- The two groups are all the groups. -/
theorem grp_forall (s : State) (P : Bank → Group → Prop) : (∀ b, P b (s.grp b)) ↔ P .b1 s.g1 ∧ P .b2 s.g2 :=
  ⟨fun h => ⟨h .b1, h .b2⟩, fun h b => by cases b <;> simp [State.grp, h.1, h.2]⟩

/-- The two instances are all the instances. -/
theorem seq_forall (s : State) (P : SeqId → Sequencer → Prop) : (∀ n, P n (s.seq n)) ↔ P .s1 s.q1 ∧ P .s2 s.q2 :=
  ⟨fun h => ⟨h .s1, h .s2⟩, fun h n => by cases n <;> simp [State.seq, h.1, h.2]⟩

@[simp] theorem goto_cmd (q : Sequencer) (st : SeqState) :
    (q.goto st).cmd = q.cmd := rfl
@[simp] theorem goto_arg0 (q : Sequencer) (st : SeqState) :
    (q.goto st).arg0 = q.arg0 := rfl
@[simp] theorem goto_arg1 (q : Sequencer) (st : SeqState) :
    (q.goto st).arg1 = q.arg1 := rfl
@[simp] theorem goto_dbuf (q : Sequencer) (st : SeqState) :
    (q.goto st).dbuf = q.dbuf := rfl
@[simp] theorem goto_dbufEra (q : Sequencer) (st : SeqState) :
    (q.goto st).dbufEra = q.dbufEra := rfl
@[simp] theorem goto_rbuf (q : Sequencer) (st : SeqState) :
    (q.goto st).rbuf = q.rbuf := rfl
@[simp] theorem goto_rbufEra (q : Sequencer) (st : SeqState) :
    (q.goto st).rbufEra = q.rbufEra := rfl
@[simp] theorem goto_raddr (q : Sequencer) (st : SeqState) :
    (q.goto st).raddr = q.raddr := rfl
@[simp] theorem goto_opr (q : Sequencer) (st : SeqState) :
    (q.goto st).opr = q.opr := rfl
@[simp] theorem goto_bk (q : Sequencer) (st : SeqState) :
    (q.goto st).bk = q.bk := rfl
@[simp] theorem goto_idx (q : Sequencer) (st : SeqState) :
    (q.goto st).idx = q.idx := rfl
@[simp] theorem goto_addr (q : Sequencer) (st : SeqState) :
    (q.goto st).addr = q.addr := rfl
@[simp] theorem goto_k (q : Sequencer) (st : SeqState) :
    (q.goto st).k = q.k := rfl
@[simp] theorem goto_srv (q : Sequencer) (st : SeqState) :
    (q.goto st).srv = q.srv := rfl
@[simp] theorem goto_crv (q : Sequencer) (st : SeqState) :
    (q.goto st).crv = q.crv := rfl
@[simp] theorem goto_fcm (q : Sequencer) (st : SeqState) :
    (q.goto st).fcm = q.fcm := rfl
@[simp] theorem goto_res (q : Sequencer) (st : SeqState) :
    (q.goto st).res = q.res := rfl
@[simp] theorem goto_state (q : Sequencer) (st : SeqState) :
    (q.goto st).state = st := rfl
@[simp] theorem goto_polls (q : Sequencer) (st : SeqState) :
    (q.goto st).polls = if waits st then 0 else q.polls := rfl
@[simp] theorem result_cmd (q : Sequencer) (r : Result) :
    (q.result r).cmd = q.cmd := rfl
@[simp] theorem result_arg0 (q : Sequencer) (r : Result) :
    (q.result r).arg0 = q.arg0 := rfl
@[simp] theorem result_arg1 (q : Sequencer) (r : Result) :
    (q.result r).arg1 = q.arg1 := rfl
@[simp] theorem result_dbuf (q : Sequencer) (r : Result) :
    (q.result r).dbuf = q.dbuf := rfl
@[simp] theorem result_dbufEra (q : Sequencer) (r : Result) :
    (q.result r).dbufEra = q.dbufEra := rfl
@[simp] theorem result_rbuf (q : Sequencer) (r : Result) :
    (q.result r).rbuf = q.rbuf := rfl
@[simp] theorem result_rbufEra (q : Sequencer) (r : Result) :
    (q.result r).rbufEra = q.rbufEra := rfl
@[simp] theorem result_raddr (q : Sequencer) (r : Result) :
    (q.result r).raddr = q.raddr := rfl
@[simp] theorem result_opr (q : Sequencer) (r : Result) :
    (q.result r).opr = q.opr := rfl
@[simp] theorem result_bk (q : Sequencer) (r : Result) :
    (q.result r).bk = q.bk := rfl
@[simp] theorem result_idx (q : Sequencer) (r : Result) :
    (q.result r).idx = q.idx := rfl
@[simp] theorem result_addr (q : Sequencer) (r : Result) :
    (q.result r).addr = q.addr := rfl
@[simp] theorem result_k (q : Sequencer) (r : Result) :
    (q.result r).k = q.k := rfl
@[simp] theorem result_srv (q : Sequencer) (r : Result) :
    (q.result r).srv = q.srv := rfl
@[simp] theorem result_crv (q : Sequencer) (r : Result) :
    (q.result r).crv = q.crv := rfl
@[simp] theorem result_fcm (q : Sequencer) (r : Result) :
    (q.result r).fcm = q.fcm := rfl
@[simp] theorem result_state (q : Sequencer) (r : Result) :
    (q.result r).state = q.state := rfl
@[simp] theorem result_polls (q : Sequencer) (r : Result) :
    (q.result r).polls = q.polls := rfl
@[simp] theorem result_res (q : Sequencer) (r : Result) :
    (q.result r).res = r := rfl
@[simp] theorem finish_cmd (q : Sequencer) (r : Result) :
    (q.finish r).cmd = q.cmd := rfl
@[simp] theorem errorExit_cmd (q : Sequencer) (r : Result) (st : SeqState) :
    (q.errorExit r st).cmd = q.cmd := rfl
@[simp] theorem finish_arg0 (q : Sequencer) (r : Result) :
    (q.finish r).arg0 = q.arg0 := rfl
@[simp] theorem errorExit_arg0 (q : Sequencer) (r : Result) (st : SeqState) :
    (q.errorExit r st).arg0 = q.arg0 := rfl
@[simp] theorem finish_arg1 (q : Sequencer) (r : Result) :
    (q.finish r).arg1 = q.arg1 := rfl
@[simp] theorem errorExit_arg1 (q : Sequencer) (r : Result) (st : SeqState) :
    (q.errorExit r st).arg1 = q.arg1 := rfl
@[simp] theorem finish_dbuf (q : Sequencer) (r : Result) :
    (q.finish r).dbuf = q.dbuf := rfl
@[simp] theorem errorExit_dbuf (q : Sequencer) (r : Result) (st : SeqState) :
    (q.errorExit r st).dbuf = q.dbuf := rfl
@[simp] theorem finish_dbufEra (q : Sequencer) (r : Result) :
    (q.finish r).dbufEra = q.dbufEra := rfl
@[simp] theorem errorExit_dbufEra (q : Sequencer) (r : Result) (st : SeqState) :
    (q.errorExit r st).dbufEra = q.dbufEra := rfl
@[simp] theorem finish_rbuf (q : Sequencer) (r : Result) :
    (q.finish r).rbuf = q.rbuf := rfl
@[simp] theorem errorExit_rbuf (q : Sequencer) (r : Result) (st : SeqState) :
    (q.errorExit r st).rbuf = q.rbuf := rfl
@[simp] theorem finish_rbufEra (q : Sequencer) (r : Result) :
    (q.finish r).rbufEra = q.rbufEra := rfl
@[simp] theorem errorExit_rbufEra (q : Sequencer) (r : Result) (st : SeqState) :
    (q.errorExit r st).rbufEra = q.rbufEra := rfl
@[simp] theorem finish_raddr (q : Sequencer) (r : Result) :
    (q.finish r).raddr = q.raddr := rfl
@[simp] theorem errorExit_raddr (q : Sequencer) (r : Result) (st : SeqState) :
    (q.errorExit r st).raddr = q.raddr := rfl
@[simp] theorem finish_opr (q : Sequencer) (r : Result) :
    (q.finish r).opr = q.opr := rfl
@[simp] theorem errorExit_opr (q : Sequencer) (r : Result) (st : SeqState) :
    (q.errorExit r st).opr = q.opr := rfl
@[simp] theorem finish_bk (q : Sequencer) (r : Result) :
    (q.finish r).bk = q.bk := rfl
@[simp] theorem errorExit_bk (q : Sequencer) (r : Result) (st : SeqState) :
    (q.errorExit r st).bk = q.bk := rfl
@[simp] theorem finish_idx (q : Sequencer) (r : Result) :
    (q.finish r).idx = q.idx := rfl
@[simp] theorem errorExit_idx (q : Sequencer) (r : Result) (st : SeqState) :
    (q.errorExit r st).idx = q.idx := rfl
@[simp] theorem finish_addr (q : Sequencer) (r : Result) :
    (q.finish r).addr = q.addr := rfl
@[simp] theorem errorExit_addr (q : Sequencer) (r : Result) (st : SeqState) :
    (q.errorExit r st).addr = q.addr := rfl
@[simp] theorem finish_k (q : Sequencer) (r : Result) :
    (q.finish r).k = q.k := rfl
@[simp] theorem errorExit_k (q : Sequencer) (r : Result) (st : SeqState) :
    (q.errorExit r st).k = q.k := rfl
@[simp] theorem finish_srv (q : Sequencer) (r : Result) :
    (q.finish r).srv = q.srv := rfl
@[simp] theorem errorExit_srv (q : Sequencer) (r : Result) (st : SeqState) :
    (q.errorExit r st).srv = q.srv := rfl
@[simp] theorem finish_crv (q : Sequencer) (r : Result) :
    (q.finish r).crv = q.crv := rfl
@[simp] theorem errorExit_crv (q : Sequencer) (r : Result) (st : SeqState) :
    (q.errorExit r st).crv = q.crv := rfl
@[simp] theorem finish_fcm (q : Sequencer) (r : Result) :
    (q.finish r).fcm = q.fcm := rfl
@[simp] theorem errorExit_fcm (q : Sequencer) (r : Result) (st : SeqState) :
    (q.errorExit r st).fcm = q.fcm := rfl
@[simp] theorem finish_state (q : Sequencer) (r : Result) :
    (q.finish r).state = .done := rfl
@[simp] theorem finish_res (q : Sequencer) (r : Result) :
    (q.finish r).res = r := rfl
@[simp] theorem finish_polls (q : Sequencer) (r : Result) :
    (q.finish r).polls = q.polls := rfl
@[simp] theorem errorExit_state (q : Sequencer) (r : Result) (st : SeqState) :
    (q.errorExit r st).state = st := rfl
@[simp] theorem errorExit_res (q : Sequencer) (r : Result) (st : SeqState) :
    (q.errorExit r st).res = r := rfl
@[simp] theorem errorExit_polls (q : Sequencer) (r : Result) (st : SeqState) :
    (q.errorExit r st).polls = if waits st then 0 else q.polls := rfl

end Sys2Proof.Machine
end

