-- ==== Sys2Proof/Laws/Command.lean ====
section
/-! SUPPORT. Laws/Command.lean: everything one step of a command can do to the block (R246): at most one bus transaction
on its own bank, then a change of its own sequencer. -/
namespace Sys2Proof.Machine

/-- The ways a step of a command on bank b can leave the state: no bus access, a refused transaction, one register
transaction of bank b, or one array transaction at ADDR or ADDR + 4; with a change of the sequencer's registers. -/
inductive CommandEffect (b : Bank) (s : State) : State → Prop where
  | same : CommandEffect b s s
  | refused : CommandEffect b s s.refuse
  | quiet (f : Sequencer → Sequencer) : CommandEffect b s (s.onCur f)
  | touched (f : Sequencer → Sequencer) : CommandEffect b s ((s.touch b).onCur f)
  | keyr (v : Word) (f : Sequencer → Sequencer) : CommandEffect b s ((s.writeKeyr b v).onCur f)
  | sr (v : Word) (f : Sequencer → Sequencer) : CommandEffect b s ((s.writeSr b v).onCur f)
  | cr (v : Word) (f : Sequencer → Sequencer) : CommandEffect b s ((s.writeCr b v).onCur f)
  | arrWrite (a v : Word) (u : State) (f : Sequencer → Sequencer) (ha : a = s.cur.addr ∨ a = s.cur.addr + 4)
      (h : s.arrayWrite .w32 a v = some u) : CommandEffect b s (u.onCur f)
  | arrRead (v : Word) (u : State) (f : Sequencer → Sequencer) (h : s.arrayRead .b8 s.cur.addr = .data v u) :
      CommandEffect b s (u.onCur f)

theorem clocked_cases (s t : State) : s.clocked t = t ∨ s.clocked t = s.refuse := by
  unfold State.clocked
  split
  · exact .inl rfl
  · exact .inr rfl

theorem clocked_on {s : State} (h : s.cfg.clockEnabled = true) (t : State) : s.clocked t = t := by
  simp [State.clocked, h]

variable {b : Bank} {s : State}

theorem CommandEffect.clocked {t : State} (h : CommandEffect b s t) : CommandEffect b s (s.clocked t) := by
  rcases clocked_cases s t with e | e <;> rw [e]
  · exact h
  · exact .refused

theorem effect_readCr (k : Sequencer → Sequencer) : CommandEffect b s (seqReadCr b k s) := (CommandEffect.touched _).clocked

theorem effect_readSr (k : Sequencer → Sequencer) : CommandEffect b s (seqReadSr b k s) := (CommandEffect.touched _).clocked

theorem effect_writeKeyr (v : Word) (k : Sequencer → Sequencer) : CommandEffect b s (seqWriteKeyr b v k s) :=
  (CommandEffect.keyr v k).clocked

theorem effect_writeSr (v : Word) (k : Sequencer → Sequencer) : CommandEffect b s (seqWriteSr b v k s) :=
  (CommandEffect.sr v k).clocked

theorem effect_writeCr (v : Word) (k : Sequencer → Sequencer) : CommandEffect b s (seqWriteCr b v k s) :=
  (CommandEffect.cr v k).clocked

theorem effect_writeArr (a v : Word) (k : Sequencer → Sequencer) (ha : a = s.cur.addr ∨ a = s.cur.addr + 4) :
    CommandEffect b s (seqWriteArr a v k s) := by
  unfold seqWriteArr
  split
  · exact .refused
  · next u h => exact .arrWrite a v u k ha h

theorem effect_fcClear (k : Sequencer → Sequencer) : CommandEffect b s (stepFcClear b k s) := by
  unfold stepFcClear
  split
  · exact .quiet k
  · exact effect_writeSr _ _

theorem effect_rdByte : CommandEffect b s (stepRdByte s) := by
  unfold stepRdByte
  split
  · exact .refused
  · exact .same
  · next v u h => exact .arrRead v u _ h

/-- Every step of every command is one of these effects on the bank the command names. -/
theorem exec_effect {i : Instr} {t : State} (hb : i.bank = some b) (h : exec i s = .next t) : CommandEffect b s t := by
  cases i <;> simp only [Instr.bank, Option.some.injEq, reduceCtorEq] at hb <;> subst hb <;>
    simp only [exec, execUnlock, execLock, execClearErrors, execEraseUnit, execEraseBank, execWriteUnit, execReadUnit,
      execUnitToAddress] at h <;>
    split at h <;> first
      | (injection h with h; subst h; first
          | exact .quiet _
          | exact effect_readCr _
          | exact effect_readSr _
          | exact effect_writeKeyr _ _
          | exact effect_writeSr _ _
          | exact effect_writeCr _ _
          | exact effect_fcClear _
          | exact effect_rdByte
          | exact effect_writeArr _ _ _ (.inl rfl)
          | exact effect_writeArr _ _ _ (.inr rfl))
      | cases h

/-- What the operation code of each command is (R87), read back from the command it names. -/
theorem commandOf_some {op : BitVec 4} {b : Bank} {idx : BitVec 8} {i : Instr} (h : commandOf op b idx = some i) :
    i.bank = some b ∧ op ≠ 0 ∧
    (match i with
      | .unlock _ => op = opUnlock
      | .lock _ => op = opLock
      | .clearErrors _ => op = opClearErrors
      | .eraseUnit _ j => op = opEraseUnit ∧ j = idx
      | .eraseBank _ => op = opEraseBank
      | .writeUnit _ j => op = opWriteUnit ∧ j = idx
      | .readUnit _ j => op = opReadUnit ∧ j = idx
      | .unitToAddress _ j => op = opUnitToAddress ∧ j = idx
      | _ => False) := by
  unfold commandOf at h
  repeat' split at h
  all_goals first
    | (injection h with h; subst h; rename_i e; subst e; refine ⟨rfl, by decide, ?_⟩; simp)
    | cases h

/-- A legal command word decodes to a command of its bank (R86). -/
theorem decodeCommand_ok {w : Word} {i : Instr} (h : decodeCommand w = .ok i) :
    ∃ b idx, commandOf (w.extractLsb' 0 4) b idx = some i ∧ b = bankOfBit (w.getLsbD 4) := by
  unfold decodeCommand at h
  split at h
  · cases h
  · split at h
    · cases h
    · split at h
      · next j e => injection h with h; subst h; exact ⟨_, _, e, rfl⟩
      · cases h


variable {b : Bank} {s : State} {P : Sequencer → Prop}

theorem clocked_cur {t : State} (h0 : P s.cur) (h : P t.cur) : P (s.clocked t).cur := by
  rcases clocked_cases s t with e | e <;> rw [e]
  · exact h
  · simpa using h0

theorem readCr_cur (k : Sequencer → Sequencer) (h0 : P s.cur) (h : ∀ v, P (k { s.cur with crv := v })) :
    P (seqReadCr b k s).cur :=
  clocked_cur h0 (by simpa [State.touch] using h _)

theorem readSr_cur (k : Sequencer → Sequencer) (h0 : P s.cur) (h : ∀ v, P (k { s.cur with srv := v })) :
    P (seqReadSr b k s).cur :=
  clocked_cur h0 (by simpa [State.touch] using h _)

theorem writeKeyr_cur (v : Word) (k : Sequencer → Sequencer) (h0 : P s.cur) (h : P (k s.cur)) :
    P (seqWriteKeyr b v k s).cur :=
  clocked_cur h0 (by simpa [State.writeKeyr] using h)

theorem writeSr_cur (v : Word) (k : Sequencer → Sequencer) (h0 : P s.cur) (h : P (k s.cur)) :
    P (seqWriteSr b v k s).cur :=
  clocked_cur h0 (by simpa [State.writeSr] using h)

theorem writeCr_cur (v : Word) (k : Sequencer → Sequencer) (h0 : P s.cur) (h : P (k s.cur)) :
    P (seqWriteCr b v k s).cur :=
  clocked_cur h0 (by simpa [State.writeCr] using h)

theorem fcClear_cur (k : Sequencer → Sequencer) (h : P (k s.cur)) (h' : ∀ v, P { s.cur with fcm := v }) :
    P (stepFcClear b k s).cur := by
  unfold stepFcClear
  split
  · simpa using h
  · exact writeSr_cur _ _ (h' s.cur.fcm) (h' _)

/-- An array write leaves the sequencers alone. -/
theorem arrayWrite_cases {z : Size} {a v : Word} {u : State} (h : s.arrayWrite z a v = some u) :
    (∃ d, s.cfg.flashBank a.toNat = some d ∧ u = (s.onGrp d (Group.arrWrite s.cfg d s.draws z a v)).drawn) ∨
    (s.cfg.flashBank a.toNat = none ∧ s.cfg.groupBank a.toNat = none ∧ u = s) := by
  unfold State.arrayWrite at h
  split at h
  · cases h
  · split at h
    · next d e => injection h with h; exact .inl ⟨d, e, h.symm⟩
    · next e =>
      split at h
      · cases h
      · next e' => injection h with h; exact .inr ⟨e, e', h.symm⟩

/-- What an array read that answers leaves: ECCERR at most. -/
theorem arrayRead_cases {z : Size} {a v : Word} {u : State} (h : s.arrayRead z a = .data v u) :
    (∃ d, s.cfg.flashBank a.toNat = some d ∧ (s.grp d).busy = false ∧
      u = (s.onGrp d (Group.raise .eccerr)).drawn ∧ touchesEcc s.cfg z a.toNat = true) ∨
    (∃ d, s.cfg.flashBank a.toNat = some d ∧ (s.grp d).busy = false ∧
      v = s.mem.load z a.toNat ∧ u = s ∧ touchesEcc s.cfg z a.toNat = false) ∨
    (s.cfg.flashBank a.toNat = none ∧ s.cfg.groupBank a.toNat = none ∧ u = s.drawn) := by
  unfold State.arrayRead at h
  split at h
  · cases h
  · split at h
    · next d e =>
      split at h
      · cases h
      · split at h
        · cases h
        · next hb =>
          split at h
          · next ht =>
            injection h with h1 h2
            exact .inl ⟨d, e, by simpa using hb, h2.symm, ht⟩
          · next ht =>
            injection h with h1 h2
            exact .inr (.inl ⟨d, e, by simpa using hb, h1.symm, h2.symm, by simpa using ht⟩)
    · next e =>
      split at h
      · cases h
      · next e' => injection h with h1 h2; exact .inr (.inr ⟨e, e', h2.symm⟩)

theorem writeArr_cur (a v : Word) (k : Sequencer → Sequencer) (h0 : P s.cur) (h : P (k s.cur)) :
    P (seqWriteArr a v k s).cur := by
  unfold seqWriteArr
  split
  · simpa using h0
  · next u e => rcases arrayWrite_cases e with ⟨d, -, rfl⟩ | ⟨-, -, rfl⟩ <;> simpa using h

theorem rdByte_cur (h0 : P s.cur) (h : ∀ v, P (readByteDone v s.cur)) : P (stepRdByte s).cur := by
  unfold stepRdByte
  split
  · simpa using h0
  · exact h0
  · next v u e => rcases arrayRead_cases e with ⟨d, -, -, rfl, -⟩ | ⟨d, -, -, -, rfl, -⟩ | ⟨-, -, rfl⟩ <;> simpa using h _

/-! ### Where each shared step leaves the sequencer's registers, as one rule per step: what must hold of the registers at
each way out for it to hold after the step -/

theorem ulReadCr_cur (k : Sequencer → Sequencer) (h0 : P s.cur) (h1 : ∀ v, P ({ s.cur with crv := v }.goto .ulKey1))
    (h2 : ∀ v, P (k { s.cur with crv := v })) : P (stepUlReadCr b k s).cur :=
  readCr_cur _ h0 fun v => by dsimp only; split; exacts [h1 v, h2 v]

theorem ulCheck_cur (k : Sequencer → Sequencer) (h0 : P s.cur)
    (h1 : ∀ v, P ({ s.cur with crv := v }.errorExit .failure .done)) (h2 : ∀ v, P (k { s.cur with crv := v })) :
    P (stepUlCheck b k s).cur :=
  readCr_cur _ h0 fun v => by dsimp only; split; exacts [h1 v, h2 v]

theorem busyCheck_cur (h0 : P s.cur) (h1 : ∀ v, P ({ s.cur with srv := v }.errorExit .busy .lkReadCr))
    (h2 : ∀ v, P ({ s.cur with srv := v }.goto .fcReadSr)) : P (stepBusyCheck b s).cur :=
  readSr_cur _ h0 fun v => by dsimp only; split; exacts [h1 v, h2 v]

theorem waitBsy_cur (h0 : P s.cur) (h1 : ∀ v p, P ({ s.cur with srv := v, polls := p }.goto .postCheck))
    (h2 : ∀ v p, P ({ s.cur with srv := v, polls := p }.errorExit .timeout .lkReadCr))
    (h3 : ∀ v p, P { s.cur with srv := v, polls := p }) : P (stepWaitBsy b s).cur :=
  readSr_cur _ h0 fun v => by dsimp only; split; exacts [h1 v _, by split; exacts [h2 v _, h3 v _]]

theorem waitEop_cur (h0 : P s.cur) (h1 : ∀ v p, P ({ s.cur with srv := v, polls := p }.goto .ackEop))
    (h2 : ∀ v p, P ({ s.cur with srv := v, polls := p }.errorExit .timeout .clrReadCr))
    (h3 : ∀ v p, P { s.cur with srv := v, polls := p }) : P (stepWaitEop b s).cur :=
  readSr_cur _ h0 fun v => by dsimp only; split; exacts [h1 v _, by split; exacts [h2 v _, h3 v _]]

theorem lkWait_cur (h0 : P s.cur) (h1 : ∀ v p, P ({ s.cur with srv := v, polls := p }.goto .lkReadCr))
    (h2 : ∀ v p, P ({ s.cur with srv := v, polls := p }.errorExit .timeout .lkReadCr))
    (h3 : ∀ v p, P { s.cur with srv := v, polls := p }) : P (stepLkWait b s).cur :=
  readSr_cur _ h0 fun v => by dsimp only; split; exacts [h1 v _, by split; exacts [h2 v _, h3 v _]]

theorem postCheck_cur (k : Sequencer → Sequencer) (h1 : P (s.cur.errorExit .failure .clrReadCr))
    (h2 : P (s.cur.goto .waitEop)) (h3 : P (k s.cur)) : P (stepPostCheck k s).cur := by
  unfold stepPostCheck
  rw [onCur_cur]
  split
  · exact h1
  · split
    · exact h2
    · exact h3

end Sys2Proof.Machine
end

