-- ==== Sys2Proof/Laws/Memory.lean ====
section
/-! SUPPORT. Laws/Memory.lean: reading after each array operation, and that each keeps the canonical form (R43, R64). -/
namespace Sys2Proof.Machine

@[simp] theorem Memory.read_nil (a : Nat) : Memory.read [] a = Memory.unlisted := rfl

theorem Memory.read_cons (c : Host.Cell) (m : Memory) (a : Nat) :
    Memory.read (c :: m) a = if c.1 = a then c.2 else Memory.read m a := rfl

/-- A filter that keeps every cell of `a` does not change what `a` reads as. -/
theorem Memory.read_filter_keep (m : Memory) (p : Host.Cell → Bool) (a : Nat) (h : ∀ v, p (a, v) = true) :
    Memory.read (m.filter p) a = m.read a := by
  induction m with
  | nil => rfl
  | cons c r ih =>
    obtain ⟨k, v⟩ := c
    by_cases hp : p (k, v) = true
    · simp only [List.filter_cons, hp, if_true, Memory.read_cons, ih]
    · have hk : k ≠ a := fun e => hp (e ▸ h v)
      simp only [List.filter_cons, hp, Memory.read_cons, hk, if_false, ih, Bool.false_eq_true]

/-- A filter that drops every cell of `a` leaves it reading as unlisted. -/
theorem Memory.read_filter_drop (m : Memory) (p : Host.Cell → Bool) (a : Nat) (h : ∀ v, p (a, v) = false) :
    Memory.read (m.filter p) a = Memory.unlisted := by
  induction m with
  | nil => rfl
  | cons c r ih =>
    obtain ⟨k, v⟩ := c
    by_cases hp : p (k, v) = true
    · have hk : k ≠ a := fun e => by subst e; simp [h v] at hp
      simp only [List.filter_cons, hp, if_true, Memory.read_cons, hk, if_false, ih]
    · simp only [List.filter_cons, hp, Bool.false_eq_true, if_false, ih]

theorem Memory.read_insert_same (m : Memory) (a : Nat) (v : Byte) (h : ∀ c ∈ m, c.1 ≠ a) :
    (Memory.insert m a v).read a = v := by
  induction m with
  | nil => simp [Memory.insert, Memory.read]
  | cons c r ih =>
    obtain ⟨k, w⟩ := c
    have hk : k ≠ a := h (k, w) (by simp)
    unfold Memory.insert
    split
    · simp [Memory.read]
    · simp only [Memory.read_cons, hk, if_false]
      exact ih fun c hc => h c (by simp [hc])

theorem Memory.read_insert_other (m : Memory) (a x : Nat) (v : Byte) (h : x ≠ a) :
    (Memory.insert m a v).read x = m.read x := by
  induction m with
  | nil => simp [Memory.insert, Memory.read, Ne.symm h]
  | cons c r ih =>
    obtain ⟨k, w⟩ := c
    unfold Memory.insert
    split
    · simp [Memory.read_cons, Ne.symm h]
    · simp only [Memory.read_cons, ih]

/-- A read after a write to the same address gives the byte written. -/
@[simp] theorem Memory.read_write_same (m : Memory) (a : Nat) (v : Byte) : (Memory.write m a v).read a = v := by
  unfold Memory.write
  split
  · next h => rw [Memory.read_filter_drop _ _ _ (by simp), h]
  · exact Memory.read_insert_same _ _ _ (by intro c hc; simpa using (List.mem_filter.mp hc).2)

/-- A write leaves every other address alone. -/
theorem Memory.read_write_other (m : Memory) (a x : Nat) (v : Byte) (h : x ≠ a) :
    (Memory.write m a v).read x = m.read x := by
  unfold Memory.write
  split
  · exact Memory.read_filter_keep _ _ _ (by simp [h])
  · rw [Memory.read_insert_other _ _ _ _ h, Memory.read_filter_keep _ _ _ (by simp [h])]

/-- What each address reads as after a fill. -/
theorem Memory.read_fill (m : Memory) (lo n : Nat) (f : Nat → Byte) (a : Nat) :
    (Memory.fill m lo n f).read a = if lo ≤ a ∧ a < lo + n then f (a - lo) else m.read a := by
  induction n with
  | zero => simp [Memory.fill]
  | succ n ih =>
    unfold Memory.fill
    by_cases h : a = lo + n
    · subst h
      simp
    · rw [Memory.read_write_other _ _ _ _ h, ih]
      have : (lo ≤ a ∧ a < lo + n) ↔ (lo ≤ a ∧ a < lo + (n + 1)) := by omega
      simp only [this]

/-- What each address reads as after an erase: 0xFF in the range, else as before. -/
theorem Memory.read_erase (m : Memory) (lo n a : Nat) :
    (Memory.erase m lo n).read a = if lo ≤ a ∧ a < lo + n then 0xFF else m.read a := by
  unfold Memory.erase
  split
  · rw [Memory.read_filter_drop]
    · rfl
    · intro v; simp; omega
  · apply Memory.read_filter_keep
    intro v; simp; omega

theorem Memory.wf_nil : Memory.wf [] := by simp [Memory.wf]

theorem Memory.wf_filter {m : Memory} (h : Memory.wf m) (p : Host.Cell → Bool) : Memory.wf (m.filter p) :=
  ⟨h.1.filter p, fun c hc => h.2 c (List.mem_filter.mp hc).1⟩

theorem Memory.mem_insert (m : Memory) (a : Nat) (v : Byte) (c : Host.Cell) :
    c ∈ Memory.insert m a v ↔ c = (a, v) ∨ c ∈ m := by
  induction m with
  | nil => simp [Memory.insert]
  | cons d r ih =>
    obtain ⟨k, w⟩ := d
    unfold Memory.insert
    split
    · simp
    · simp only [List.mem_cons, ih]; tauto

theorem Memory.wf_insert {m : Memory} (h : Memory.wf m) (a : Nat) (v : Byte) (hv : v ≠ Memory.unlisted)
    (ha : ∀ c ∈ m, c.1 ≠ a) : Memory.wf (Memory.insert m a v) := by
  refine ⟨?_, fun c hc => ?_⟩
  · induction m with
    | nil => simp [Memory.insert]
    | cons d r ih =>
      obtain ⟨k, w⟩ := d
      have hp := List.pairwise_cons.mp h.1
      have hk : k ≠ a := ha (k, w) (by simp)
      unfold Memory.insert
      split
      · next hlt =>
        refine List.pairwise_cons.mpr ⟨fun c hc => ?_, h.1⟩
        rcases List.mem_cons.mp hc with rfl | hc
        · exact hlt
        · exact lt_trans hlt (hp.1 c hc)
      · next hlt =>
        refine List.pairwise_cons.mpr ⟨fun c hc => ?_, ih ⟨hp.2, fun c hc => h.2 c (by simp [hc])⟩
          fun c hc => ha c (by simp [hc])⟩
        rcases (Memory.mem_insert r a v c).mp hc with rfl | hc
        · show k < a
          omega
        · exact hp.1 c hc
  · rcases (Memory.mem_insert m a v c).mp hc with rfl | hc
    · exact hv
    · exact h.2 c hc

/-- A write keeps the canonical form. -/
theorem Memory.wf_write {m : Memory} (h : Memory.wf m) (a : Nat) (v : Byte) : Memory.wf (Memory.write m a v) := by
  unfold Memory.write
  split
  · exact Memory.wf_filter h _
  · next hv =>
    exact Memory.wf_insert (Memory.wf_filter h _) a v hv fun c hc => by simpa using (List.mem_filter.mp hc).2

/-- A fill keeps the canonical form. -/
theorem Memory.wf_fill {m : Memory} (h : Memory.wf m) (lo n : Nat) (f : Nat → Byte) : Memory.wf (Memory.fill m lo n f) := by
  induction n with
  | zero => exact h
  | succ n ih => exact Memory.wf_write ih _ _

/-- An erase keeps the canonical form. -/
theorem Memory.wf_erase {m : Memory} (h : Memory.wf m) (lo n : Nat) : Memory.wf (Memory.erase m lo n) :=
  Memory.wf_filter h _

theorem mem_addMark (l : List Nat) (a x : Nat) : x ∈ addMark l a ↔ x = a ∨ x ∈ l := by
  induction l with
  | nil => simp [addMark]
  | cons k r ih =>
    unfold addMark
    split
    · simp
    · split
      · next h => simp [h]
      · simp only [List.mem_cons, ih]; tauto

/-- Setting a mark keeps the marks strictly rising. -/
theorem marksWf_addMark {l : List Nat} (h : marksWf l) (a : Nat) : marksWf (addMark l a) := by
  induction l with
  | nil => simp [addMark, marksWf]
  | cons k r ih =>
    have hp := List.pairwise_cons.mp h
    unfold addMark
    split
    · next hlt =>
      refine List.pairwise_cons.mpr ⟨fun c hc => ?_, h⟩
      rcases List.mem_cons.mp hc with rfl | hc
      · exact hlt
      · exact lt_trans hlt (hp.1 c hc)
    · split
      · exact h
      · refine List.pairwise_cons.mpr ⟨fun c hc => ?_, ih hp.2⟩
        rcases (mem_addMark r a c).mp hc with rfl | hc
        · omega
        · exact hp.1 c hc

theorem marksWf_setMark {l : List Nat} (h : marksWf l) (a : Nat) (v : Bool) : marksWf (setMark l a v) := by
  unfold setMark
  split
  · exact marksWf_addMark h a
  · exact h.filter _

theorem marksWf_dropMarks {l : List Nat} (h : marksWf l) (lo n : Nat) : marksWf (dropMarks l lo n) := h.filter _

theorem mem_dropMarks (l : List Nat) (lo n a : Nat) : a ∈ dropMarks l lo n ↔ a ∈ l ∧ ¬(lo ≤ a ∧ a < lo + n) := by
  unfold dropMarks
  simp
  intro _
  omega

theorem marksWf_fillMarks {l : List Nat} (h : marksWf l) (lo n : Nat) (f : Nat → Bool) :
    marksWf (fillMarks l lo n f) := by
  induction n with
  | zero => exact h
  | succ n ih => exact marksWf_setMark ih _ _

/-- The double-word read back is the one stored (R64, R125). -/
theorem Memory.dword_fill (m : Memory) (a : Nat) (d : DWord) : (Memory.fill m a 8 (byteOf d)).dword a = d := by
  simp only [Memory.dword, Memory.read_fill]
  simp only [byteOf, show a ≤ a + 7 ∧ a + 7 < a + 8 from by omega, show a ≤ a + 6 ∧ a + 6 < a + 8 from by omega,
    show a ≤ a + 5 ∧ a + 5 < a + 8 from by omega, show a ≤ a + 4 ∧ a + 4 < a + 8 from by omega,
    show a ≤ a + 3 ∧ a + 3 < a + 8 from by omega, show a ≤ a + 2 ∧ a + 2 < a + 8 from by omega,
    show a ≤ a + 1 ∧ a + 1 < a + 8 from by omega, show a ≤ a ∧ a < a + 8 from by omega, if_true, Nat.add_sub_cancel_left,
    Nat.sub_self, and_self]
  apply BitVec.eq_of_getLsbD_eq
  intro i hi
  simp only [BitVec.getLsbD_append, BitVec.getLsbD_extractLsb']
  repeat' split
  all_goals
    simp (disch := omega) only [decide_eq_true, Bool.true_and]
    congr 1
    omega

/-- A fill leaves a double-word that does not meet its range alone. -/
theorem Memory.dword_fill_other (m : Memory) (lo n : Nat) (f : Nat → Byte) (a : Nat) (h : a + 8 ≤ lo ∨ lo + n ≤ a) :
    (Memory.fill m lo n f).dword a = m.dword a := by
  simp only [Memory.dword, Memory.read_fill]
  congr 1 <;> (try congr 1) <;> (try congr 1) <;> (try congr 1) <;> (try congr 1) <;> (try congr 1) <;> (try congr 1) <;>
    (rw [if_neg]; omega)

/-- Inside an erased range every double-word reads all ones (R123, R125). -/
theorem Memory.dword_erase (m : Memory) (lo n a : Nat) (h : lo ≤ a) (h' : a + 8 ≤ lo + n) :
    (Memory.erase m lo n).dword a = BitVec.allOnes 64 := by
  simp only [Memory.dword, Memory.read_erase]
  rw [if_pos (by omega), if_pos (by omega), if_pos (by omega), if_pos (by omega), if_pos (by omega), if_pos (by omega),
    if_pos (by omega), if_pos (by omega)]
  decide

end Sys2Proof.Machine
end

