-- ==== Sys2Proof/Laws/Sequencer.lean ====
section
/-! SUPPORT. Laws/Sequencer.lean: every step of a command keeps the invariants of its sequencer's registers (R44, R201,
R203, R223, R242), one lemma per command. -/
namespace Sys2Proof.Machine

/-- The two invariants of a sequencer together. -/
abbrev SeqOk (c : Config) (n : SeqId) (q : Sequencer) : Prop := SequencerInv c n q ∧ AddressInv c q

/-- Outside the loops the address invariant asks nothing. -/
theorem AddressInv.outside {c : Config} {q : Sequencer}
    (h : q.opr = opWriteUnit → q.state ≠ .cfgReadCr ∧ q.state ≠ .cfgWriteCr ∧ inPairLoop q.state = false)
    (h' : q.opr = opReadUnit → q.state ≠ .rdByte) : AddressInv c q where
  configure := fun ho hs => by rcases hs with e | e <;> simp [e] at h <;> exact absurd ho h
  pairs := fun ho hs => by have := (h ho).2.2; simp [hs] at this
  bytes := fun ho hs => absurd hs (h' ho)

theorem seqOk_move {c : Config} {n : SeqId} {q r : Sequencer} (h : SeqOk c n q) (ho : r.opr = q.opr) (hb : r.bk = q.bk)
    (hp : stateOfCommand q.opr r.state = true)
    (h1 : q.opr = opWriteUnit → r.state ≠ .cfgReadCr ∧ r.state ≠ .cfgWriteCr ∧ inPairLoop r.state = false)
    (h2 : q.opr = opReadUnit → r.state ≠ .rdByte) : SeqOk c n r :=
  ⟨⟨ho ▸ hp, fun e => hb ▸ h.1.bank (ho ▸ e)⟩, .outside (ho ▸ h1) (ho ▸ h2)⟩

variable {c : Config} {n : SeqId} {s : State} {q : Sequencer}

theorem decode_seqOk (op : BitVec 4) (b : Bank) (idx : BitVec 8) (first : SeqState) (f : Sequencer → Sequencer)
    (hf : ∀ q : Sequencer, (f q).opr = q.opr ∧ (f q).bk = q.bk ∧ (f q).state = first)
    (hp : stateOfCommand op first = true)
    (h1 : op = opWriteUnit → first ≠ .cfgReadCr ∧ first ≠ .cfgWriteCr ∧ inPairLoop first = false)
    (h2 : op = opReadUnit → first ≠ .rdByte)
    (h : SeqOk s.cfg s.turn s.cur) : SeqOk s.cfg s.turn (stepDecode op b idx f s).cur := by
  unfold stepDecode
  rw [onCur_cur]
  split
  · next hl =>
    obtain ⟨e1, e2, e3⟩ := hf { s.cur with opr := op, bk := b, idx := idx }
    simp only at e1 e2
    exact ⟨⟨by rw [e1, e3]; exact hp, fun _ => by rw [e2]; exact hl⟩,
      .outside (by rw [e1, e3]; exact h1) (by rw [e1, e3]; exact h2)⟩
  · exact seqOk_move h rfl rfl rfl (fun _ => by simp [inPairLoop]) (fun _ => by simp)


/-- A unit's bytes have 32-bit addresses (R9 (b)). -/
theorem unit_fits (hw : c.wf = true) {b : Bank} (hb : c.hasBank b = true) {u : Nat} (hu : u < c.unitCount) :
    c.unitToAddress u b + c.unitSize ≤ 2 ^ 32 := by
  have h1 := Config.wf_flash_fits hw hb
  have h2 : u * c.unitSize + c.unitSize ≤ c.unitCount * c.unitSize := by
    rw [← Nat.succ_mul]
    exact Nat.mul_le_mul_right _ hu
  simp only [Config.bankSize] at h1
  simp only [Config.unitToAddress]
  omega

theorem unitSize_le (c : Config) : c.unitSize ≤ 131072 := by
  unfold Config.unitSize
  split <;> decide

/-- The configure-and-loop facts survive a change of the registers they do not name. -/
theorem AddressInv.congr {r : Sequencer} (h : AddressInv c q) (ho : r.opr = q.opr) (hi : r.idx = q.idx) (hb : r.bk = q.bk)
    (h0 : r.arg0 = q.arg0) (h1 : r.arg1 = q.arg1) (hk : r.k = q.k) (ha : r.addr = q.addr)
    (hc : r.state = .cfgReadCr ∨ r.state = .cfgWriteCr → q.state = .cfgReadCr ∨ q.state = .cfgWriteCr)
    (hp : q.opr = opWriteUnit → inPairLoop r.state = true → inPairLoop q.state = true)
    (hr : q.opr = opReadUnit → r.state = .rdByte → q.state = .rdByte) : AddressInv c r where
  configure := fun e s => by rw [hi, hb, h1, hk, ha]; exact h.configure (ho ▸ e) (hc s)
  pairs := fun e s => by rw [hi, hb, h1, hk, ha]; exact h.pairs (ho ▸ e) (hp (ho ▸ e) s)
  bytes := fun e s => by rw [hi, hb, h0, h1, hk, ha]; exact h.bytes (ho ▸ e) (hr (ho ▸ e) s)

theorem writeValidate_address (hw : c.wf = true) {b : Bank} (hb : c.hasBank b = true) (hq : q.bk = b) :
    AddressInv c (writeValidate c b q) := by
  unfold writeValidate
  split
  · exact .outside (fun _ => by simp [inPairLoop]) (fun _ => by simp)
  · next h =>
    simp only [not_or, Nat.not_le, Nat.not_lt] at h
    have := unit_fits hw hb h.1
    refine ⟨fun _ _ => ⟨h.1, h.2, rfl, ?_⟩, fun _ e => by simp [inPairLoop] at e, fun _ e => by simp at e⟩
    have hs := Config.unitSize_pos c
    simp only [goto_addr, goto_idx, goto_bk, BitVec.toNat_ofNat, hq]
    exact Nat.mod_eq_of_lt (by omega)

theorem writeLoop_address
    (h : q.idx.toNat < c.unitCount ∧ 8 * q.arg1.toNat ≤ c.unitSize ∧
      (q.k.toNat < q.arg1.toNat → q.addr.toNat = c.unitToAddress q.idx.toNat q.bk + 8 * q.k.toNat)) :
    AddressInv c (writeLoop q) := by
  unfold writeLoop
  split
  · next hk =>
    exact ⟨fun _ e => by simp at e, fun _ _ => ⟨h.1, h.2.1, hk, h.2.2 hk⟩, fun _ e => by simp at e⟩
  · exact .outside (fun _ => by simp [inPairLoop]) (fun _ => by simp)

theorem writeAfterOp_address (hw : c.wf = true) (hb : c.hasBank q.bk = true) (ho : q.opr = opWriteUnit)
    (h : AddressInv c q) (hp : inPairLoop q.state = true) : AddressInv c (writeAfterOp q) := by
  obtain ⟨h1, h2, h3, h4⟩ := h.pairs ho hp
  have hu := unit_fits hw hb h1
  have hk : (q.k + 1).toNat = q.k.toNat + 1 := by
    rw [BitVec.toNat_add]
    have := q.arg1.isLt
    exact Nat.mod_eq_of_lt (by simp; omega)
  refine writeLoop_address ⟨h1, h2, fun e => ?_⟩
  simp only [hk] at e ⊢
  rw [BitVec.toNat_add, h4]
  have : (8 : Word).toNat = 8 := rfl
  rw [this, Nat.mod_eq_of_lt (by omega)]
  omega

theorem readValidate_address (hw : c.wf = true) {b : Bank} (hb : c.hasBank b = true) (hq : q.bk = b) :
    AddressInv c (readValidate c b q) := by
  unfold readValidate
  split
  · exact .outside (fun _ => by simp [inPairLoop]) (fun _ => by simp)
  · next h =>
    simp only [not_or, Nat.not_le, Nat.not_lt] at h
    have := unit_fits hw hb h.1
    dsimp only
    split
    · exact .outside (fun _ => by simp [inPairLoop]) (fun _ => by simp)
    · next hz =>
      have hz' : 0 < q.arg1.toNat := by
        rcases Nat.eq_zero_or_pos q.arg1.toNat with e | e
        · exact absurd (BitVec.eq_of_toNat_eq (by simpa using e)) hz
        · exact e
      refine ⟨fun _ e => by simp at e, fun _ e => by simp [inPairLoop] at e, fun _ _ => ⟨h.1, h.2, hz', ?_⟩⟩
      simp only [goto_addr, goto_idx, goto_bk, goto_k, goto_arg0, BitVec.toNat_ofNat, hq]
      rw [Nat.mod_eq_of_lt (by omega)]
      simp

theorem readByteDone_address (hw : c.wf = true) (hb : c.hasBank q.bk = true) (ho : q.opr = opReadUnit)
    (h : AddressInv c q) (hs : q.state = .rdByte) (v : Byte) : AddressInv c (readByteDone v q) := by
  obtain ⟨h1, h2, h3, h4⟩ := h.bytes ho hs
  have hu := unit_fits hw hb h1
  have hk : (q.k + 1).toNat = q.k.toNat + 1 := by
    rw [BitVec.toNat_add]
    have := q.arg1.isLt
    exact Nat.mod_eq_of_lt (by simp; omega)
  unfold readByteDone
  dsimp only
  split
  · next e =>
    refine ⟨fun _ e => by simp [hs] at e, fun _ e => by simp [hs, inPairLoop] at e, fun _ _ => ⟨h1, h2, e, ?_⟩⟩
    dsimp only
    rw [hk, BitVec.toNat_add, h4]
    have : (1 : Word).toNat = 1 := rfl
    rw [this, Nat.mod_eq_of_lt (by omega)]
    omega
  · exact .outside (fun _ => by simp [inPairLoop]) (fun _ => by simp)


theorem seqOk_plain {r : Sequencer} (h : SeqOk c n q) (hx : q.opr ≠ opWriteUnit ∧ q.opr ≠ opReadUnit) (ho : r.opr = q.opr)
    (hb : r.bk = q.bk) (hp : stateOfCommand q.opr r.state = true) : SeqOk c n r :=
  seqOk_move h ho hb hp (fun e => absurd e hx.1) (fun e => absurd e hx.2)

theorem commandOf_bank {i : Instr} (h : q.command = some i) : some q.bk = i.bank :=
  (commandOf_some h).1.symm

theorem command_of {i : Instr} (hi : (s.cur.state = .decode ∧ i.bank ≠ none) ∨ s.cur.command = some i)
    (e : s.cur.state ≠ .decode) : s.cur.command = some i := by
  rcases hi with hi | hi
  · exact absurd hi.1 e
  · exact hi

theorem unlock_seqOk {b : Bank} {t : State}
    (hi : (s.cur.state = .decode ∧ (Instr.unlock b).bank ≠ none) ∨ s.cur.command = some (.unlock b))
    (h : execUnlock b s = .next t) (hs : SeqOk s.cfg s.turn s.cur) : SeqOk s.cfg s.turn t.cur := by
  by_cases hd : s.cur.state = .decode
  · simp only [execUnlock, hd] at h
    injection h with h; subst h
    exact decode_seqOk _ _ _ .ulReadCr _ (fun _ => ⟨rfl, rfl, rfl⟩) (by decide) (by decide) (by decide) hs
  · have ho : s.cur.opr = opUnlock := (commandOf_some (command_of hi hd)).2.2
    have hx : s.cur.opr ≠ opWriteUnit ∧ s.cur.opr ≠ opReadUnit := by rw [ho]; decide
    have hp : ∀ r : Sequencer, r.opr = s.cur.opr → r.bk = s.cur.bk → stateOfCommand opUnlock r.state = true →
        SeqOk s.cfg s.turn r := fun r h1 h2 h3 => seqOk_plain hs hx h1 h2 (by rw [ho]; exact h3)
    have hq : ∀ r : Sequencer, r.opr = s.cur.opr → r.bk = s.cur.bk → r.state = s.cur.state →
        SeqOk s.cfg s.turn r := fun r h1 h2 h3 => seqOk_plain hs hx h1 h2 (by rw [h3]; exact hs.1.place)
    unfold execUnlock at h
    split at h
    · exact absurd ‹_› hd
    · injection h with h; subst h
      exact ulReadCr_cur _ hs (fun _ => hp _ rfl rfl rfl) (fun _ => hp _ rfl rfl rfl)
    · injection h with h; subst h
      exact writeKeyr_cur _ _ hs (hp _ rfl rfl rfl)
    · injection h with h; subst h
      exact writeKeyr_cur _ _ hs (hp _ rfl rfl rfl)
    · injection h with h; subst h
      exact ulCheck_cur _ hs (fun _ => hp _ rfl rfl rfl) (fun _ => hp _ rfl rfl rfl)
    · cases h

theorem lock_seqOk {b : Bank} {t : State}
    (hi : (s.cur.state = .decode ∧ (Instr.lock b).bank ≠ none) ∨ s.cur.command = some (.lock b))
    (h : execLock b s = .next t) (hs : SeqOk s.cfg s.turn s.cur) : SeqOk s.cfg s.turn t.cur := by
  by_cases hd : s.cur.state = .decode
  · simp only [execLock, hd] at h
    injection h with h; subst h
    exact decode_seqOk _ _ _ .lkWait _ (fun _ => ⟨rfl, rfl, rfl⟩) (by decide) (by decide) (by decide) hs
  · have ho : s.cur.opr = opLock := (commandOf_some (command_of hi hd)).2.2
    have hx : s.cur.opr ≠ opWriteUnit ∧ s.cur.opr ≠ opReadUnit := by rw [ho]; decide
    have hp : ∀ r : Sequencer, r.opr = s.cur.opr → r.bk = s.cur.bk → stateOfCommand opLock r.state = true →
        SeqOk s.cfg s.turn r := fun r h1 h2 h3 => seqOk_plain hs hx h1 h2 (by rw [ho]; exact h3)
    have hq : ∀ r : Sequencer, r.opr = s.cur.opr → r.bk = s.cur.bk → r.state = s.cur.state →
        SeqOk s.cfg s.turn r := fun r h1 h2 h3 => seqOk_plain hs hx h1 h2 (by rw [h3]; exact hs.1.place)
    unfold execLock at h
    split at h
    · exact absurd ‹_› hd
    · injection h with h; subst h
      exact lkWait_cur hs (fun _ _ => hp _ rfl rfl rfl) (fun _ _ => hp _ rfl rfl rfl) (fun _ _ => hq _ rfl rfl rfl)
    · injection h with h; subst h
      exact readCr_cur _ hs (fun _ => hp _ rfl rfl rfl)
    · injection h with h; subst h
      exact writeCr_cur _ _ hs (hp _ rfl rfl rfl)
    · cases h

theorem clearErrors_seqOk {b : Bank} {t : State}
    (hi : (s.cur.state = .decode ∧ (Instr.clearErrors b).bank ≠ none) ∨ s.cur.command = some (.clearErrors b))
    (h : execClearErrors b s = .next t) (hs : SeqOk s.cfg s.turn s.cur) : SeqOk s.cfg s.turn t.cur := by
  by_cases hd : s.cur.state = .decode
  · simp only [execClearErrors, hd] at h
    injection h with h; subst h
    exact decode_seqOk _ _ _ .fcReadSr _ (fun _ => ⟨rfl, rfl, rfl⟩) (by decide) (by decide) (by decide) hs
  · have ho : s.cur.opr = opClearErrors := (commandOf_some (command_of hi hd)).2.2
    have hx : s.cur.opr ≠ opWriteUnit ∧ s.cur.opr ≠ opReadUnit := by rw [ho]; decide
    have hp : ∀ r : Sequencer, r.opr = s.cur.opr → r.bk = s.cur.bk → stateOfCommand opClearErrors r.state = true →
        SeqOk s.cfg s.turn r := fun r h1 h2 h3 => seqOk_plain hs hx h1 h2 (by rw [ho]; exact h3)
    have hq : ∀ r : Sequencer, r.opr = s.cur.opr → r.bk = s.cur.bk → r.state = s.cur.state →
        SeqOk s.cfg s.turn r := fun r h1 h2 h3 => seqOk_plain hs hx h1 h2 (by rw [h3]; exact hs.1.place)
    unfold execClearErrors at h
    split at h
    · exact absurd ‹_› hd
    · injection h with h; subst h
      exact readSr_cur _ hs (fun _ => hp _ rfl rfl rfl)
    · injection h with h; subst h
      exact fcClear_cur _ (hp _ rfl rfl rfl) (fun _ => hq _ rfl rfl rfl)
    · cases h

theorem eraseBank_seqOk {b : Bank} {t : State}
    (hi : (s.cur.state = .decode ∧ (Instr.eraseBank b).bank ≠ none) ∨ s.cur.command = some (.eraseBank b))
    (h : execEraseBank b s = .next t) (hs : SeqOk s.cfg s.turn s.cur) : SeqOk s.cfg s.turn t.cur := by
  by_cases hd : s.cur.state = .decode
  · simp only [execEraseBank, hd] at h
    injection h with h; subst h
    exact decode_seqOk _ _ _ .ulReadCr _ (fun _ => ⟨rfl, rfl, rfl⟩) (by decide) (by decide) (by decide) hs
  · have ho : s.cur.opr = opEraseBank := (commandOf_some (command_of hi hd)).2.2
    have hx : s.cur.opr ≠ opWriteUnit ∧ s.cur.opr ≠ opReadUnit := by rw [ho]; decide
    have hp : ∀ r : Sequencer, r.opr = s.cur.opr → r.bk = s.cur.bk → stateOfCommand opEraseBank r.state = true →
        SeqOk s.cfg s.turn r := fun r h1 h2 h3 => seqOk_plain hs hx h1 h2 (by rw [ho]; exact h3)
    have hq : ∀ r : Sequencer, r.opr = s.cur.opr → r.bk = s.cur.bk → r.state = s.cur.state →
        SeqOk s.cfg s.turn r := fun r h1 h2 h3 => seqOk_plain hs hx h1 h2 (by rw [h3]; exact hs.1.place)
    unfold execEraseBank at h
    split at h
    · exact absurd ‹_› hd
    · injection h with h; subst h
      exact ulReadCr_cur _ hs (fun _ => hp _ rfl rfl rfl) (fun _ => hp _ rfl rfl rfl)
    · injection h with h; subst h
      exact writeKeyr_cur _ _ hs (hp _ rfl rfl rfl)
    · injection h with h; subst h
      exact writeKeyr_cur _ _ hs (hp _ rfl rfl rfl)
    · injection h with h; subst h
      exact ulCheck_cur _ hs (fun _ => hp _ rfl rfl rfl) (fun _ => hp _ rfl rfl rfl)
    · injection h with h; subst h
      exact busyCheck_cur hs (fun _ => hp _ rfl rfl rfl) (fun _ => hp _ rfl rfl rfl)
    · injection h with h; subst h
      exact readSr_cur _ hs (fun _ => hp _ rfl rfl rfl)
    · injection h with h; subst h
      exact fcClear_cur _ (hp _ rfl rfl rfl) (fun _ => hq _ rfl rfl rfl)
    · injection h with h; subst h
      exact readCr_cur _ hs (fun _ => hp _ rfl rfl rfl)
    · injection h with h; subst h
      exact writeCr_cur _ _ hs (hp _ rfl rfl rfl)
    · injection h with h; subst h
      exact writeCr_cur _ _ hs (hp _ rfl rfl rfl)
    · injection h with h; subst h
      exact waitBsy_cur hs (fun _ _ => hp _ rfl rfl rfl) (fun _ _ => hp _ rfl rfl rfl) (fun _ _ => hq _ rfl rfl rfl)
    · injection h with h; subst h
      exact postCheck_cur _ (hp _ rfl rfl rfl) (hp _ rfl rfl rfl) (hp _ rfl rfl rfl)
    · injection h with h; subst h
      exact waitEop_cur hs (fun _ _ => hp _ rfl rfl rfl) (fun _ _ => hp _ rfl rfl rfl) (fun _ _ => hq _ rfl rfl rfl)
    · injection h with h; subst h
      exact writeSr_cur _ _ hs (hp _ rfl rfl rfl)
    · injection h with h; subst h
      exact readCr_cur _ hs (fun _ => hp _ rfl rfl rfl)
    · injection h with h; subst h
      exact writeCr_cur _ _ hs (hp _ rfl rfl rfl)
    · injection h with h; subst h
      exact lkWait_cur hs (fun _ _ => hp _ rfl rfl rfl) (fun _ _ => hp _ rfl rfl rfl) (fun _ _ => hq _ rfl rfl rfl)
    · injection h with h; subst h
      exact readCr_cur _ hs (fun _ => hp _ rfl rfl rfl)
    · injection h with h; subst h
      exact writeCr_cur _ _ hs (hp _ rfl rfl rfl)
    · cases h

theorem eraseUnit_seqOk {b : Bank} {idx : BitVec 8} {t : State}
    (hi : (s.cur.state = .decode ∧ (Instr.eraseUnit b idx).bank ≠ none) ∨ s.cur.command = some (.eraseUnit b idx))
    (h : execEraseUnit b idx s = .next t) (hs : SeqOk s.cfg s.turn s.cur) : SeqOk s.cfg s.turn t.cur := by
  by_cases hd : s.cur.state = .decode
  · simp only [execEraseUnit, hd] at h
    injection h with h; subst h
    exact decode_seqOk _ _ _ .ulReadCr _ (fun _ => ⟨rfl, rfl, rfl⟩) (by decide) (by decide) (by decide) hs
  · have ho : s.cur.opr = opEraseUnit := (commandOf_some (command_of hi hd)).2.2.1
    have hx : s.cur.opr ≠ opWriteUnit ∧ s.cur.opr ≠ opReadUnit := by rw [ho]; decide
    have hp : ∀ r : Sequencer, r.opr = s.cur.opr → r.bk = s.cur.bk → stateOfCommand opEraseUnit r.state = true →
        SeqOk s.cfg s.turn r := fun r h1 h2 h3 => seqOk_plain hs hx h1 h2 (by rw [ho]; exact h3)
    have hq : ∀ r : Sequencer, r.opr = s.cur.opr → r.bk = s.cur.bk → r.state = s.cur.state →
        SeqOk s.cfg s.turn r := fun r h1 h2 h3 => seqOk_plain hs hx h1 h2 (by rw [h3]; exact hs.1.place)
    unfold execEraseUnit at h
    split at h
    · exact absurd ‹_› hd
    · injection h with h; subst h
      exact ulReadCr_cur _ hs (fun _ => hp _ rfl rfl rfl) (fun _ => hp _ rfl rfl rfl)
    · injection h with h; subst h
      exact writeKeyr_cur _ _ hs (hp _ rfl rfl rfl)
    · injection h with h; subst h
      exact writeKeyr_cur _ _ hs (hp _ rfl rfl rfl)
    · injection h with h; subst h
      exact ulCheck_cur _ hs (fun _ => hp _ rfl rfl rfl) (fun _ => hp _ rfl rfl rfl)
    · injection h with h; subst h
      exact busyCheck_cur hs (fun _ => hp _ rfl rfl rfl) (fun _ => hp _ rfl rfl rfl)
    · injection h with h; subst h
      exact readSr_cur _ hs (fun _ => hp _ rfl rfl rfl)
    · injection h with h; subst h
      exact fcClear_cur _ (hp _ rfl rfl rfl) (fun _ => hq _ rfl rfl rfl)
    · injection h with h; subst h
      rw [onCur_cur]; unfold eraseValidate; split <;> exact hp _ rfl rfl rfl
    · injection h with h; subst h
      exact readCr_cur _ hs (fun _ => hp _ rfl rfl rfl)
    · injection h with h; subst h
      exact writeCr_cur _ _ hs (hp _ rfl rfl rfl)
    · injection h with h; subst h
      exact writeCr_cur _ _ hs (hp _ rfl rfl rfl)
    · injection h with h; subst h
      exact waitBsy_cur hs (fun _ _ => hp _ rfl rfl rfl) (fun _ _ => hp _ rfl rfl rfl) (fun _ _ => hq _ rfl rfl rfl)
    · injection h with h; subst h
      exact postCheck_cur _ (hp _ rfl rfl rfl) (hp _ rfl rfl rfl) (hp _ rfl rfl rfl)
    · injection h with h; subst h
      exact waitEop_cur hs (fun _ _ => hp _ rfl rfl rfl) (fun _ _ => hp _ rfl rfl rfl) (fun _ _ => hq _ rfl rfl rfl)
    · injection h with h; subst h
      exact writeSr_cur _ _ hs (hp _ rfl rfl rfl)
    · injection h with h; subst h
      exact readCr_cur _ hs (fun _ => hp _ rfl rfl rfl)
    · injection h with h; subst h
      exact writeCr_cur _ _ hs (hp _ rfl rfl rfl)
    · injection h with h; subst h
      exact lkWait_cur hs (fun _ _ => hp _ rfl rfl rfl) (fun _ _ => hp _ rfl rfl rfl) (fun _ _ => hq _ rfl rfl rfl)
    · injection h with h; subst h
      exact readCr_cur _ hs (fun _ => hp _ rfl rfl rfl)
    · injection h with h; subst h
      exact writeCr_cur _ _ hs (hp _ rfl rfl rfl)
    · cases h

theorem unitToAddress_seqOk {b : Bank} {idx : BitVec 8} {t : State}
    (hi : (s.cur.state = .decode ∧ (Instr.unitToAddress b idx).bank ≠ none) ∨ s.cur.command = some (.unitToAddress b idx))
    (h : execUnitToAddress b idx s = .next t) (hs : SeqOk s.cfg s.turn s.cur) : SeqOk s.cfg s.turn t.cur := by
  by_cases hd : s.cur.state = .decode
  · simp only [execUnitToAddress, hd] at h
    injection h with h; subst h
    exact decode_seqOk _ _ _ .validate _ (fun _ => ⟨rfl, rfl, rfl⟩) (by decide) (by decide) (by decide) hs
  · have ho : s.cur.opr = opUnitToAddress := (commandOf_some (command_of hi hd)).2.2.1
    have hx : s.cur.opr ≠ opWriteUnit ∧ s.cur.opr ≠ opReadUnit := by rw [ho]; decide
    have hp : ∀ r : Sequencer, r.opr = s.cur.opr → r.bk = s.cur.bk → stateOfCommand opUnitToAddress r.state = true →
        SeqOk s.cfg s.turn r := fun r h1 h2 h3 => seqOk_plain hs hx h1 h2 (by rw [ho]; exact h3)
    have hq : ∀ r : Sequencer, r.opr = s.cur.opr → r.bk = s.cur.bk → r.state = s.cur.state →
        SeqOk s.cfg s.turn r := fun r h1 h2 h3 => seqOk_plain hs hx h1 h2 (by rw [h3]; exact hs.1.place)
    unfold execUnitToAddress at h
    split at h
    · exact absurd ‹_› hd
    · injection h with h; subst h
      rw [onCur_cur]; unfold translateValidate; split <;> exact hp _ rfl rfl rfl
    · cases h


theorem writeValidate_bk (b : Bank) : (writeValidate c b q).bk = q.bk := by
  unfold writeValidate; split <;> rfl

theorem writeValidate_place {b : Bank} (ho : q.opr = opWriteUnit) :
    stateOfCommand (writeValidate c b q).opr (writeValidate c b q).state = true := by
  unfold writeValidate; split <;> simp [ho] <;> decide

theorem writeLoop_seqOk {r : Sequencer} (h : SequencerInv c n q) (ho : q.opr = opWriteUnit) (hr : r.opr = q.opr)
    (hb : r.bk = q.bk) (ha : AddressInv c (writeLoop r)) : SeqOk c n (writeLoop r) := by
  refine ⟨⟨?_, fun _ => ?_⟩, ha⟩
  · unfold writeLoop; split <;> simp [hr, ho] <;> decide
  · have := h.bank (by rw [ho]; decide)
    unfold writeLoop; split <;> simpa [hb] using this

theorem readByteDone_seqOk (hw : c.wf = true) (hb : c.hasBank q.bk = true) (h : SeqOk c n q) (ho : q.opr = opReadUnit)
    (hs : q.state = .rdByte) (v : Byte) : SeqOk c n (readByteDone v q) := by
  refine ⟨⟨?_, fun _ => ?_⟩, readByteDone_address hw hb ho h.2 hs v⟩
  · unfold readByteDone; dsimp only; split <;> simp [ho, hs] <;> decide
  · have := h.1.bank (by rw [ho]; decide)
    unfold readByteDone; dsimp only; split <;> simpa using this

theorem bankLegal_has {b : Bank} (h : bankLegal c n b = true) : c.hasBank b = true := by
  simp only [bankLegal, Bool.and_eq_true] at h
  exact h.1

/-- The states in which the address invariant asks nothing of WRITE_UNIT. -/
def outOfLoops (st : SeqState) : Bool := !(st == .cfgReadCr || st == .cfgWriteCr || inPairLoop st)

theorem outOfLoops_spec {st : SeqState} (h : outOfLoops st = true) :
    st ≠ .cfgReadCr ∧ st ≠ .cfgWriteCr ∧ inPairLoop st = false := by
  cases st <;> first | (cases h; done) | exact ⟨by decide, by decide, rfl⟩

theorem writeUnit_seqOk {b : Bank} {idx : BitVec 8} {t : State} (hw : s.cfg.wf = true)
    (hi : (s.cur.state = .decode ∧ (Instr.writeUnit b idx).bank ≠ none) ∨ s.cur.command = some (.writeUnit b idx))
    (h : execWriteUnit b idx s = .next t) (hs : SeqOk s.cfg s.turn s.cur) : SeqOk s.cfg s.turn t.cur := by
  by_cases hd : s.cur.state = .decode
  · simp only [execWriteUnit, hd] at h
    injection h with h; subst h
    exact decode_seqOk _ _ _ .ulReadCr _ (fun _ => ⟨rfl, rfl, rfl⟩) (by decide) (by decide) (by decide) hs
  · have ho : s.cur.opr = opWriteUnit := (commandOf_some (command_of hi hd)).2.2.1
    have hb : s.cur.bk = b := by simpa [Instr.bank] using (commandOf_bank (command_of hi hd))
    have hbk : s.cfg.hasBank b = true := hb ▸ bankLegal_has (hs.1.bank (by rw [ho]; decide))
    have hp : ∀ r : Sequencer, r.opr = s.cur.opr → r.bk = s.cur.bk → stateOfCommand opWriteUnit r.state = true →
        outOfLoops r.state = true → SeqOk s.cfg s.turn r :=
      fun r h1 h2 h3 h4 => seqOk_move hs h1 h2 (by rw [ho]; exact h3) (fun _ => outOfLoops_spec h4) (fun e => by rw [ho] at e; cases e)
    have hm : ∀ r : Sequencer, r.opr = s.cur.opr → r.bk = s.cur.bk → stateOfCommand opWriteUnit r.state = true →
        r.idx = s.cur.idx → r.arg0 = s.cur.arg0 → r.arg1 = s.cur.arg1 → r.k = s.cur.k → r.addr = s.cur.addr →
        (r.state = .cfgReadCr ∨ r.state = .cfgWriteCr → s.cur.state = .cfgReadCr ∨ s.cur.state = .cfgWriteCr) →
        (inPairLoop r.state = true → inPairLoop s.cur.state = true) → SeqOk s.cfg s.turn r :=
      fun r h1 h2 h3 h4 h5 h6 h7 h8 h9 h10 => ⟨⟨by rw [h1, ho]; exact h3, fun e => by rw [h2]; exact hs.1.bank (h1 ▸ e)⟩,
        hs.2.congr h1 h4 h2 h5 h6 h7 h8 h9 (fun _ => h10) (fun e => by rw [ho] at e; cases e)⟩
    have hk : ∀ r : Sequencer, r.opr = s.cur.opr → r.bk = s.cur.bk → r.state = s.cur.state →
        r.idx = s.cur.idx → r.arg0 = s.cur.arg0 → r.arg1 = s.cur.arg1 → r.k = s.cur.k → r.addr = s.cur.addr →
        SeqOk s.cfg s.turn r :=
      fun r h1 h2 h3 h4 h5 h6 h7 h8 => hm r h1 h2 (by rw [h3, ← ho]; exact hs.1.place) h4 h5 h6 h7 h8
        (by rw [h3]; exact id) (by rw [h3]; exact id)
    have hl : ∀ r : Sequencer, r.opr = s.cur.opr → r.bk = s.cur.bk → AddressInv s.cfg (writeLoop r) →
        SeqOk s.cfg s.turn (writeLoop r) := fun r h1 h2 h3 => writeLoop_seqOk hs.1 ho h1 h2 h3
    unfold execWriteUnit at h
    split at h
    · exact absurd ‹_› hd
    · injection h with h; subst h
      exact ulReadCr_cur _ hs (fun _ => hp _ rfl rfl rfl rfl) (fun _ => hp _ rfl rfl rfl rfl)
    · injection h with h; subst h
      exact writeKeyr_cur _ _ hs (hp _ rfl rfl rfl rfl)
    · injection h with h; subst h
      exact writeKeyr_cur _ _ hs (hp _ rfl rfl rfl rfl)
    · injection h with h; subst h
      exact ulCheck_cur _ hs (fun _ => hp _ rfl rfl rfl rfl) (fun _ => hp _ rfl rfl rfl rfl)
    · injection h with h; subst h
      exact busyCheck_cur hs (fun _ => hp _ rfl rfl rfl rfl) (fun _ => hp _ rfl rfl rfl rfl)
    · injection h with h; subst h
      exact readSr_cur _ hs (fun _ => hp _ rfl rfl rfl rfl)
    · injection h with h; subst h
      exact fcClear_cur _ (hp _ rfl rfl rfl rfl) (fun _ => hk _ rfl rfl rfl rfl rfl rfl rfl rfl)
    · injection h with h; subst h
      rw [onCur_cur]
      exact ⟨⟨writeValidate_place ho, fun e => by rw [writeValidate_bk]; exact hs.1.bank (by rw [ho]; decide)⟩, writeValidate_address hw hbk hb⟩
    · injection h with h; subst h
      exact readCr_cur _ hs fun _ => hm _ rfl rfl rfl rfl rfl rfl rfl rfl (fun _ => .inl ‹_›) (by simp [inPairLoop])
    · injection h with h; subst h
      have ha := hs.2.configure ho (.inr ‹_›)
      refine writeCr_cur _ _ hs (hl _ rfl rfl ?_)
      exact writeLoop_address ⟨ha.1, ha.2.1, fun _ => by rw [ha.2.2.1]; simpa using ha.2.2.2⟩
    · injection h with h; subst h
      exact writeArr_cur _ _ _ hs (hm _ rfl rfl rfl rfl rfl rfl rfl rfl (by simp) (fun _ => by simp [inPairLoop, *]))
    · injection h with h; subst h
      exact writeArr_cur _ _ _ hs (hm _ rfl rfl rfl rfl rfl rfl rfl rfl (by simp) (fun _ => by simp [inPairLoop, *]))
    · injection h with h; subst h
      exact waitBsy_cur hs (fun _ _ => hm _ rfl rfl rfl rfl rfl rfl rfl rfl (by simp) (fun _ => by simp [inPairLoop, *])) (fun _ _ => hp _ rfl rfl rfl rfl) (fun _ _ => hk _ rfl rfl rfl rfl rfl rfl rfl rfl)
    · injection h with h; subst h
      refine postCheck_cur _ (hp _ rfl rfl rfl rfl) (hm _ rfl rfl rfl rfl rfl rfl rfl rfl (by simp) (fun _ => by simp [inPairLoop, *])) (hl _ rfl rfl ?_)
      exact writeAfterOp_address hw (hb ▸ hbk) ho hs.2 (by simp [inPairLoop, *])
    · injection h with h; subst h
      exact waitEop_cur hs (fun _ _ => hm _ rfl rfl rfl rfl rfl rfl rfl rfl (by simp) (fun _ => by simp [inPairLoop, *])) (fun _ _ => hp _ rfl rfl rfl rfl) (fun _ _ => hk _ rfl rfl rfl rfl rfl rfl rfl rfl)
    · injection h with h; subst h
      refine writeSr_cur _ _ hs (hl _ rfl rfl ?_)
      exact writeAfterOp_address hw (hb ▸ hbk) ho hs.2 (by simp [inPairLoop, *])
    · injection h with h; subst h
      exact readCr_cur _ hs (fun _ => hp _ rfl rfl rfl rfl)
    · injection h with h; subst h
      exact writeCr_cur _ _ hs (hp _ rfl rfl rfl rfl)
    · injection h with h; subst h
      exact lkWait_cur hs (fun _ _ => hp _ rfl rfl rfl rfl) (fun _ _ => hp _ rfl rfl rfl rfl) (fun _ _ => hk _ rfl rfl rfl rfl rfl rfl rfl rfl)
    · injection h with h; subst h
      exact readCr_cur _ hs (fun _ => hp _ rfl rfl rfl rfl)
    · injection h with h; subst h
      exact writeCr_cur _ _ hs (hp _ rfl rfl rfl rfl)
    · cases h

theorem readUnit_seqOk {b : Bank} {idx : BitVec 8} {t : State} (hw : s.cfg.wf = true)
    (hi : (s.cur.state = .decode ∧ (Instr.readUnit b idx).bank ≠ none) ∨ s.cur.command = some (.readUnit b idx))
    (h : execReadUnit b idx s = .next t) (hs : SeqOk s.cfg s.turn s.cur) : SeqOk s.cfg s.turn t.cur := by
  by_cases hd : s.cur.state = .decode
  · simp only [execReadUnit, hd] at h
    injection h with h; subst h
    exact decode_seqOk _ _ _ .validate _ (fun _ => ⟨rfl, rfl, rfl⟩) (by decide) (by decide) (by decide) hs
  · have ho : s.cur.opr = opReadUnit := (commandOf_some (command_of hi hd)).2.2.1
    have hb : s.cur.bk = b := by simpa [Instr.bank] using (commandOf_bank (command_of hi hd))
    have hbk : s.cfg.hasBank b = true := hb ▸ bankLegal_has (hs.1.bank (by rw [ho]; decide))
    unfold execReadUnit at h
    split at h
    · exact absurd ‹_› hd
    · injection h with h; subst h
      rw [onCur_cur]
      refine ⟨⟨?_, fun _ => ?_⟩, readValidate_address hw hbk hb⟩
      · unfold readValidate; dsimp only; split
        · simp [ho]; decide
        · split <;> simp [ho] <;> decide
      · have := hs.1.bank (by rw [ho]; decide)
        unfold readValidate; dsimp only; split
        · simpa using this
        · split <;> simpa using this
    · injection h with h; subst h
      exact rdByte_cur hs fun v => readByteDone_seqOk hw (hb ▸ hbk) hs ho ‹_› v
    · cases h

/-- Every step of a command keeps its sequencer's invariants. -/
theorem exec_seqOk {i : Instr} {t : State} (hw : s.cfg.wf = true)
    (hi : (s.cur.state = .decode ∧ i.bank ≠ none) ∨ s.cur.command = some i) (h : exec i s = .next t)
    (hs : SeqOk s.cfg s.turn s.cur) : SeqOk s.cfg s.turn t.cur := by
  cases i with
  | unlock b => exact unlock_seqOk hi h hs
  | lock b => exact lock_seqOk hi h hs
  | clearErrors b => exact clearErrors_seqOk hi h hs
  | eraseUnit b idx => exact eraseUnit_seqOk hi h hs
  | eraseBank b => exact eraseBank_seqOk hi h hs
  | writeUnit b idx => exact writeUnit_seqOk hw hi h hs
  | readUnit b idx => exact readUnit_seqOk hw hi h hs
  | unitToAddress b idx => exact unitToAddress_seqOk hi h hs
  | _ =>
    rcases hi with hi | hi
    · exact absurd rfl hi.2
    · exact absurd (commandOf_some hi).2.2 id

end Sys2Proof.Machine
end

