-- ==== Sys2Proof/Laws/Effects.lean ====
section
/-! SUPPORT. Laws/Effects.lean: what one transaction can change (R100-R127): a command's step and a raw transaction leave
everything but their own group, sequencer or bus lines alone, and one transaction keeps each group's invariant, cancels no
operation (R126) and starts nothing in a locked group (R71). -/
namespace Sys2Proof.Machine
variable {b : Bank} {s t : State}

/-- What a step of a command leaves alone: everything but its own sequencer, the groups, the draw counter and the refusal
mark. -/
theorem CommandEffect.frame (h : CommandEffect b s t) :
    t.cfg = s.cfg ∧ t.mem = s.mem ∧ t.marks = s.marks ∧ t.p1 = s.p1 ∧ t.p2 = s.p2 ∧ t.bus = s.bus ∧
      t.masters = s.masters ∧ t.turn = s.turn ∧ t.sched = s.sched ∧ (∀ n, n ≠ s.turn → t.seq n = s.seq n) ∧
      (s.refusalMark = true → t.refusalMark = true) := by
  have hc : ∀ (u : State) (f : Sequencer → Sequencer), u.turn = s.turn → ∀ n, n ≠ s.turn → (u.onCur f).seq n = u.seq n :=
    fun u f e n hn => by unfold State.onCur; rw [onSeq_seq_other _ _ _ _ (by rw [e]; exact hn)]
  cases h with
  | same => simp
  | refused => simp
  | quiet f => exact ⟨by simp, by simp, by simp, by simp, by simp, by simp, by simp, by simp, by simp, hc _ f rfl, by simp⟩
  | touched f =>
    refine ⟨by simp [State.touch], by simp [State.touch], by simp [State.touch], by simp [State.touch],
      by simp [State.touch], by simp [State.touch], by simp [State.touch], by simp [State.touch], by simp [State.touch],
      fun n hn => ?_, by simp [State.touch]⟩
    rw [hc _ f (by simp [State.touch]) n hn]; simp [State.touch]
  | keyr v f =>
    refine ⟨by simp [State.writeKeyr], by simp [State.writeKeyr], by simp [State.writeKeyr], by simp [State.writeKeyr],
      by simp [State.writeKeyr], by simp [State.writeKeyr], by simp [State.writeKeyr], by simp [State.writeKeyr], by simp [State.writeKeyr],
      fun n hn => ?_, by simp [State.writeKeyr]⟩
    rw [hc _ f (by simp [State.writeKeyr]) n hn]; simp [State.writeKeyr]
  | sr v f =>
    refine ⟨by simp [State.writeSr], by simp [State.writeSr], by simp [State.writeSr], by simp [State.writeSr],
      by simp [State.writeSr], by simp [State.writeSr], by simp [State.writeSr], by simp [State.writeSr], by simp [State.writeSr],
      fun n hn => ?_, by simp [State.writeSr]⟩
    rw [hc _ f (by simp [State.writeSr]) n hn]; simp [State.writeSr]
  | cr v f =>
    refine ⟨by simp [State.writeCr], by simp [State.writeCr], by simp [State.writeCr], by simp [State.writeCr],
      by simp [State.writeCr], by simp [State.writeCr], by simp [State.writeCr], by simp [State.writeCr], by simp [State.writeCr],
      fun n hn => ?_, by simp [State.writeCr]⟩
    rw [hc _ f (by simp [State.writeCr]) n hn]; simp [State.writeCr]
  | arrWrite a v u f ha h =>
    rcases arrayWrite_cases h with ⟨d, -, rfl⟩ | ⟨-, -, rfl⟩
    · refine ⟨by simp, by simp, by simp, by simp, by simp, by simp, by simp, by simp, by simp, fun n hn => ?_, by simp⟩
      rw [hc _ f (by simp) n hn]; simp
    · exact ⟨by simp, by simp, by simp, by simp, by simp, by simp, by simp, by simp, by simp, hc _ f rfl, by simp⟩
  | arrRead v u f h =>
    rcases arrayRead_cases h with ⟨d, -, -, rfl, -⟩ | ⟨d, -, -, -, rfl, -⟩ | ⟨-, -, rfl⟩
    · refine ⟨by simp, by simp, by simp, by simp, by simp, by simp, by simp, by simp, by simp, fun n hn => ?_, by simp⟩
      rw [hc _ f (by simp) n hn]; simp
    · exact ⟨by simp, by simp, by simp, by simp, by simp, by simp, by simp, by simp, by simp, hc _ f rfl, by simp⟩
    · refine ⟨by simp, by simp, by simp, by simp, by simp, by simp, by simp, by simp, by simp, fun n hn => ?_, by simp⟩
      rw [hc _ f (by simp) n hn]; simp

/-- The ways one transaction or a step without one can change bank d's group. -/
inductive GroupEffect (c : Config) (d : Bank) (g : Group) : Group → Prop where
  | same : GroupEffect c d g g
  | touched : GroupEffect c d g g.interleave
  | keyr (v : Word) : GroupEffect c d g (g.keyWrite c v)
  | sr (v : Word) : GroupEffect c d g (g.interleave.srWrite c v)
  | cr (n : Nat) (v : Word) : GroupEffect c d g (g.interleave.crWrite c d n v)
  | arr (n : Nat) (z : Size) (a v : Word) (ha : c.flashBank a.toNat = some d) : GroupEffect c d g (g.arrWrite c d n z a v)
  | ecc : GroupEffect c d g (g.raise .eccerr)

theorem onGrp_grp_cases (s : State) (b d : Bank) (f : Group → Group) :
    (d = b ∧ (s.onGrp b f).grp d = f (s.grp d)) ∨ (d ≠ b ∧ (s.onGrp b f).grp d = s.grp d) := by
  by_cases h : d = b
  · subst h; exact .inl ⟨rfl, by simp⟩
  · exact .inr ⟨h, onGrp_grp_other s b d f h⟩

/-- A step of a command changes its own bank's group by one transaction; of another bank's group, by an array transaction
at most. -/
theorem CommandEffect.group (h : CommandEffect b s t) (d : Bank) :
    GroupEffect s.cfg d (s.grp d) (t.grp d) ∧ (d ≠ b → t.grp d = s.grp d ∨
      ∃ a : Word, (a = s.cur.addr ∨ a = s.cur.addr + 4) ∧ s.cfg.flashBank a.toNat = some d) := by
  cases h with
  | same => exact ⟨.same, fun _ => .inl rfl⟩
  | refused => exact ⟨by simpa using .same, fun _ => .inl (by simp)⟩
  | quiet f => exact ⟨by simpa [State.onCur] using .same, fun _ => .inl (by simp [State.onCur])⟩
  | touched f =>
    simp only [State.onCur, onSeq_grp, State.touch]
    rcases onGrp_grp_cases s b d Group.interleave with ⟨e, h⟩ | ⟨e, h⟩ <;> rw [h]
    · exact ⟨.touched, fun h => absurd e h⟩
    · exact ⟨.same, fun _ => .inl rfl⟩
  | keyr v f =>
    simp only [State.onCur, onSeq_grp, State.writeKeyr]
    rcases onGrp_grp_cases s b d (Group.keyWrite s.cfg v) with ⟨e, h⟩ | ⟨e, h⟩ <;> rw [h]
    · exact ⟨.keyr v, fun h => absurd e h⟩
    · exact ⟨.same, fun _ => .inl rfl⟩
  | sr v f =>
    simp only [State.onCur, onSeq_grp, State.writeSr]
    rcases onGrp_grp_cases s b d (fun g => g.interleave.srWrite s.cfg v) with ⟨e, h⟩ | ⟨e, h⟩ <;> rw [h]
    · exact ⟨.sr v, fun h => absurd e h⟩
    · exact ⟨.same, fun _ => .inl rfl⟩
  | cr v f =>
    simp only [State.onCur, onSeq_grp, State.writeCr, drawn_grp]
    rcases onGrp_grp_cases s b d (fun g => g.interleave.crWrite s.cfg b s.draws v) with ⟨e, h⟩ | ⟨e, h⟩ <;> rw [h]
    · subst e; exact ⟨.cr _ v, fun h => absurd rfl h⟩
    · exact ⟨.same, fun _ => .inl rfl⟩
  | arrWrite a v u f ha h =>
    simp only [State.onCur, onSeq_grp]
    rcases arrayWrite_cases h with ⟨k, hk, rfl⟩ | ⟨-, -, rfl⟩
    · simp only [drawn_grp]
      rcases onGrp_grp_cases s k d (Group.arrWrite s.cfg k s.draws .w32 a v) with ⟨e, h⟩ | ⟨e, h⟩ <;> rw [h]
      · subst e; exact ⟨.arr _ _ _ _ hk, fun _ => .inr ⟨a, ha, hk⟩⟩
      · exact ⟨.same, fun _ => .inl rfl⟩
    · exact ⟨.same, fun _ => .inl rfl⟩
  | arrRead v u f h =>
    simp only [State.onCur, onSeq_grp]
    rcases arrayRead_cases h with ⟨k, hk, -, rfl, -⟩ | ⟨k, -, -, -, rfl, -⟩ | ⟨-, -, rfl⟩
    · simp only [drawn_grp]
      rcases onGrp_grp_cases s k d (Group.raise .eccerr) with ⟨e, h⟩ | ⟨e, h⟩ <;> rw [h]
      · subst e; exact ⟨.ecc, fun _ => .inr ⟨_, .inl rfl, hk⟩⟩
      · exact ⟨.same, fun _ => .inl rfl⟩
    · exact ⟨.same, fun _ => .inl rfl⟩
    · exact ⟨by simpa using .same, fun _ => .inl (by simp)⟩


/-- A command at DECODE makes no transaction (R242). -/
theorem exec_decode_quiet {i : Instr} (hb : i.bank = some b) (hd : s.cur.state = .decode) (h : exec i s = .next t) :
    ∃ f, t = s.onCur f := by
  cases i <;> simp only [Instr.bank, Option.some.injEq, reduceCtorEq] at hb <;> subst hb <;>
    simp only [exec, execUnlock, execLock, execClearErrors, execEraseUnit, execEraseBank, execWriteUnit, execReadUnit,
      execUnitToAddress, hd] at h <;>
    (injection h with h; exact ⟨_, h.symm⟩)

/-- What a raw transaction leaves alone: everything but the groups, the bus lines, the draw counter and the refusal mark;
and each group changes by one transaction at most. -/
structure BusEffect (s t : State) : Prop where
  cfg : t.cfg = s.cfg
  mem : t.mem = s.mem
  marks : t.marks = s.marks
  q1 : t.q1 = s.q1
  q2 : t.q2 = s.q2
  p1 : t.p1 = s.p1
  p2 : t.p2 = s.p2
  masters : t.masters = s.masters
  turn : t.turn = s.turn
  sched : t.sched = s.sched
  mark : s.refusalMark = true → t.refusalMark = true
  group : ∀ d, GroupEffect s.cfg d (s.grp d) (t.grp d)
  absent : ∀ d, s.cfg.hasBank d = false → t.grp d = s.grp d

theorem BusEffect.refl (s : State) : BusEffect s s :=
  ⟨rfl, rfl, rfl, rfl, rfl, rfl, rfl, rfl, rfl, rfl, id, fun _ => .same, fun _ _ => rfl⟩

theorem BusEffect.refuse (s : State) : BusEffect s s.refuse :=
  ⟨rfl, rfl, rfl, rfl, rfl, rfl, rfl, rfl, rfl, rfl, fun _ => rfl, fun d => by simpa using .same, fun d _ => by simp⟩

theorem BusEffect.answer (h : BusEffect s t) (v : Word) : BusEffect s (t.answer v) :=
  ⟨h.cfg, h.mem, h.marks, h.q1, h.q2, h.p1, h.p2, h.masters, h.turn, h.sched, h.mark, fun d => by simpa using h.group d,
    fun d hd => by simpa using h.absent d hd⟩

theorem BusEffect.drawn (h : BusEffect s t) : BusEffect s t.drawn :=
  ⟨h.cfg, h.mem, h.marks, h.q1, h.q2, h.p1, h.p2, h.masters, h.turn, h.sched, h.mark, fun d => by simpa using h.group d,
    fun d hd => by simpa using h.absent d hd⟩

theorem BusEffect.hold (s : State) : BusEffect s s.hold :=
  ⟨rfl, rfl, rfl, rfl, rfl, rfl, rfl, rfl, rfl, rfl, id, fun d => by simpa using .same, fun d _ => by simp⟩

theorem BusEffect.onGrp (s : State) (b : Bank) (f : Group → Group) (hb : s.cfg.hasBank b = true)
    (h : GroupEffect s.cfg b (s.grp b) (f (s.grp b))) :
    BusEffect s (s.onGrp b f) :=
  ⟨by simp, by simp, by simp, by simp, by simp, by simp, by simp, by simp, by simp, by simp, by simp, fun d => by
    rcases onGrp_grp_cases s b d f with ⟨e, h'⟩ | ⟨-, h'⟩ <;> rw [h']
    · subst e; exact h
    · exact .same, fun d hd => by
    rcases onGrp_grp_cases s b d f with ⟨e, h'⟩ | ⟨-, h'⟩
    · subst e; simp [hb] at hd
    · exact h'⟩

theorem flashBank_has {c : Config} {a : Nat} (h : c.flashBank a = some b) : c.hasBank b = true := by
  have := Config.flashBank_some h
  simp only [Config.inFlash, Bool.and_eq_true] at this
  exact this.1.1

theorem atRegister_effect (off : Nat) (foreign : State) (k : Bank → State) (hf : BusEffect s foreign)
    (hk : ∀ b, s.cfg.hasBank b = true → BusEffect s (k b)) : BusEffect s (s.atRegister off foreign k) := by
  unfold State.atRegister
  split
  · exact .refuse s
  · split
    · next b e =>
      split
      · have := Config.groupBank_some e
        simp only [Config.inGroup, Bool.and_eq_true] at this
        exact hk b this.1.1
      · exact .refuse s
    · split
      · exact .refuse s
      · exact hf

theorem readRegister_effect (off : Nat) (value : Group → Word) : BusEffect s (s.readRegister off value) :=
  atRegister_effect _ _ _ ((BusEffect.refl s).answer _).drawn fun b hb => (BusEffect.onGrp s b _ hb .touched).answer _

theorem rawRead_effect (z : Size) : BusEffect s (s.rawRead z) := by
  unfold State.rawRead
  split
  · exact .refuse s
  · exact .hold s
  · next v t h =>
    rcases arrayRead_cases h with ⟨d, hd, -, rfl, -⟩ | ⟨d, -, -, -, rfl, -⟩ | ⟨-, -, rfl⟩
    · exact ((BusEffect.onGrp s d _ (flashBank_has hd) .ecc).drawn).answer _
    · exact (BusEffect.refl _).answer _
    · exact ((BusEffect.refl s).drawn).answer _

theorem rawWrite_effect (z : Size) : BusEffect s (s.rawWrite z) := by
  unfold State.rawWrite
  split
  · exact .refuse s
  · next t h =>
    rcases arrayWrite_cases h with ⟨d, hd, rfl⟩ | ⟨-, -, rfl⟩
    · exact (BusEffect.onGrp s d _ (flashBank_has hd) (.arr _ _ _ _ hd)).drawn
    · exact .refl _

/-- Every raw transaction ends in a next state, by one of these effects. -/
theorem exec_bus_effect {i : Instr} (hb : i.bank = none) (s : State) : ∃ t, exec i s = .next t ∧ BusEffect s t := by
  cases i <;> first
    | (simp [Instr.bank] at hb; done)
    | exact ⟨_, rfl, readRegister_effect _ _⟩
    | exact ⟨_, rfl, rawRead_effect _⟩
    | exact ⟨_, rfl, rawWrite_effect _⟩
    | exact ⟨_, rfl, atRegister_effect _ _ _ (.refl s) fun b hb => .onGrp s b _ hb (.keyr _)⟩
    | exact ⟨_, rfl, atRegister_effect _ _ _ (.refl s) fun b hb => .onGrp s b _ hb (.sr _)⟩
    | exact ⟨_, rfl, atRegister_effect _ _ _ (.refl s) fun b hb => (BusEffect.onGrp s b _ hb (.cr _ _)).drawn⟩
    | exact ⟨_, rfl, atRegister_effect _ _ _ (.refl s) fun b hb => .onGrp s b _ hb .touched⟩

/-- One transaction keeps the group's invariant (R47). -/
theorem GroupEffect.inv {c : Config} {d : Bank} {g h : Group} (e : GroupEffect c d g h) (hb : c.hasBank d = true)
    (hg : GroupInv c d g) :
    GroupInv c d h := by
  cases e with
  | same => exact hg
  | touched => exact hg.interleave
  | keyr v => exact hg.keyWrite v
  | sr v => exact hg.interleave.srWrite v
  | cr n v => exact hg.interleave.crWrite hb n v
  | arr n z a v ha => exact hg.arrWrite n z a v (Config.flashBank_some ha)
  | ecc => exact hg.raise _

/-- One transaction neither ends nor replaces an operation in flight (R126). -/
theorem GroupEffect.inflight {c : Config} {d : Bank} {g h : Group} {op : Operation} (e : GroupEffect c d g h)
    (hi : g.inflight = some op) : h.inflight = some op := by
  cases e with
  | same => exact hi
  | touched => rw [Group.interleave_eq]; exact hi
  | keyr v => obtain ⟨l, k, o, e, -⟩ := Group.keyWrite_frame c v g; rw [e]; exact hi
  | sr v => show g.interleave.inflight = _; rw [Group.interleave_eq]; exact hi
  | cr n v =>
    rw [Group.interleave_eq]
    unfold Group.crWrite
    split
    · exact hi
    · rw [if_pos (by simp [Group.busy, hi])]
      unfold Group.crWriteBusy
      dsimp only
      split <;> split <;> exact hi
  | arr n z a v ha =>
    unfold Group.arrWrite
    rw [if_pos (by simp [Group.busy, hi])]
    exact hi
  | ecc => exact hi

/-- One transaction starts nothing in a locked group (R71 (a)). -/
theorem GroupEffect.locked_idle {c : Config} {d : Bank} {g h : Group} (e : GroupEffect c d g h) (hl : g.lock = true)
    (hi : g.inflight = none) : h.inflight = none := by
  cases e with
  | same => exact hi
  | touched => rw [Group.interleave_eq]; exact hi
  | keyr v => obtain ⟨l, k, o, e, -⟩ := Group.keyWrite_frame c v g; rw [e]; exact hi
  | sr v => show g.interleave.inflight = _; rw [Group.interleave_eq]; exact hi
  | cr n v =>
    rw [Group.interleave_eq]
    unfold Group.crWrite
    rw [if_pos (by simpa using hl)]
    exact hi
  | arr n z a v ha =>
    rcases Group.arrWrite_cases c d n z a v g with ⟨-, e⟩ | ⟨-, f, e⟩ | ⟨-, -, hl', -⟩ | ⟨-, hl', -⟩
    · rw [e]; exact hi
    · obtain ⟨_, _, _, _, _, _, _, e', -⟩ := Group.fail_frame c n f { g with latch := none }
      rw [e, e']; exact hi
    · simp [hl] at hl'
    · simp [hl] at hl'
  | ecc => exact hi

end Sys2Proof.Machine
end

