-- ==== Sys2Proof/Laws/Engine.lean ====
section
/-! SUPPORT. Laws/Engine.lean: what the engine's completion step and the reset event can change (R122-R125, R290-R292). -/
namespace Sys2Proof.Machine
variable {s : State} {b : Bank}

/-- The bytes an engine's completion may change: those its operation targets. -/
def State.target (s : State) (b : Bank) (a : Nat) : Prop :=
  ∃ op, (s.grp b).inflight = some op ∧ (opRange s.cfg b op).1 ≤ a ∧ a < (opRange s.cfg b op).1 + (opRange s.cfg b op).2

/-- The completion step leaves everything but the array, the marks, its bank's group and the draw counter alone; the array
outside the operation's target too; and the canonical forms hold after it. -/
theorem engineStep_frame (s : State) (b : Bank) :
    (s.engineStep b).cfg = s.cfg ∧ (s.engineStep b).q1 = s.q1 ∧ (s.engineStep b).q2 = s.q2 ∧ (s.engineStep b).p1 = s.p1 ∧
      (s.engineStep b).p2 = s.p2 ∧ (s.engineStep b).bus = s.bus ∧ (s.engineStep b).masters = s.masters ∧
      (s.engineStep b).refusalMark = s.refusalMark ∧ (s.engineStep b).turn = s.turn ∧
      (s.engineStep b).sched = s.sched ∧ (∀ d, d ≠ b → (s.engineStep b).grp d = s.grp d) ∧
      (∀ a, ¬s.target b a → (s.engineStep b).mem.read a = s.mem.read a) := by
  have ht : ∀ {op a}, (s.grp b).inflight = some op → ¬s.target b a →
      ¬((opRange s.cfg b op).1 ≤ a ∧ a < (opRange s.cfg b op).1 + (opRange s.cfg b op).2) :=
    fun h hn hr => hn ⟨_, h, hr⟩
  unfold State.engineStep
  split
  · exact ⟨rfl, rfl, rfl, rfl, rfl, rfl, rfl, rfl, rfl, rfl, fun _ _ => rfl, fun _ _ => rfl⟩
  · next u h =>
    refine ⟨by simp [State.eraseDone], by simp [State.eraseDone], by simp [State.eraseDone], by simp [State.eraseDone],
      by simp [State.eraseDone], by simp [State.eraseDone], by simp [State.eraseDone], by simp [State.eraseDone],
      by simp [State.eraseDone], by simp [State.eraseDone], fun d hd => ?_, fun a ha => ?_⟩
    · unfold State.eraseDone
      rw [onGrp_grp_other _ _ _ _ hd]; cases d <;> rfl
    · simp only [State.eraseDone, onGrp_mem, Memory.read_erase]
      exact if_neg (ht h ha)
  · next h =>
    refine ⟨by simp [State.eraseDone], by simp [State.eraseDone], by simp [State.eraseDone], by simp [State.eraseDone],
      by simp [State.eraseDone], by simp [State.eraseDone], by simp [State.eraseDone], by simp [State.eraseDone],
      by simp [State.eraseDone], by simp [State.eraseDone], fun d hd => ?_, fun a ha => ?_⟩
    · unfold State.eraseDone
      rw [onGrp_grp_other _ _ _ _ hd]; cases d <;> rfl
    · simp only [State.eraseDone, onGrp_mem, Memory.read_erase]
      exact if_neg (ht h ha)
  · next x d h =>
    unfold State.programDone
    split
    · refine ⟨by simp, by simp, by simp, by simp, by simp, by simp, by simp, by simp, by simp, by simp,
        fun d hd => ?_, fun a ha => ?_⟩
      · rw [onGrp_grp_other _ _ _ _ hd]; cases d <;> rfl
      · rw [onGrp_mem, Memory.read_fill]; exact if_neg (ht h ha)
    · refine ⟨by simp, by simp, by simp, by simp, by simp, by simp, by simp, by simp, by simp, by simp,
        fun d hd => ?_, fun a ha => ?_⟩
      · rw [drawn_grp, onGrp_grp_other _ _ _ _ hd]; cases d <;> rfl
      · rw [drawn_mem, onGrp_mem, Memory.read_fill]; exact if_neg (ht h ha)

theorem engineStep_wf (s : State) (b : Bank) (hm : s.mem.wf) (hk : marksWf s.marks) :
    (s.engineStep b).mem.wf ∧ marksWf (s.engineStep b).marks := by
  have he : ∀ lo n, (s.eraseDone b lo n).mem.wf ∧ marksWf (s.eraseDone b lo n).marks := fun lo n => by
    refine ⟨?_, ?_⟩
    · simp only [State.eraseDone, onGrp_mem]; exact Memory.wf_erase hm _ _
    · simp only [State.eraseDone, onGrp_marks]
      split
      · exact marksWf_dropMarks hk _ _
      · exact hk
  unfold State.engineStep
  split
  · exact ⟨hm, hk⟩
  · exact he _ _
  · exact he _ _
  · unfold State.programDone
    split
    · simp only [onGrp_mem, onGrp_marks]
      exact ⟨Memory.wf_fill hm _ _ _, marksWf_addMark hk _⟩
    · simp only [drawn_mem, drawn_marks, onGrp_mem, onGrp_marks]
      exact ⟨Memory.wf_fill hm _ _ _, hk⟩

/-- The group after its engine's completion step: idle, and either EOP (R122) or PGSERR with the stale fields (R125). -/
theorem engineStep_grp (s : State) (b : Bank) :
    (s.engineStep b).grp b = s.grp b ∨ (s.engineStep b).grp b = (s.grp b).complete s.cfg ∨
      (s.engineStep b).grp b = { s.grp b with inflight := none }.fail s.cfg s.draws .pgserr := by
  have hg : ∀ m k, ({ s with mem := m, marks := k } : State).grp b = s.grp b := fun _ _ => by cases b <;> rfl
  unfold State.engineStep
  split
  · exact .inl rfl
  · right; left; simp [State.eraseDone, hg]
  · right; left; simp [State.eraseDone, hg]
  · unfold State.programDone
    split
    · right; left; simp [hg]
    · right; right; rw [drawn_grp, onGrp_grp_same]; rw [show ∀ m, ({ s with mem := m } : State).grp b = s.grp b from fun m => hg m s.marks]

theorem engineStep_inv (d : Bank) (h : GroupInv s.cfg d (s.grp d)) : GroupInv s.cfg d ((s.engineStep b).grp d) := by
  by_cases e : d = b
  · subst e
    rcases engineStep_grp s d with e | e | e <;> rw [e]
    · exact h
    · exact h.complete
    · exact h.idle.fail _ _
  · rw [(engineStep_frame s b).2.2.2.2.2.2.2.2.2.2.1 d e]; exact h

/-- A program, and an erase, target bytes of their own bank's unprotected units only. -/
theorem target_in_bank {c : Config} {op : Operation} (hw : c.wf = true) (hb : c.hasBank b = true)
    (h : OperationLegal c b op) {a : Nat} (h1 : (opRange c b op).1 ≤ a) (h2 : a < (opRange c b op).1 + (opRange c b op).2) :
    c.inFlash b a = true ∧ c.unitOf b a ∉ c.wrpUnits b := by
  have hpos := Config.unitSize_pos c
  cases op with
  | eraseUnit u =>
    simp only [opRange] at h1 h2
    obtain ⟨o, rfl⟩ := Nat.exists_eq_add_of_le h1
    have := Config.inUnit hb h.1 (o := o) (by omega)
    exact ⟨this.1, by rw [this.2]; exact h.2⟩
  | eraseBank =>
    simp only [opRange] at h1 h2
    refine ⟨?_, ?_⟩
    · simp only [Config.inFlash, hb, Bool.true_and, Bool.and_eq_true, decide_eq_true_eq]
      exact ⟨h1, h2⟩
    · have : c.wrpUnits b = [] := h
      simp [this]
  | program x d =>
    simp only [opRange] at h1 h2
    obtain ⟨h8, hf, hu⟩ := h
    simp only [Config.inFlash, hb, Bool.true_and, Bool.and_eq_true, decide_eq_true_eq] at hf
    have ho := Config.wf_origin_aligned hw hb
    have hs := Config.unitSize_mod c
    have hm : c.bankSize % 8 = 0 := by
      unfold Config.bankSize
      rw [Nat.mul_mod, hs]; simp
    have hq : (a - c.origin b) / c.unitSize = (x.toNat - c.origin b) / c.unitSize := by
      obtain ⟨y, hy⟩ : ∃ y, x.toNat - c.origin b = 8 * y := ⟨(x.toNat - c.origin b) / 8, by omega⟩
      obtain ⟨z, hz⟩ : ∃ z, c.unitSize = 8 * z := ⟨c.unitSize / 8, by omega⟩
      have e1 : (a - c.origin b) / 8 = y := by omega
      have e2 : (x.toNat - c.origin b) / 8 = y := by omega
      rw [hz, ← Nat.div_div_eq_div_mul, ← Nat.div_div_eq_div_mul, e1, e2]
    refine ⟨?_, ?_⟩
    · simp only [Config.inFlash, hb, Bool.true_and, Bool.and_eq_true, decide_eq_true_eq]
      refine ⟨by omega, by omega⟩
    · simp only [Config.unitOf] at hu ⊢
      rw [hq]; exact hu

/-- The reset event: reset values everywhere, the array and the marks but for the targets of operations in flight. -/
theorem resetEvent_frame (s : State) :
    s.resetEvent.cfg = s.cfg ∧ s.resetEvent.g1 = Group.reset ∧ s.resetEvent.g2 = Group.reset ∧
      s.resetEvent.q1 = Sequencer.reset s.draws ∧ s.resetEvent.q2 = Sequencer.reset (s.draws + 1) ∧
      s.resetEvent.p1 = s.p1 ∧ s.resetEvent.p2 = s.p2 ∧ s.resetEvent.bus = s.bus ∧ s.resetEvent.masters = s.masters ∧
      s.resetEvent.refusalMark = s.refusalMark ∧ s.resetEvent.turn = s.turn ∧ s.resetEvent.sched = s.sched := by
  have h : ∀ (s : State) b, ∃ m k, s.cutShort b = { s with mem := m, marks := k } := fun s b => by
    unfold State.cutShort; split
    · exact ⟨s.mem, s.marks, rfl⟩
    · exact ⟨_, _, rfl⟩
  obtain ⟨m, k, e⟩ := h s .b1
  obtain ⟨m', k', e'⟩ := h (s.cutShort .b1) .b2
  unfold State.resetEvent
  rw [e', e]
  exact ⟨rfl, rfl, rfl, rfl, rfl, rfl, rfl, rfl, rfl, rfl, rfl, rfl⟩

theorem cutShort_wf (s : State) (b : Bank) (hm : s.mem.wf) (hk : marksWf s.marks) :
    (s.cutShort b).mem.wf ∧ marksWf (s.cutShort b).marks := by
  unfold State.cutShort
  split
  · exact ⟨hm, hk⟩
  · refine ⟨Memory.wf_fill hm _ _ _, ?_⟩
    dsimp only
    split
    · exact marksWf_fillMarks hk _ _ _
    · exact hk

theorem cutShort_read (s : State) (b : Bank) (a : Nat) (h : ¬s.target b a) :
    (s.cutShort b).mem.read a = s.mem.read a := by
  unfold State.cutShort
  split
  · rfl
  · next op e =>
    dsimp only
    rw [Memory.read_fill, if_neg fun hr => h ⟨op, e, hr⟩]

theorem cutShort_target (s : State) (b d : Bank) (a : Nat) : (s.cutShort b).target d a ↔ s.target d a := by
  have h : ∃ m k, s.cutShort b = { s with mem := m, marks := k } := by
    unfold State.cutShort; split
    · exact ⟨s.mem, s.marks, rfl⟩
    · exact ⟨_, _, rfl⟩
  obtain ⟨m, k, e⟩ := h
  rw [e]
  cases d <;> rfl

theorem resetEvent_read (s : State) (a : Nat) (h : ∀ b, ¬s.target b a) : s.resetEvent.mem.read a = s.mem.read a := by
  show ((s.cutShort .b1).cutShort .b2).mem.read a = _
  rw [cutShort_read _ _ _ (by rw [cutShort_target]; exact h _), cutShort_read _ _ _ (h _)]

theorem resetEvent_wf (s : State) (hm : s.mem.wf) (hk : marksWf s.marks) :
    s.resetEvent.mem.wf ∧ marksWf s.resetEvent.marks :=
  have h1 := cutShort_wf s .b1 hm hk
  cutShort_wf _ .b2 h1.1 h1.2

end Sys2Proof.Machine
end

