-- ==== Sys2Proof/Laws/Moves.lean ====
section
/-! SUPPORT. Laws/Moves.lean: what each agent's move can do (R16, R246, R247), as cases: later proofs cite these and never
unfold a move. -/
namespace Sys2Proof.Machine
variable {s t : State}

/-- A bus descriptor decodes to a bus transaction (R85). -/
theorem decodeBus_bank {d : Desc} {i : Instr} (h : decodeBus d = .ok i) : i.bank = none := by
  unfold decodeBus registerTxn arrayTxn at h
  repeat' split at h
  all_goals first
    | (cases h; done)
    | (injection h with h; subst h; rfl)

/-- A sequencer that moves has no step, runs one step of the command its registers name, or ends an illegal word. -/
theorem seqMove_cases {n : SeqId} (h : seqMove n s = .next t) :
    (t = s ∧ ((s.seq n).state = .idle ∨ (s.seq n).state = .done)) ∨
    (∃ i b, i.bank = some b ∧ exec i { s with turn := n } = .next t ∧
      (((s.seq n).state = .decode ∧ decodeCommand (s.seq n).cmd = .ok i) ∨
        (atRest (s.seq n).state = false ∧ (s.seq n).command = some i))) ∨
    ((s.seq n).state = .decode ∧ t = { s with turn := n }.badCommand) := by
  unfold seqMove at h
  split at h
  · next e => injection h with h; exact .inl ⟨h.symm, .inl e⟩
  · next e => injection h with h; exact .inl ⟨h.symm, .inr e⟩
  · next e =>
    split at h
    · next i hi =>
      obtain ⟨b, idx, hc, -⟩ := decodeCommand_ok hi
      exact .inr (.inl ⟨i, b, (commandOf_some hc).1, h, .inl ⟨e, hi⟩⟩)
    · injection h with h; exact .inr (.inr ⟨e, h.symm⟩)
  · next h1 h2 h3 =>
    split at h
    · next i hi =>
      refine .inr (.inl ⟨i, _, (commandOf_some hi).1, h, .inr ⟨?_, hi⟩⟩)
      cases e : (s.seq n).state <;> first | rfl | exact absurd e h1 | exact absurd e h2 | exact absurd e h3
    · cases h

theorem present_effect {u : State} {x : Txn} (h : BusEffect (s.present x) u) :
    u.cfg = s.cfg ∧ u.mem = s.mem ∧ u.marks = s.marks ∧ u.q1 = s.q1 ∧ u.q2 = s.q2 ∧ u.p1 = s.p1 ∧ u.p2 = s.p2 ∧
      u.masters = s.masters ∧ u.turn = s.turn ∧ u.sched = s.sched ∧ (s.refusalMark = true → u.refusalMark = true) ∧
      (∀ d, GroupEffect s.cfg d (s.grp d) (u.grp d)) ∧ (∀ d, s.cfg.hasBank d = false → u.grp d = s.grp d) :=
  ⟨h.cfg, h.mem, h.marks, h.q1, h.q2, h.p1, h.p2, h.masters, h.turn, h.sched, h.mark, fun d => by
    have := h.group d
    cases d <;> exact this, fun d hd => by
    have := h.absent d hd
    cases d <;> exact this⟩

theorem illegalTxn_effect (s : State) (d : Desc) : BusEffect s (s.illegalTxn d) := by
  unfold State.illegalTxn
  split
  · exact .refuse s
  · split
    · split
      · exact .refl s
      · exact ((BusEffect.refl s).answer _).drawn
    · exact .refuse s

/-- A master that moves has nothing to do, or makes one transaction. -/
theorem masterMove_cases (k : Nat) (s : State) :
    (masterMove k s = .next s ∧ s.ready k = none) ∨
    ∃ x u, s.ready k = some x ∧ BusEffect (s.present x) u ∧ masterMove k s = .next (u.retire k) := by
  unfold masterMove
  split
  · next h => exact .inl ⟨rfl, h⟩
  · next x h =>
    right
    split
    · next i hi =>
      obtain ⟨u, e, hu⟩ := exec_bus_effect (decodeBus_bank hi) (s.present x)
      exact ⟨x, u, h, hu, by rw [e]; rfl⟩
    · exact ⟨x, _, h, illegalTxn_effect _ _, rfl⟩

theorem retire_frame (s : State) (k : Nat) : ∃ l, s.retire k = { s with masters := l } := by
  unfold State.retire
  split
  · exact ⟨s.masters, rfl⟩
  · exact ⟨_, rfl⟩

/-- The host's move at a port (R247): issue at IDLE, collect at DONE, or wait. -/
theorem hostStep_cases (s : State) (n : SeqId) :
    s.hostStep n = s ∨
    (∃ cmd arg0 arg1 dbuf q, (s.port n).queue = .issue cmd arg0 arg1 dbuf :: q ∧ (s.seq n).state = .idle ∧
      s.hostStep n = ((s.onSeq n fun r => r.issue cmd arg0 arg1 dbuf s.draws).onPort n fun p =>
        { p with queue := q }).drawn) ∨
    (∃ q r, (s.port n).queue = .collect :: q ∧ (s.seq n).state = .done ∧
      s.hostStep n = (s.onSeq n Sequencer.leave).onPort n fun _ => { queue := q, ret := some r }) := by
  unfold State.hostStep
  split
  · exact .inl rfl
  · next h =>
    split
    · next e => exact .inr (.inl ⟨_, _, _, _, _, h, e, rfl⟩)
    · exact .inl rfl
  · next h =>
    split
    · next e => exact .inr (.inr ⟨_, _, h, e, rfl⟩)
    · exact .inl rfl

/-- Taking the mover from the order of moves changes the order and the draw counter only. -/
theorem scheduled_frame (s : State) : ∃ l n, s.scheduled = { s with sched := l, draws := n } := by
  unfold State.scheduled
  split
  · exact ⟨_, s.draws, rfl⟩
  · split
    · exact ⟨s.sched, _, rfl⟩
    · exact ⟨s.sched, s.draws, rfl⟩

/-- Everything a step can be: the mover's move after the order of moves has been advanced. -/
theorem step_cases (h : step s = .next t) :
    s.cfg.wf = true ∧ ((∃ a, s.mover = some a ∧ move a s.scheduled = .next t) ∨ (s.mover = none ∧ t = s.scheduled)) := by
  unfold step at h
  split at h
  · next hw =>
    refine ⟨hw, ?_⟩
    split at h
    · next a e => exact .inl ⟨a, e, h⟩
    · next e => injection h with h; exact .inr ⟨e, h.symm⟩
  · cases h

end Sys2Proof.Machine
end

