-- ==== Sys2Proof/Laws/PerInstr.lean ====
section
/-! SUPPORT. Laws/PerInstr.lean: per instruction, its encoding lies in its own row of the opcode table: `TableRow` says so
with the row's format, match and mask (spec/opcode_table.json). -/
namespace Sys2Proof.Laws

/-- The match and mask of an instruction's row of the opcode table. -/
def rowOf (i : Instr) : Word × Word :=
  match i with
  | .unlock _ => (0x00000001, 0xFFFFFFEF)
  | .lock _ => (0x00000002, 0xFFFFFFEF)
  | .clearErrors _ => (0x00000003, 0xFFFFFFEF)
  | .eraseUnit _ _ => (0x00000004, 0xFFFF00EF)
  | .eraseBank _ => (0x00000005, 0xFFFFFFEF)
  | .writeUnit _ _ => (0x00000006, 0xFFFF00EF)
  | .readUnit _ _ => (0x00000007, 0xFFFF00EF)
  | .unitToAddress _ _ => (0x00000008, 0xFFFF00EF)
  | .keyrRd => (0x4000, 0xFFFF)
  | .keyrWr => (0xC000, 0xFFFF)
  | .srRd => (0x4004, 0xFFFF)
  | .srWr => (0xC004, 0xFFFF)
  | .crRd => (0x4008, 0xFFFF)
  | .crWr => (0xC008, 0xFFFF)
  | .rsvRd => (0x400C, 0xFFFF)
  | .rsvWr => (0xC00C, 0xFFFF)
  | .arrRd8 => (0x1000, 0xFFFF)
  | .arrRd16 => (0x3000, 0xFFFF)
  | .arrRd32 => (0x5000, 0xFFFF)
  | .arrWr8 => (0x9000, 0xFFFF)
  | .arrWr16 => (0xB000, 0xFFFF)
  | .arrWr32 => (0xD000, 0xFFFF)

/-- The word of an instruction as the opcode table numbers its bits. -/
def tableWord (i : Instr) : Word :=
  match encode i with
  | .cmd w => w
  | .bus d => d.setWidth 32

/-- The fixed bits of the instruction's word are its row's. -/
def TableRow.Statement (i : Instr) : Prop := tableWord i &&& (rowOf i).2 = (rowOf i).1

theorem TableRow.unlock (b : Bank) : TableRow.Statement (.unlock b) := by cases b <;> rfl
theorem TableRow.lock (b : Bank) : TableRow.Statement (.lock b) := by cases b <;> rfl
theorem TableRow.clearErrors (b : Bank) : TableRow.Statement (.clearErrors b) := by cases b <;> rfl
theorem TableRow.eraseUnit (b : Bank) (idx : BitVec 8) : TableRow.Statement (.eraseUnit b idx) := by
  revert idx; cases b <;> unfold TableRow.Statement <;> decide
theorem TableRow.eraseBank (b : Bank) : TableRow.Statement (.eraseBank b) := by cases b <;> rfl
theorem TableRow.writeUnit (b : Bank) (idx : BitVec 8) : TableRow.Statement (.writeUnit b idx) := by
  revert idx; cases b <;> unfold TableRow.Statement <;> decide
theorem TableRow.readUnit (b : Bank) (idx : BitVec 8) : TableRow.Statement (.readUnit b idx) := by
  revert idx; cases b <;> unfold TableRow.Statement <;> decide
theorem TableRow.unitToAddress (b : Bank) (idx : BitVec 8) : TableRow.Statement (.unitToAddress b idx) := by
  revert idx; cases b <;> unfold TableRow.Statement <;> decide
theorem TableRow.keyrRd : TableRow.Statement .keyrRd := rfl
theorem TableRow.keyrWr : TableRow.Statement .keyrWr := rfl
theorem TableRow.srRd : TableRow.Statement .srRd := rfl
theorem TableRow.srWr : TableRow.Statement .srWr := rfl
theorem TableRow.crRd : TableRow.Statement .crRd := rfl
theorem TableRow.crWr : TableRow.Statement .crWr := rfl
theorem TableRow.rsvRd : TableRow.Statement .rsvRd := rfl
theorem TableRow.rsvWr : TableRow.Statement .rsvWr := rfl
theorem TableRow.arrRd8 : TableRow.Statement .arrRd8 := rfl
theorem TableRow.arrRd16 : TableRow.Statement .arrRd16 := rfl
theorem TableRow.arrRd32 : TableRow.Statement .arrRd32 := rfl
theorem TableRow.arrWr8 : TableRow.Statement .arrWr8 := rfl
theorem TableRow.arrWr16 : TableRow.Statement .arrWr16 := rfl
theorem TableRow.arrWr32 : TableRow.Statement .arrWr32 := rfl

end Sys2Proof.Laws
end

