-- ==== Sys2Proof/Tests/Slice0.lean ====
section
/-! SUPPORT. Tests/Slice0.lean: smoke tests of the well-formedness checks, decoding of words written out from
30_encoding.md, single steps whose expected values come from the spec's examples and from 95_test_vectors.md (named in
each comment), and, for every statement with hypotheses, a witness that meets them. -/
namespace Sys2Proof.Tests
open Sys2Proof.Machine

/-! ### Small states -/

/-- The reset state of a configuration. -/
def start (c : Config) : State := { State.reset with cfg := c }

/-- With a raw transaction's address and data on the bus lines. -/
def bus (s : State) (a v : Word) : State := { s with bus := { s.bus with addr := a, wdata := v } }

/-- With the first instance at a state of its sequence. -/
def seqAt (s : State) (st : SeqState) : State := s.onSeq .s1 fun q => { q with state := st }

/-- A group unlocked and idle. -/
def open1 (s : State) : State := s.onGrp .b1 fun g => { g with lock := false }

/-- Bank1's group with PG set, unlocked and idle. -/
def pg1 (s : State) : State := s.onGrp .b1 fun g => { g with lock := false, pg := true }

/-- Bank1 carrying out an operation. -/
def busy1 (s : State) (op : Operation) : State := s.onGrp .b1 fun g => { g with inflight := some op }

/-- Bank1's group with flags set. -/
def flag1 (s : State) : State := s.onGrp .b1 fun g => { g with sizerr := true }

/-- A field of the next state, none where there is none. -/
def after {α : Type} (o : Host.Outcome State Fault Refusal) (f : State → α) : Option α :=
  match o with
  | .next t => some (f t)
  | .fault _ => none
  | .refused _ => none

def tc1 : State := start Config.tc1
def tc2 : State := start Config.tc2

/-! ### Well-formedness: every check refuses an ill-formed term -/

theorem test_wf_tc1 : Config.tc1.wf = true := by decide
theorem test_wf_tc2 : Config.tc2.wf = true := by decide
theorem test_wf_origin_aligned : { Config.tc1 with flashOrigin := 0x08000004 }.originsAligned = false := by decide
theorem test_wf_flash_fits : { Config.tc2 with bankOrigin2 := 0xFFFFFFF8 }.flashFits = false := by decide
theorem test_wf_flash_disjoint : { Config.tc2 with bankOrigin2 := 0x080E0000 }.flashDisjoint = false := by decide
theorem test_wf_groups_aligned : { Config.tc1 with groupBase1 := 0x40022002 }.groupsPlaced = false := by decide
theorem test_wf_groups_disjoint : { Config.tc2 with groupBase2 := 0x4002200C }.groupsPlaced = false := by decide
theorem test_wf_group_in_flash : { Config.tc1 with groupBase1 := 0x0803FFFC }.groupsPlaced = false := by decide
theorem test_wf_counts_zero : { Config.tc1 with pageCount := 0 }.countsFit = false := by decide
theorem test_wf_counts_over : { Config.tc1 with pageCount := 257 }.countsFit = false := by decide
theorem test_wf_wrp_range : { Config.tc2 with wrpUnits2 := [8] }.wrpInRange = false := by decide
theorem test_wf_ecc_aligned : { Config.tc1 with eccFaulty := [0x08000004] }.eccAligned = false := by decide
theorem test_wf_budget : { Config.tc1 with pollBudget := some 0 }.budgetPositive = false := by decide
theorem test_wf_owned_bank : { Config.tc1 with owned2 := [.b2] }.ownedLegal = false := by decide
theorem test_wf_owned_disjoint : { Config.tc2 with owned2 := [.b1] }.ownedLegal = false := by decide
theorem test_wf_instr_bank : (Instr.unlock .b2).wfFor Config.tc1 = false := by decide

/-! ### Decoding: words written out bit by bit from R85, R86 and R87 -/

theorem test_decode_unlock : decode (.cmd 0b00000000000000000000000000000001#32) = .ok (.unlock .b1) := by decide
theorem test_decode_lock : decode (.cmd 0b00000000000000000000000000010010#32) = .ok (.lock .b2) := by decide
theorem test_decode_clear : decode (.cmd 0b00000000000000000000000000000011#32) = .ok (.clearErrors .b1) := by decide
theorem test_decode_erase_unit : decode (.cmd 0b00000000000000000000101000000100#32) = .ok (.eraseUnit .b1 10) := by decide
theorem test_decode_erase_bank : decode (.cmd 0b00000000000000000000000000010101#32) = .ok (.eraseBank .b2) := by decide
theorem test_decode_write : decode (.cmd 0b00000000000000001000000000000110#32) = .ok (.writeUnit .b1 128) := by decide
theorem test_decode_read : decode (.cmd 0b00000000000000000000101000000111#32) = .ok (.readUnit .b1 10) := by decide
theorem test_decode_translate : decode (.cmd 0b00000000000000000000011100011000#32) = .ok (.unitToAddress .b2 7) := by decide
theorem test_decode_keyr_rd : decode (.bus 0b0100000000000000#16) = .ok .keyrRd := by decide
theorem test_decode_keyr_wr : decode (.bus 0b1100000000000000#16) = .ok .keyrWr := by decide
theorem test_decode_sr_rd : decode (.bus 0b0100000000000100#16) = .ok .srRd := by decide
theorem test_decode_sr_wr : decode (.bus 0b1100000000000100#16) = .ok .srWr := by decide
theorem test_decode_cr_rd : decode (.bus 0b0100000000001000#16) = .ok .crRd := by decide
theorem test_decode_cr_wr : decode (.bus 0b1100000000001000#16) = .ok .crWr := by decide
theorem test_decode_rsv_rd : decode (.bus 0b0100000000001100#16) = .ok .rsvRd := by decide
theorem test_decode_rsv_wr : decode (.bus 0b1100000000001100#16) = .ok .rsvWr := by decide
theorem test_decode_arr_rd8 : decode (.bus 0b0001000000000000#16) = .ok .arrRd8 := by decide
theorem test_decode_arr_rd16 : decode (.bus 0b0011000000000000#16) = .ok .arrRd16 := by decide
theorem test_decode_arr_rd32 : decode (.bus 0b0101000000000000#16) = .ok .arrRd32 := by decide
theorem test_decode_arr_wr8 : decode (.bus 0b1001000000000000#16) = .ok .arrWr8 := by decide
theorem test_decode_arr_wr16 : decode (.bus 0b1011000000000000#16) = .ok .arrWr16 := by decide
theorem test_decode_arr_wr32 : decode (.bus 0b1101000000000000#16) = .ok .arrWr32 := by decide

/-- B1, B2 and K9: reserved operation, reserved bits, an index where none belongs. -/
theorem test_decode_refuses_commands :
    decode (.cmd 0x00000000) = .error .reservedOperation ∧ decode (.cmd 0x00000009) = .error .reservedOperation ∧
    decode (.cmd 0x0000000F) = .error .reservedOperation ∧ decode (.cmd 0x00000024) = .error .reservedCommandBits ∧
    decode (.cmd 0x00010004) = .error .reservedCommandBits ∧ decode (.cmd 0x00000101) = .error .indexNotZero := by
  decide

/-- R85: bits 11:4 set, SZ = 3, a register window that is not 32 bits wide, an offset of no register, OFF in an array
transaction. -/
theorem test_decode_refuses_descriptors :
    decode (.bus 0x4010) = .error .reservedDescriptorBits ∧ decode (.bus 0x7000) = .error .reservedSize ∧
    decode (.bus 0x2004) = .error .registerSize ∧ decode (.bus 0x4002) = .error .registerOffset ∧
    decode (.bus 0x1004) = .error .arrayOffset := by
  decide

/-! ### Single steps -/

/-- G1: KEYR reads 0; R101: the read returns K1 to K0. -/
theorem test_keyr_rd :
    after (exec .keyrRd ((bus tc1 0x40022000 0).onGrp .b1 fun g => { g with keyState := .k1 })) (fun t =>
      (t.bus.rdata, t.g1.keyState)) = some (0, .k0) := by decide

/-- X1, right order: key word 2 in K1 unlocks. -/
theorem test_keyr_wr_unlocks :
    after (exec .keyrWr ((bus tc1 0x40022000 0xCDEF89AB).onGrp .b1 fun g => { g with keyState := .k1 })) (fun t =>
      (crWord t.cfg t.g1, t.g1.keyState)) = some (0x00000000, .k0) := by decide

/-- G4: a wrong key under LockoutUntilReset. -/
theorem test_keyr_wr_lockout :
    after (exec .keyrWr (bus (start { Config.tc1 with keyErrorPolicy := .lockoutUntilReset }) 0x40022000 0)) (fun t =>
      (t.g1.lock, t.g1.keyLockout)) = some (true, true) := by decide

/-- R102, the example: SR after a successful erase reads 2. -/
theorem test_sr_rd :
    after (exec .srRd ((bus tc1 0x40022004 0).onGrp .b1 fun g => { g with eop := true })) (fun t => t.bus.rdata) =
      some 0x00000002 := by decide

/-- G23: SR = 0x7E, write 0x41, leaves 0x3E. -/
theorem test_sr_wr :
    after (exec .srWr ((bus tc1 0x40022004 0x00000041).onGrp .b1 fun g =>
      { g with eop := true, wrperr := true, sizerr := true, pgserr := true, eccerr := true, bsyerr := true })) (fun t =>
      srWord t.cfg t.g1) = some 0x0000003E := by decide

/-- G1: CR reads 0x8000_0000 after reset. -/
theorem test_cr_rd : after (exec .crRd (bus tc1 0x40022008 0)) (fun t => t.bus.rdata) = some 0x80000000 := by decide

/-- G7: the merged start: EraseUnit(10), SR = 1, CR reads 0x0000_0A02. -/
theorem test_cr_wr_merged :
    after (exec .crWr (bus (open1 tc1) 0x40022008 0x00000A0A)) (fun t =>
      (t.g1.inflight, srWord t.cfg t.g1, crWord t.cfg t.g1)) = some (some (.eraseUnit 10), 0x1, 0x00000A02) := by decide

/-- G15: a start while busy raises BSYERR (SR = 0x41) and changes no field. -/
theorem test_cr_wr_busy :
    after (exec .crWr (bus (busy1 ((open1 tc1).onGrp .b1 fun g => { g with uer := true, unb := 10 }) (.eraseUnit 10))
      0x40022008 0x00000A0A)) (fun t => (srWord t.cfg t.g1, crWord t.cfg t.g1)) = some (0x41, 0x00000A02) := by decide

/-- G1: the reserved word reads 0. -/
theorem test_rsv_rd :
    after (exec .rsvRd (bus tc1 0x4002200C 0)) (fun t => (t.bus.rdata, t.g1)) = some (0, Group.reset) := by decide

/-- R115 and G2: a reserved-word write has no effect but the interleave rule. -/
theorem test_rsv_wr :
    after (exec .rsvWr ((bus tc1 0x4002200C 0xFFFFFFFF).onGrp .b1 fun g => { g with keyState := .k1 })) (fun t => t.g1) =
      some Group.reset := by decide

/-- G21: a read of a busy bank stalls. -/
theorem test_arr_rd8_stalls :
    after (exec .arrRd8 (bus (busy1 tc1 (.program 0x08005000 0x1122334455667788)) 0x08005000 0)) (fun t => t.bus.stall) =
      some true := by decide

/-- W9: rd16 [0x08100002] = 0x0403. -/
theorem test_arr_rd16 :
    after (exec .arrRd16 (bus { tc2 with mem := [(0x08100002, 0x03), (0x08100003, 0x04)] } 0x08100002 0)) (fun t =>
      t.bus.rdata) = some 0x00000403 := by decide

/-- P1 read back: rd32 [0x08005004] = 0x11223344. -/
theorem test_arr_rd32 :
    after (exec .arrRd32 (bus { tc1 with
      mem := [(0x08005004, 0x44), (0x08005005, 0x33), (0x08005006, 0x22), (0x08005007, 0x11)] } 0x08005004 0)) (fun t =>
      t.bus.rdata) = some 0x11223344 := by decide

/-- G29: a misaligned read is refused. -/
theorem test_arr_rd32_misaligned :
    after (exec .arrRd32 (bus tc1 0x08005002 0)) (fun t => t.refusalMark) = some true := by decide

/-- R117: an 8-bit write never programs: SIZERR. -/
theorem test_arr_wr8 :
    after (exec .arrWr8 (bus (pg1 tc1) 0x08005000 0x12)) (fun t => (srWord t.cfg t.g1, t.mem)) = some (0x08, []) := by
  decide

/-- G17: a 16-bit write raises SIZERR. -/
theorem test_arr_wr16 :
    after (exec .arrWr16 (bus (pg1 tc1) 0x08005000 0x1234)) (fun t => srWord t.cfg t.g1) = some 0x08 := by decide

/-- G16: a write to a locked group raises PGSERR and leaves the array unchanged. -/
theorem test_arr_wr32_locked :
    after (exec .arrWr32 (bus tc1 0x08005000 0x12345678)) (fun t => (srWord t.cfg t.g1, t.mem)) = some (0x10, []) := by
  decide

/-- G20: the second half starts Program(0x08005000, 0x1122334455667788). -/
theorem test_arr_wr32_pair :
    after (exec .arrWr32 (bus ((pg1 tc1).onGrp .b1 fun g => { g with latch := some ⟨0x08005000, 0x55667788⟩ })
      0x08005004 0x11223344)) (fun t => t.g1.inflight) = some (some (.program 0x08005000 0x1122334455667788)) := by decide

/-- K2: unlock of an unlocked group is done after one CR read. -/
theorem test_unlock_idempotent :
    after (exec (.unlock .b1) (seqAt (open1 tc1) .ulReadCr)) (fun t => (t.q1.state, t.q1.res)) =
      some (.done, .ok) := by decide

/-- K3: with LOCK still 1 at UL_CHECK the result is FAILURE. -/
theorem test_unlock_failure :
    after (exec (.unlock .b1) (seqAt tc1 .ulCheck)) (fun t => (t.q1.state, t.q1.res, t.g1.lock)) =
      some (.done, .failure, true) := by decide

/-- K5: the lock write makes CR 0x8000_0A00. -/
theorem test_lock :
    after (exec (.lock .b1) (((seqAt (open1 tc1) .lkWriteCr).onGrp .b1 fun g => { g with unb := 10 }).onSeq .s1 fun q =>
      { q with crv := 0x00000A00 })) (fun t => (t.q1.state, crWord t.cfg t.g1)) = some (.done, 0x80000A00) := by decide

/-- K6: a lock wait that spends its budget of 1 answers TIMEOUT and still locks. -/
theorem test_lock_timeout :
    after (exec (.lock .b1) (busy1 (seqAt (open1 (start { Config.tc1 with pollBudget := some 1 })) .lkWait) (.eraseUnit 3)))
      (fun t => (t.q1.state, t.q1.res)) = some (.lkReadCr, .timeout) := by decide

/-- F1: the first write is 0x04: WRPERR is cleared alone. -/
theorem test_clear_errors :
    after (exec (.clearErrors .b1) (((seqAt tc1 .fcClear).onGrp .b1 fun g =>
      { g with eop := true, wrperr := true, sizerr := true, pgserr := true, eccerr := true, bsyerr := true }).onSeq .s1
        fun q => { q with fcm := 0x7C })) (fun t => (srWord t.cfg t.g1, t.q1.fcm)) = some (0x7A, 0x78) := by decide

/-- E4: the configure write of `erase_unit b2, 7` is 0x0001_0702. -/
theorem test_erase_unit_configure :
    after (exec (.eraseUnit .b2 7) ((seqAt tc2 .cfgWriteCr).onSeq .s1 fun q => { q with idx := 7 })) (fun t => t.q1.crv) =
      some 0x00010702 := by decide

/-- E2 and X6: index 128 is out of range of 128 pages, by the standard lock. -/
theorem test_erase_unit_range :
    after (exec (.eraseUnit .b1 128) ((seqAt tc1 .validate).onSeq .s1 fun q => { q with idx := 128 })) (fun t =>
      (t.q1.state, t.q1.res)) = some (.lkWait, .pageOutOfRange) := by decide

/-- E6: the start write 0x000C of `erase_bank b1` starts the mass erase. -/
theorem test_erase_bank_start :
    after (exec (.eraseBank .b1) (((seqAt (open1 tc1) .start).onGrp .b1 fun g => { g with mer := true }).onSeq .s1 fun q =>
      { q with crv := 0x00000004 })) (fun t => (t.g1.inflight, t.q1.state)) = some (some .eraseBank, .waitBsy) := by decide

/-- W3: 257 words do not fit a 2 KiB page. -/
theorem test_write_unit_range :
    after (exec (.writeUnit .b1 10) ((seqAt tc1 .validate).onSeq .s1 fun q => { q with idx := 10, arg1 := 257 })) (fun t =>
      (t.q1.state, t.q1.res)) = some (.lkWait, .pageOutOfRange) := by decide

/-- P1 row 9: the low half 0x5566_7788 goes to 0x0800_5000. -/
theorem test_write_unit_low :
    after (exec (.writeUnit .b1 10) ((seqAt (pg1 tc1) .pgWriteLo).onSeq .s1 fun q =>
      { q with addr := 0x08005000, arg1 := 1, dbuf := [0x1122334455667788] })) (fun t => t.g1.latch) =
      some (some ⟨0x08005000, 0x55667788⟩) := by decide

/-- A5: offset 2041 and 8 bytes leave the page. -/
theorem test_read_unit_range :
    after (exec (.readUnit .b1 10) ((seqAt tc1 .validate).onSeq .s1 fun q => { q with idx := 10, arg0 := 2041, arg1 := 8 }))
      (fun t => (t.q1.state, t.q1.res)) = some (.done, .pageOutOfRange) := by decide

/-- R223: the byte at ADDR goes to RBUF[0]; with LEN = 1 the command is done. -/
theorem test_read_unit_byte :
    after (exec (.readUnit .b1 10) ((seqAt { tc1 with mem := [(0x08005000, 0x88)] } .rdByte).onSeq .s1 fun q =>
      { q with addr := 0x08005000, arg1 := 1 })) (fun t => (t.q1.state, t.q1.res, t.q1.rbuf)) =
      some (.done, .ok, [(0, 0x88)]) := by decide

/-- A7: a byte of an ECC-faulty double-word raises ECCERR and the command ends OK. -/
theorem test_read_unit_ecc :
    after (exec (.readUnit .b1 10) ((seqAt (start { Config.tc1 with eccFaulty := [0x08005000] }) .rdByte).onSeq .s1 fun q =>
      { q with addr := 0x08005000, arg1 := 1 })) (fun t => (t.q1.state, t.q1.res, t.g1.eccerr)) =
      some (.done, .ok, true) := by decide

/-- A3: (7, b2) is at 0x081E_0000. -/
theorem test_unit_to_address :
    after (exec (.unitToAddress .b2 7) ((seqAt tc2 .validate).onSeq .s1 fun q => { q with idx := 7 })) (fun t =>
      (t.q1.res, t.q1.raddr)) = some (.ok, 0x081E0000) := by decide

/-- A2: index 128 is PAGE_OUT_OF_RANGE. -/
theorem test_unit_to_address_range :
    after (exec (.unitToAddress .b1 128) ((seqAt tc1 .validate).onSeq .s1 fun q => { q with idx := 128 })) (fun t =>
      (t.q1.state, t.q1.res)) = some (.done, .pageOutOfRange) := by decide

/-- E9: BANK = 1 in PAGE_SINGLE is BAD_COMMAND. -/
theorem test_bad_command :
    after (step ((tc1.onSeq .s1 fun q => { q with state := .decode, cmd := 0x00000A14 }).withFetchWord 32 0x00000A14))
      (fun t => (t.q1.state, t.q1.res)) = some (.done, .badCommand) := by decide

/-- The host's placing of an instruction: the first step after reset runs it (R242: OPR, BK and IDX loaded). -/
theorem test_fetch_command :
    after (step (State.reset.withFetchWord 32 0x00000A04)) (fun t => (t.q1.state, t.q1.opr, t.q1.bk, t.q1.idx)) =
      some (.ulReadCr, 0x4, .b1, 10) := by decide

theorem test_fetch_bus :
    after (step (State.reset.withFetchWord 16 0x4008)) (fun t => (t.bus.rdata, t.masters)) =
      some (0x80000000, [[]]) := by decide

theorem test_table_word :
    decodeTableWord 32 0x00000A04 = some (.eraseUnit .b1 10) ∧ decodeTableWord 16 0xC008 = some .crWr ∧
    decodeTableWord 16 0x7000 = none := by decide


/-! ### Witnesses: for each statement with hypotheses, concrete states and operands that meet them, for each clause -/

/-- Instance 1 about to decode a command word, its move being next. -/
def atDecode (c : Config) (w : Word) : State :=
  { (start c).onSeq .s1 fun q => { q with state := .decode, cmd := w } with sched := [.seq .s1] }

/-- Instance 1 owns nothing. -/
def noOwner : Config := { Config.tc1 with owned1 := [] }

/-- Instance 1 at a state of a command's sequence with the registers the clauses ask for. -/
def cmdAt (s : State) (st : SeqState) (f : Sequencer → Sequencer) : State := (seqAt s st).onSeq .s1 f

theorem tc1_wf : Config.tc1.wf = true := by decide
theorem tc2_wf : Config.tc2.wf = true := by decide

theorem ready_tc1 : Ready (seqAt tc1 .decode) .b1 := ⟨by decide, by decide, by decide, by decide⟩
theorem ready_tc2 : Ready (seqAt tc2 .decode) .b2 := ⟨by decide, by decide, by decide, by decide⟩

theorem witness_encode_of_decode :
    decode (.cmd 0x0000FF08) = .ok (.unitToAddress .b1 255) ∧ decode (.bus 0xD000) = .ok .arrWr32 := by decide

theorem witness_illegal_command (w : Word) :
    (atDecode Config.tc1 w).cfg.wf = true ∧ (atDecode Config.tc1 w).sched = [.seq .s1] ∧
    ((atDecode Config.tc1 w).seq .s1).state = .decode := ⟨tc1_wf, rfl, rfl⟩

/-- The words of the six encoding clauses, at the boundaries of their ranges. -/
theorem witness_illegal_words :
    (0x00000000#32).extractLsb' 0 4 = 0 ∧ 9 ≤ ((0x00000009#32).extractLsb' 0 4).toNat ∧
    9 ≤ ((0x0000000F#32).extractLsb' 0 4).toNat ∧ (0x00000024#32).extractLsb' 5 3 ≠ 0 ∧
    (0x00000084#32).extractLsb' 5 3 ≠ 0 ∧ (0x00010004#32).extractLsb' 16 16 ≠ 0 ∧
    (0x80000004#32).extractLsb' 16 16 ≠ 0 := by decide

theorem witness_illegal_index :
    (0x00000101#32).extractLsb' 8 8 ≠ 0 ∧ ((0x00000101#32).extractLsb' 0 4).toNat ∈ [1, 2, 3, 5] ∧
    (0x0000FF05#32).extractLsb' 8 8 ≠ 0 ∧ ((0x0000FF05#32).extractLsb' 0 4).toNat ∈ [1, 2, 3, 5] ∧
    (0x00000A14#32).getLsbD 4 = true ∧ Config.tc1.variant = .pageSingle := by decide

theorem witness_illegal_bank :
    noOwner.wf = true ∧ (atDecode noOwner 0x00000A04).sched = [.seq .s1] ∧ Bank.b1 ∉ noOwner.owned .s1 ∧
    ((atDecode noOwner 0x00000A04).seq .s1).state = .decode := by decide

theorem witness_decode_loads :
    (seqAt tc2 .decode).cur.state = .decode ∧ (seqAt tc2 .decode).cfg.hasBank .b2 = true ∧
    Bank.b2 ∈ (seqAt tc2 .decode).cfg.owned (seqAt tc2 .decode).turn := by decide

theorem witness_reset_idle :
    ({ tc1 with sched := [.reset] } : State).cfg.wf = true ∧ ({ tc1 with sched := [.reset] } : State).sched = [.reset] ∧
    ∀ b, ({ tc1 with sched := [.reset] } : State).grp b = Group.reset :=
  ⟨by decide, rfl, fun b => by cases b <;> rfl⟩

/-- The targets of the three operations, at their first bytes and at the bytes before them. -/
theorem witness_reset_target :
    (busy1 { tc2 with sched := [.reset] } (.eraseUnit 7)).cfg.wf = true ∧
    (busy1 { tc2 with sched := [.reset] } (.eraseUnit 7)).g1.inflight = some (.eraseUnit 7) ∧
    ¬(Config.tc2.origin .b1 + 7 * Config.tc2.unitSize ≤ 0x080DFFFF) ∧
    (busy1 tc2 .eraseBank).g1.inflight = some .eraseBank ∧
    ¬(0x08100000 < Config.tc2.origin .b1 + Config.tc2.unitCount * Config.tc2.unitSize) ∧
    (busy1 tc2 (.program 0x08000008 1)).g1.inflight = some (.program 0x08000008 1) ∧ ¬((0x08000008#32).toNat ≤ 0x08000007) := by
  decide

theorem access_keyr (v : Word) : RegisterAccess (bus tc1 0x40022000 v) .b1 0x0 :=
  ⟨tc1_wf, rfl, rfl, rfl⟩
theorem access_cr (v : Word) : RegisterAccess (bus (open1 tc1) 0x40022008 v) .b1 0x8 :=
  ⟨tc1_wf, rfl, rfl, rfl⟩
theorem witness_register_access :
    RegisterAccess (bus tc2 0x40022100 0) .b2 0x0 ∧ RegisterAccess (bus tc2 0x4002210C 0) .b2 0xC ∧
    RegisterAccess (bus tc2 0x40022104 0) .b2 0x4 ∧ RegisterAccess (bus tc2 0x40022108 0) .b2 0x8 :=
  ⟨⟨by decide, by decide, by decide, by decide⟩, ⟨by decide, by decide, by decide, by decide⟩,
    ⟨by decide, by decide, by decide, by decide⟩, ⟨by decide, by decide, by decide, by decide⟩⟩

/-- The six clauses of the KEYR write: unlocked; locked out; right and wrong word 1; right and wrong word 2. -/
theorem witness_keyr_write :
    (open1 tc1).g1.lock = false ∧
    (tc1.onGrp .b1 fun g => { g with keyLockout := true }).g1.keyLockout = true ∧
    tc1.g1.lock = true ∧ tc1.g1.keyState = .k0 ∧ tc1.g1.keyLockout = false ∧
    (bus tc1 0x40022000 0x45670123).bus.wdata = 0x45670123 ∧ (bus tc1 0x40022000 0xCDEF89AB).bus.wdata ≠ 0x45670123 ∧
    (tc1.onGrp .b1 fun g => { g with keyState := .k1 }).g1.keyState = .k1 ∧
    (bus tc1 0x40022000 0xCDEF89AB).bus.wdata = 0xCDEF89AB ∧ (bus tc1 0x40022000 0x45670123).bus.wdata ≠ 0xCDEF89AB := by
  decide

theorem witness_interleaved :
    (Instr.srRd, 0x4) ∈ [(Instr.keyrRd, 0x0), (Instr.srRd, 0x4), (Instr.srWr, 0x4), (Instr.crRd, 0x8), (Instr.crWr, 0x8),
      (Instr.rsvRd, 0xC), (Instr.rsvWr, 0xC)] ∧ RegisterAccess (bus tc1 0x40022004 0) .b1 0x4 ∧ tc1.g1.lock = true :=
  ⟨by decide, ⟨by decide, by decide, by decide, by decide⟩, rfl⟩

theorem witness_cr_write :
    tc1.g1.lock = true ∧ (busy1 (open1 tc1) .eraseBank).g1.lock = false ∧ (busy1 (open1 tc1) .eraseBank).g1.inflight ≠ none ∧
    (open1 tc1).g1.lock = false ∧ (open1 tc1).g1.inflight = none ∧ (0x80000A02#32).getLsbD 3 = false ∧
    (0x00000A0A#32).getLsbD 3 = true ∧ (0x00000A0A#32).getLsbD 31 = false := by decide

/-- A start write on an unlocked group, with or without a flag pending: PGSERR, WRPERR and what was started. -/
def go (c : Config) (flag : Bool) (v : Word) : Option (Bool × Bool × Option Operation) :=
  after (exec .crWr (bus (if flag then flag1 (open1 (start c)) else open1 (start c)) 0x40022008 v)) fun t =>
    (t.g1.pgserr, t.g1.wrperr, t.g1.inflight)

/-- The branches of the start evaluation, each reached: a pending flag; PG, no enable, both enables; a wrong BKSEL; UNB one
past the last unit; a protected unit; the last unit; a protected bank; a bank. -/
theorem witness_start_checks :
    go Config.tc1 true 0x00000A0A = some (true, false, none) ∧ go Config.tc1 false 0x0000000B = some (true, false, none) ∧
    go Config.tc1 false 0x00000008 = some (true, false, none) ∧ go Config.tc1 false 0x0000000E = some (true, false, none) ∧
    go Config.tc2 false 0x0001030A = some (true, false, none) := by decide

theorem witness_start_checks_starts :
    go Config.tc1 false 0x0000800A = some (true, false, none) ∧
    go { Config.tc1 with wrpUnits1 := [10] } false 0x00000A0A = some (false, true, none) ∧
    go Config.tc1 false 0x00007F0A = some (false, false, some (.eraseUnit 127)) ∧
    go { Config.tc1 with wrpUnits1 := [10] } false 0x0000000C = some (false, true, none) ∧
    go Config.tc1 false 0x0000000C = some (false, false, some .eraseBank) := by decide

theorem access_array (a : Word) (h : Config.tc1.inFlash .b1 a.toNat = true) (v : Word) (f : Group → Group) :
    ArrayAccess ((bus tc1 a v).onGrp .b1 f) .b1 := ⟨tc1_wf, rfl, h⟩

/-- The branches of the array write, each reached at the first and the last double-word of the bank. -/
theorem witness_array_write :
    Config.tc1.inFlash .b1 0x08000000 = true ∧ Config.tc1.inFlash .b1 0x0803FFFF = true ∧
    Config.tc1.inFlash .b1 0x08040000 = false ∧
    (busy1 (pg1 tc1) .eraseBank).g1.inflight ≠ none ∧ (pg1 tc1).g1.inflight = none ∧ tc1.g1.lock = true ∧
    (pg1 tc1).g1.lock = false ∧ (pg1 tc1).g1.pg = true ∧ (pg1 tc1).g1.uer = false ∧ (pg1 tc1).g1.mer = false ∧
    (pg1 tc1).g1.latch = none ∧ (flag1 (pg1 tc1)).g1.sizerr = true ∧ (0x0803FFF8#32).toNat % 8 = 0 ∧
    (0x0803FFFC#32).toNat % 8 ≠ 0 ∧ (0x0803FFFC#32).toNat = (0x0803FFF8#32).toNat + 4 ∧
    Config.tc1.unitOf .b1 0x0803FFF8 = 127 := by decide

theorem witness_array_read :
    (busy1 tc1 .eraseBank).g1.inflight ≠ none ∧ tc1.g1.inflight = none ∧ (0x0803FFFC#32).toNat % 4 = 0 ∧
    (∀ k, k < 4 → ((0x0803FFFC#32).toNat + k) / 8 * 8 ∉ Config.tc1.eccFaulty) ∧
    (0x08005007 + 0) / 8 * 8 ∈ { Config.tc1 with eccFaulty := [0x08005000] }.eccFaulty ∧
    (0x08005008 + 0) / 8 * 8 ∉ { Config.tc1 with eccFaulty := [0x08005000] }.eccFaulty := by decide

/-- The refused transactions: without the clock; misaligned reads; and a master's illegal descriptors in a register window
(SZ = 3, 16 bits, offset 2) and in a flash window (SZ = 3). -/
theorem witness_refused :
    ({ Config.tc1 with clockEnabled := false }).clockEnabled = false ∧ (0x08005002#32).toNat % 4 ≠ 0 ∧
    (0x08005001#32).toNat % 2 ≠ 0 := by decide

theorem witness_refused_register :
    (Config.tc1.groupBank 0x40022004).isSome = true ∧ (0x6000#16).extractLsb' 13 2 = 3 ∧
    (0x2004#16).getLsbD 12 = false ∧ (0x2004#16).extractLsb' 13 2 ≠ 2 ∧
    (0x4002#16).getLsbD 12 = false ∧ (0x4002#16).extractLsb' 0 2 ≠ 0 := ⟨rfl, rfl, rfl, by decide, rfl, by decide⟩

/-- A register transaction at a misaligned address and at another register's; array transactions at a register; a register
transaction at an array address (G29). -/
theorem witness_refused_window :
    (Instr.srRd, 0x4) ∈ regOffsets ∧ .srRd ∈ regInstrs ∧ Config.tc1.groupBank 0x40022006 = some .b1 ∧
    0x40022006 % 4 ≠ 0 ∧ Config.tc1.groupBank 0x40022008 = some .b1 ∧ 0x40022008 ≠ Config.tc1.groupBase .b1 + 0x4 ∧
    (Config.tc1.groupBank 0x4002200F).isSome = true ∧ (Config.tc1.groupBank 0x40022010).isSome = false ∧
    (Config.tc1.flashBank 0x08000000).isSome = true := by decide

/-- G29: rd16 at SR is refused. -/
theorem test_rd16_at_register :
    after (exec .arrRd16 (bus tc1 0x40022004 0)) (fun t => (t.refusalMark, t.bus.rdata)) = some (true, 0) := by decide

theorem witness_refused_array :
    (Config.tc1.flashBank 0x08005000).isSome = true ∧ (0x7000#16).extractLsb' 13 2 = 3 ∧
    ({ tc1 with masters := [[⟨0x7000, 0x08005000, 0⟩]], sched := [.master 0] } : State).masters[0]? =
      some [⟨0x7000, 0x08005000, 0⟩] := ⟨rfl, rfl, rfl⟩

theorem witness_foreign :
    tc1.cfg.clockEnabled = true ∧ tc1.cfg.groupBank (bus tc1 0x40022010 0).bus.addr.toNat = none ∧
    tc1.cfg.flashBank (bus tc1 0x40022010 0).bus.addr.toNat = none := by decide

theorem witness_engine (op : Operation) :
    (busy1 { tc2 with sched := [.engine .b1] } op).cfg.wf = true ∧
    (busy1 { tc2 with sched := [.engine .b1] } op).sched = [.engine .b1] ∧
    ((busy1 { tc2 with sched := [.engine .b1] } op).grp .b1).inflight = some op := ⟨tc2_wf, rfl, rfl⟩

/-- A program that succeeds (erased, or data 0) and one that fails. -/
theorem witness_program :
    (∀ i, i < 8 → tc1.mem.read (0x08005000 + i) = 0xFF) ∧ tc1.cfg.rewriteCheck = .content ∧
    ({ tc1 with mem := [(0x08005003, 0)] } : State).mem.read 0x08005003 ≠ 0xFF ∧ (5#64) ≠ 0 := by decide

theorem witness_step_runs :
    ((atDecode Config.tc1 0x00000A04).seq .s1).state = .decode ∧
    decode (.cmd ((atDecode Config.tc1 0x00000A04).seq .s1).cmd) = .ok (.eraseUnit .b1 10) ∧
    atRest ((cmdAt tc1 .start fun q => { q with opr := 4, idx := 10 }).seq .s1).state = false ∧
    commandOf 4 .b1 10 = some (.eraseUnit .b1 10) ∧ decode (.bus 0x4008) = .ok .crRd ∧
    ({ tc1 with masters := [[⟨0x4008, 0x40022008, 0⟩]] } : State).masters[0]? = some [⟨0x4008, 0x40022008, 0⟩] := by decide

theorem witness_host_port :
    ({ tc1 with p1 := { queue := [.issue 0x0A04 0 0 []], ret := none }, sched := [.host .s1] } : State).p1.queue =
      [.issue 0x0A04 0 0 []] ∧ (tc1.seq .s1).state = .idle ∧
    ({ tc1 with p1 := { queue := [.collect], ret := none }, sched := [.host .s1] } : State).p1.queue = [.collect] ∧
    ((seqAt tc1 .done).seq .s1).state = .done := by decide

theorem witness_unlock_sequence :
    tc1.cfg.clockEnabled = true ∧ (seqAt tc1 .ulReadCr).cur.state = .ulReadCr ∧ (seqAt tc1 .ulKey1).cur.state = .ulKey1 ∧
    tc1.g1.lock = true ∧ tc1.g1.keyState = .k0 ∧ tc1.g1.keyLockout = false ∧ (seqAt tc1 .ulKey2).cur.state = .ulKey2 ∧
    (tc1.onGrp .b1 fun g => { g with keyState := .k1 }).g1.keyState = .k1 ∧ (seqAt tc1 .ulCheck).cur.state = .ulCheck := by
  decide

theorem witness_standard_lock :
    (seqAt tc1 .lkWait).cur.state = .lkWait ∧ (seqAt tc1 .lkReadCr).cur.state = .lkReadCr ∧
    (cmdAt (open1 tc1) .lkWriteCr fun q => { q with crv := 0 }).cur.crv = crWord Config.tc1 (open1 tc1).g1 ∧
    (open1 tc1).g1.lock = false ∧ (open1 tc1).g1.inflight = none := by decide

/-- The immediate re-lock of a busy group, and a lock of a group already locked. -/
theorem witness_relock :
    (cmdAt (busy1 (open1 tc1) .eraseBank) .lkWriteCr fun q => { q with crv := 0 }).cur.crv =
      crWord Config.tc1 (busy1 (open1 tc1) .eraseBank).g1 ∧ (busy1 (open1 tc1) .eraseBank).g1.inflight ≠ none ∧
    (cmdAt tc1 .lkWriteCr fun q => { q with crv := 0x80000000 }).cur.crv = crWord Config.tc1 tc1.g1 := by decide

/-- FCM with its lowest bit at the first and the last error flag. -/
theorem witness_flag_clear :
    (seqAt tc1 .fcReadSr).cur.state = .fcReadSr ∧ (seqAt tc1 .fcClear).cur.fcm = 0 ∧
    (0x7C#32).getLsbD 2 = true ∧ (∀ j, j < 2 → (0x7C#32).getLsbD j = false) ∧
    (0x40#32).getLsbD 6 = true ∧ (∀ j, j < 6 → (0x40#32).getLsbD j = false) := by decide

theorem witness_busy_and_post :
    (seqAt tc1 .busyCheck).cur.state = .busyCheck ∧ (seqAt tc1 .postCheck).cur.state = .postCheck ∧
    (busy1 tc1 .eraseBank).g1.inflight ≠ none := by decide

theorem witness_erase_configure :
    (open1 tc1).g1.lock = false ∧ (open1 tc1).g1.inflight = none ∧ (0x00000A02#32).getLsbD 31 = false ∧
    crWord Config.tc1 { (open1 tc1).g1 with uer := true, unb := 127 } = 0x00007F02 ∧
    (open1 tc1).g1.errorPending = false ∧ (127#8).toNat < Config.tc1.unitCount ∧ (127#8).toNat ∉ Config.tc1.wrpUnits .b1 ∧
    crWord Config.tc1 { (open1 tc1).g1 with mer := true } = 0x00000004 ∧ Config.tc1.wrpUnits .b1 = [] := by decide

theorem witness_program_configure :
    tc1.cfg.wf = true ∧ tc1.cfg.hasBank .b1 = true ∧ (127#8).toNat < Config.tc1.unitCount ∧
    (0x00000000#32) = crWord Config.tc1 (open1 tc1).g1 ∧ [0x1122334455667788#64][0]? = some 0x1122334455667788 ∧
    (pg1 tc1).g1.pg = true ∧ (pg1 tc1).g1.uer = false ∧ (pg1 tc1).g1.mer = false ∧ (pg1 tc1).g1.lock = false ∧
    (pg1 tc1).g1.inflight = none ∧ (pg1 tc1).g1.latch = none ∧ (pg1 tc1).g1.errorPending = false ∧
    Config.tc1.inFlash .b1 (0x0803FFF8#32).toNat = true ∧ (0x0803FFF8#32).toNat % 8 = 0 ∧
    Config.tc1.unitOf .b1 (0x0803FFF8#32).toNat ∉ Config.tc1.wrpUnits .b1 ∧
    (0x0803FFF8#32 + 4).toNat = (0x0803FFF8#32).toNat + 4 ∧ Config.tc1.inFlash .b1 (0x0803FFF8#32 + 4).toNat = true := by
  decide

/-- The last unit, the last bytes of a unit, an empty read and the last byte of the bank. -/
theorem witness_translate_and_read :
    tc1.cfg.wf = true ∧ tc1.cfg.hasBank .b1 = true ∧ (127#8).toNat < Config.tc1.unitCount ∧
    Config.tc1.unitCount ≤ (128#8).toNat ∧ (2040#32).toNat + (8#32).toNat ≤ Config.tc1.unitSize ∧ (8#32) ≠ 0 ∧
    tc1.cfg.clockEnabled = true ∧ tc1.cfg.inFlash .b1 (0x0803FFFF#32).toNat = true ∧ tc1.g1.inflight = none ∧
    (0x0803FFFF#32).toNat / 8 * 8 ∉ Config.tc1.eccFaulty ∧ (busy1 tc1 .eraseBank).g1.inflight ≠ none := by decide

/-- The waits at a budget of 1 (spent by the first read) and of 2 (not spent), with EOP read 1 and 0. -/
theorem witness_wait_loops :
    (seqAt tc1 .waitBsy).cur.state = .waitBsy ∧ (seqAt tc1 .waitEop).cur.state = .waitEop ∧
    (seqAt tc1 .ackEop).cur.state = .ackEop ∧ (seqAt tc1 .waitBsy).cur.polls = 0 ∧ Config.tc1.hasEop = true ∧
    (tc1.onGrp .b1 fun g => { g with eop := true }).g1.eop = true ∧ tc1.g1.eop = false := by decide

theorem witness_budget :
    (∃ n, { Config.tc1 with pollBudget := some 1 }.pollBudget = some n ∧ n ≤ (seqAt tc1 .waitBsy).cur.polls + 1) ∧
    (∀ n, { Config.tc1 with pollBudget := some 2 }.pollBudget = some n → (seqAt tc1 .waitBsy).cur.polls + 1 < n) ∧
    (busy1 (seqAt tc1 .waitBsy) .eraseBank).g1.inflight ≠ none :=
  ⟨⟨1, rfl, by decide⟩, fun n h => by injection h with h; subst h; decide, by decide⟩

/-- D32: a wait with a budget of 1 gives TIMEOUT after its first read, also when POLLS is about to pass 2^32. -/
theorem test_budget :
    after (exec (.eraseBank .b1) (cmdAt (busy1 (start { Config.tc1 with pollBudget := some 1 }) .eraseBank) .waitBsy id))
      (fun t => (t.q1.state, t.q1.res)) = some (.lkReadCr, .timeout) ∧
    after (exec (.eraseBank .b1) (cmdAt (busy1 (start { Config.tc1 with pollBudget := some (2 ^ 32) }) .eraseBank)
      .waitBsy fun q => { q with polls := 2 ^ 32 - 1 })) (fun t => (t.q1.state, t.q1.res)) =
      some (.lkReadCr, .timeout) := by decide

theorem witness_runs :
    Ready (seqAt tc1 .decode) .b1 ∧ unlockable ((seqAt tc1 .decode).grp .b1) ∧ enginesIdle (seqAt tc1 .decode) ∧
    ((seqAt tc1 .decode).grp .b1).inflight = none ∧ ((seqAt tc1 .decode).grp .b1).latch = none ∧
    (127#8).toNat < Config.tc1.unitCount ∧ (127#8).toNat ∉ Config.tc1.wrpUnits .b1 ∧ Config.tc1.wrpUnits .b1 = [] :=
  ⟨ready_tc1, fun _ => rfl, ⟨rfl, rfl⟩, rfl, rfl, by decide, by decide, rfl⟩

/-- 256 words fill a page (W2); each double-word of the erased page takes any word. -/
theorem witness_write_run :
    8 * (256#32).toNat ≤ Config.tc1.unitSize ∧
    (∀ k, k < (256#32).toNat → ∀ j, j < 8 →
      (seqAt tc1 .decode).mem.read (Config.tc1.origin .b1 + 127 * Config.tc1.unitSize + 8 * k + j) = 0xFF) ∧
    Config.tc1.rewriteCheck = .content := ⟨by decide, fun _ _ _ _ => rfl, rfl⟩

/-- A read of the last bytes of the unit, with none of them and with the last of them in a faulty double-word. -/
theorem witness_read_run :
    (2040#32).toNat + (8#32).toNat ≤ Config.tc1.unitSize ∧
    (∀ k, k < (8#32).toNat → (Config.tc1.origin .b1 + 127 * Config.tc1.unitSize + 2040 + k) / 8 * 8 ∉ Config.tc1.eccFaulty) ∧
    (Config.tc1.origin .b1 + 127 * Config.tc1.unitSize + 2040 + 7) / 8 * 8 ∈
      { Config.tc1 with eccFaulty := [0x0803FFF8] }.eccFaulty := by
  decide

theorem witness_busy_exit :
    Ready (busy1 (seqAt tc1 .decode) .eraseBank) .b1 ∧ unlockable ((busy1 (seqAt tc1 .decode) .eraseBank).grp .b1) ∧
    ((busy1 (seqAt tc1 .decode) .eraseBank).grp .b1).inflight ≠ none :=
  ⟨⟨by decide, by decide, by decide, by decide⟩, fun _ => rfl, by decide⟩

theorem witness_failure_exit :
    (cmdAt (open1 tc1) .postCheck fun q => { q with srv := 0x10 }).cur.state = .postCheck ∧
    (cmdAt (open1 tc1) .postCheck fun q => { q with srv := 0x10 }).cur.srv &&& 0x0000007C ≠ 0 ∧
    (cmdAt (open1 tc1) .postCheck fun q => { q with srv := 0x10 }).g1.lock = false ∧
    (cmdAt (open1 tc1) .postCheck fun q => { q with srv := 0x10 }).g1.inflight = none := by decide

theorem witness_out_of_range :
    Config.tc1.unitCount ≤ (128#8).toNat ∧ Config.tc1.unitSize < 8 * (257#32).toNat ∧
    unlockable ((seqAt tc1 .decode).grp .b1) := ⟨by decide, by decide, fun _ => rfl⟩

/-- Instance 1 about to run a command on a group locked out by a wrong key. -/
def lockedOut : State :=
  (seqAt (start { Config.tc1 with keyErrorPolicy := .lockoutUntilReset }) .decode).onGrp .b1 fun g =>
    { g with keyLockout := true }

theorem witness_unlock_failure :
    Ready lockedOut .b1 ∧ (lockedOut.grp .b1).lock = true ∧ (lockedOut.grp .b1).keyLockout = true :=
  ⟨⟨by decide, by decide, by decide, by decide⟩, rfl, rfl⟩

/-- TC1 with unit 3 protected. -/
def guarded : Config := { Config.tc1 with wrpUnits1 := [3] }

/-- A machine in mid-command: unit 10 of Bank1 being erased, unit 3 protected, instance 1 at LK_WRITE_CR. -/
def midway (a : Agent) : State :=
  { (cmdAt (start guarded) .lkWriteCr fun q => { q with opr := 4, idx := 10 }).onGrp .b1 fun g =>
      { g with lock := false, uer := true, unb := 10, inflight := some (.eraseUnit 10) } with sched := [a] }

theorem guarded_facts : guarded.wf = true ∧ (10#8).toNat < guarded.unitCount ∧ (10#8).toNat ∉ guarded.wrpUnits .b1 ∧
    stateOfCommand 4 .lkWriteCr = true ∧ bankLegal guarded .s1 .b1 = true := by decide

theorem midway_inv (a : Agent) : Machine.Inv (midway a) where
  config := guarded_facts.1
  memory := ⟨.nil, fun _ h => absurd h List.not_mem_nil⟩
  marks := .nil
  group1 := ⟨nofun, nofun, nofun, nofun, fun op h => by
      injection h with h; subst h; exact ⟨guarded_facts.2.1, guarded_facts.2.2.1⟩, fun _ _ => rfl, nofun, fun _ => rfl⟩
  group2 := GroupInv.reset _ _
  seq1 := ⟨guarded_facts.2.2.2.1, fun _ => guarded_facts.2.2.2.2⟩
  seq2 := ⟨rfl, fun h => absurd rfl h⟩
  addr1 := ⟨nofun, nofun, nofun⟩
  addr2 := ⟨nofun, nofun, nofun⟩

theorem midway_lockInv (a : Agent) : LockInv (midway a) :=
  ⟨fun _ h => absurd h List.not_mem_nil, fun n => by cases n <;> nofun⟩

theorem witness_invariant : Machine.Inv (midway (.engine .b1)) ∧ (∃ t, step (midway (.engine .b1)) = .next t) :=
  ⟨midway_inv _, _, rfl⟩

theorem witness_lock_invariant :
    Machine.Inv (midway (.seq .s1)) ∧ LockInv (midway (.seq .s1)) ∧ (∃ t, step (midway (.seq .s1)) = .next t) :=
  ⟨midway_inv _, midway_lockInv _, _, rfl⟩

theorem witness_sequencer_in_its_banks :
    Machine.Inv (midway (.seq .s1)) ∧ (midway (.seq .s1)).mover = some (.seq .s1) ∧ Bank.b2 ∉ Config.tc1.owned .s1 ∧
    (midway (.seq .s1)).cfg.clockEnabled = true := ⟨midway_inv _, rfl, by decide, rfl⟩

theorem witness_no_cancel :
    (midway (.seq .s1)).g1.inflight = some (.eraseUnit 10) ∧ (midway (.seq .s1)).mover ≠ some (.engine .b1) ∧
    (midway (.seq .s1)).mover ≠ some .reset ∧ (∃ t, step (midway (.seq .s1)) = .next t) :=
  ⟨rfl, by decide, by decide, _, rfl⟩

theorem witness_locked_starts_nothing :
    ({ tc1 with sched := [.seq .s1] } : State).g1.lock = true ∧ ({ tc1 with sched := [.seq .s1] } : State).g1.inflight = none ∧
    (∃ t, step { tc1 with sched := [.seq .s1] } = .next t) := ⟨rfl, rfl, _, rfl⟩

/-- An erase completes, and a reset cuts one short, beside the protected unit 3, at its first and last byte. -/
theorem witness_protected :
    (∃ t, step (midway (.engine .b1)) = .next t) ∧ (∃ t, step (midway .reset) = .next t) ∧
    (midway .reset).cfg.hasBank .b1 = true ∧ 3 ∈ (midway .reset).cfg.wrpUnits .b1 ∧ 0 < (midway .reset).cfg.unitSize ∧
    2047 < (midway .reset).cfg.unitSize := ⟨⟨_, rfl⟩, ⟨_, rfl⟩, by decide, by decide, by decide, by decide⟩

theorem witness_engines_independent :
    Machine.Inv (midway (.engine .b1)) ∧ (midway (.engine .b1)).mover = some (.engine .b1) ∧
    (midway (.engine .b1)).cfg.inFlash .b1 0x07FFFFFF = false := ⟨midway_inv _, rfl, by decide⟩

theorem witness_unit_addresses :
    Config.tc2.wf = true ∧ Config.tc2.hasBank .b1 = true ∧ Config.tc2.hasBank .b2 = true ∧ 0 < Config.tc2.unitCount ∧
    7 < Config.tc2.unitCount := by decide

/-- X8: the addresses of (0, b1), (7, b1), (0, b2) and (7, b2). -/
theorem test_unit_addresses :
    Config.tc2.unitToAddress 0 .b1 = 0x08000000 ∧ Config.tc2.unitToAddress 7 .b1 = 0x080E0000 ∧
    Config.tc2.unitToAddress 0 .b2 = 0x08100000 ∧ Config.tc2.unitToAddress 7 .b2 = 0x081E0000 := by decide

/-- A program of an erased double-word, twice. -/
def programTwice : State := busy1 { tc1 with sched := [.engine .b1, .engine .b1] } (.program 0x08005000 0x1122334455667788)

theorem witness_second_program :
    programTwice.cfg.wf = true ∧ programTwice.sched = [.engine .b1, .engine .b1] ∧
    (programTwice.grp .b1).inflight = some (.program 0x08005000 0x1122334455667788) ∧
    (0x1122334455667788#64) ≠ 0 ∧ (0x1122334455667788#64) ≠ BitVec.allOnes 64 ∧ (programTwice.grp .b1).pgserr = false ∧
    after (step programTwice) (fun t => (t.grp .b1).pgserr) = some false := by decide

/-- All ones under `Programmed`. -/
theorem witness_second_program_ones :
    (BitVec.allOnes 64 : DWord) ≠ 0 ∧ { Config.tc1 with rewriteCheck := .programmed }.rewriteCheck = .programmed ∧
    after (step (busy1 { start { Config.tc1 with rewriteCheck := .programmed } with sched := [.engine .b1, .engine .b1] }
      (.program 0x08005000 (BitVec.allOnes 64)))) (fun t => ((t.grp .b1).pgserr, t.marks)) =
      some (false, [0x08005000]) := by decide

/-- R63, R100: an illegal read descriptor outside every window is not refused. -/
theorem test_illegal_foreign :
    after (step { tc1 with masters := [[⟨0x7000, 0x40022010, 0⟩]], sched := [.master 0] }) (fun t =>
      (t.refusalMark, t.masters, t.draws)) = some (false, [[]], tc1.draws + 1) := by decide

end Sys2Proof.Tests
end

section
/-! PROOFS. Family 30_encoding.md: an illegal command word ends as BAD_COMMAND (R90). The decoder rejects a word for its
operation code, its reserved bits or its index; a word it accepts is rejected at DECODE for its bank. Both ways lead to
`State.badCommand`. -/
namespace Sys2Proof.Machine

/-! ### The words the decoder accepts (R86, R90 (a)-(c)) -/

/-- Only the codes 0x1 to 0x8 name a command (R87). -/
theorem commandOf_code_range {op : BitVec 4} {b : Bank} {idx : BitVec 8} {i : Instr} (h : commandOf op b idx = some i) :
    op ≠ 0 ∧ op.toNat < 9 := by
  obtain ⟨-, hne, hop⟩ := commandOf_some h
  refine ⟨hne, ?_⟩
  cases i
  case unlock | lock | clearErrors | eraseBank => rw [hop]; decide
  case eraseUnit | writeUnit | readUnit | unitToAddress => rw [hop.1]; decide
  all_goals exact hop.elim

theorem takesNoIndex_iff (op : BitVec 4) : takesNoIndex op = true ↔ op.toNat ∈ [1, 2, 3, 5] := by
  simp [takesNoIndex, opUnlock, opLock, opClearErrors, opEraseBank, ← BitVec.toNat_inj, or_assoc]

/-- A word the decoder accepts has none of the faults of R90 (a)-(c). -/
theorem decodeCommand_ok_legal {w : Word} {i : Instr} (h : decodeCommand w = .ok i) :
    w.extractLsb' 0 4 ≠ 0 ∧ (w.extractLsb' 0 4).toNat < 9 ∧ w.extractLsb' 5 3 = 0 ∧ w.extractLsb' 16 16 = 0 ∧
      ((w.extractLsb' 0 4).toNat ∈ [1, 2, 3, 5] → w.extractLsb' 8 8 = 0) := by
  obtain ⟨b, idx, hcmd, -⟩ := decodeCommand_ok h
  obtain ⟨hzero, hnine⟩ := commandOf_code_range hcmd
  unfold decodeCommand at h
  split at h
  · cases h
  · next hres =>
    obtain ⟨hhigh, hlow⟩ := not_or.mp hres
    split at h
    · cases h
    · next hidx =>
      exact ⟨hzero, hnine, not_not.mp hlow, not_not.mp hhigh, fun hop =>
        by_contra fun hne => hidx ⟨(takesNoIndex_iff _).mpr hop, hne⟩⟩

/-! ### The words rejected at DECODE for their bank (R90 (d)) -/

theorem bankLegal_eq_false_of_pageSingle {c : Config} (h : c.variant = .pageSingle) (n : SeqId) :
    bankLegal c n .b2 = false := by
  simp [bankLegal, Config.hasBank, h]

theorem bankLegal_eq_false_of_not_owned {c : Config} {n : SeqId} {b : Bank} (h : b ∉ c.owned n) :
    bankLegal c n b = false := by
  simp [bankLegal, h]

section
variable {s : State} {n : SeqId} {b : Bank}

theorem stepDecode_badCommand (hl : bankLegal s.cfg s.turn b = false) (op : BitVec 4) (idx : BitVec 8)
    (first : Sequencer → Sequencer) : stepDecode op b idx first s = s.badCommand := by
  simp [stepDecode, State.badCommand, hl]

/-- DECODE of a command whose bank the part lacks or the instance does not own (R242). -/
theorem exec_decode_badCommand {i : Instr} (hb : i.bank = some b) (hd : s.cur.state = .decode)
    (hl : bankLegal s.cfg s.turn b = false) : exec i s = .next s.badCommand := by
  cases i <;> simp only [Instr.bank, Option.some.injEq, reduceCtorEq] at hb <;> subst hb <;>
    simp only [exec, execUnlock, execLock, execClearErrors, execEraseUnit, execEraseBank, execWriteUnit, execReadUnit,
      execUnitToAddress, hd, stepDecode_badCommand hl]

/-! ### The step -/

/-- The step of a sequencer whose turn the order of moves says it is. -/
theorem step_seq {rest : List Agent} (hw : s.cfg.wf = true) (hs : s.sched = .seq n :: rest) :
    step s = seqMove n { s with sched := rest } := by
  simp [step, State.mover, State.scheduled, move, hw, hs]

theorem seqMove_decode_badCommand (hd : (s.seq n).state = .decode)
    (h : ∀ i, decodeCommand (s.seq n).cmd = .ok i → bankLegal s.cfg n (bankOfBit ((s.seq n).cmd.getLsbD 4)) = false) :
    seqMove n s = .next { s with turn := n }.badCommand := by
  simp only [seqMove, hd]
  split
  · next i hi =>
    obtain ⟨b, idx, hcmd, rfl⟩ := decodeCommand_ok hi
    exact exec_decode_badCommand (commandOf_some hcmd).1 hd (h i hi)
  · rfl

end

/-- Settles O4: the decoder rejects the word, or DECODE rejects its bank. -/
theorem illegalCommandEndsBadCommand : Obligations.IllegalCommandEndsBadCommand := by
  intro s n rest hw hs hd h
  rw [step_seq hw hs]
  refine seqMove_decode_badCommand (s := { s with sched := rest }) hd fun i hi => ?_
  obtain ⟨hzero, hnine, hlow, hhigh, hidx⟩ := decodeCommand_ok_legal hi
  change bankLegal s.cfg n (bankOfBit ((s.seq n).cmd.getLsbD 4)) = false
  rcases h with h | h | h | h | ⟨h, hop⟩ | ⟨hbank, hsingle⟩ | howned
  · exact absurd h hzero
  · exact absurd hnine (Nat.not_lt.mpr h)
  · exact absurd hlow h
  · exact absurd hhigh h
  · exact absurd (hidx hop) h
  · rw [hbank]
    exact bankLegal_eq_false_of_pageSingle hsingle n
  · exact bankLegal_eq_false_of_not_owned howned

end Sys2Proof.Machine
end

section
/-! PROOFS. Family 40_register_interface.md: what the raw register transactions (R100-R115), the raw array transactions
(R116-R121) and the engine's completion step (R122-R126) do. An access that reaches its bank is one transition of that
bank's group, so each statement about a transaction is an equation between two groups. -/
namespace Sys2Proof.Machine
variable {s : State} {b : Bank}

/-! ### Changing one group -/

/-- A change of a group is known by what it makes of the group that stands there. -/
theorem onGrp_congr {f g : Group → Group} (h : f (s.grp b) = g (s.grp b)) : s.onGrp b f = s.onGrp b g := by
  cases b <;> simpa [State.onGrp, State.grp] using h

theorem onGrp_self {f : Group → Group} (h : f (s.grp b) = s.grp b) : s.onGrp b f = s := by
  rw [onGrp_congr (g := id) h]
  cases b <;> rfl

theorem Group.busy_iff (g : Group) : g.busy = true ↔ g.inflight ≠ none := by
  simp [Group.busy, Option.isSome_iff_ne_none]

theorem Group.errorPending_iff (g : Group) : g.errorPending = true ↔
    g.wrperr = true ∨ g.sizerr = true ∨ g.pgserr = true ∨ g.eccerr = true ∨ g.bsyerr = true := by
  simp [Group.errorPending, or_assoc]

/-- A failed attempt raises its flag and leaves stale select fields (R114). -/
theorem Group.fail_staleAs (c : Config) (n : Nat) (f : ErrorFlag) (g : Group) :
    StaleAs c (g.raise f) (g.fail c n f) := by
  unfold Group.fail Group.stale
  split
  · next h =>
    refine ⟨⟨_, _, rfl, fun hv => ?_⟩, fun hn => absurd h (by simp [hn])⟩
    rw [hv]
  · exact ⟨⟨_, _, rfl, fun _ => rfl⟩, fun _ => rfl⟩

/-! ### Register accesses that reach their register (R100) -/

theorem RegisterAccess.groupBank {off : Nat} (h : RegisterAccess s b off) (ho : off < 16) :
    s.cfg.groupBank s.bus.addr.toNat = some b := by
  refine Config.groupBank_of_inGroup h.config ?_
  simp only [Config.inGroup, h.bank, h.addr, Bool.true_and, Bool.and_eq_true, decide_eq_true_eq]
  omega

theorem RegisterAccess.atRegister {off : Nat} (h : RegisterAccess s b off) (ho : off < 16) (foreign : State)
    (k : Bank → State) : s.atRegister off foreign k = k b := by
  unfold State.atRegister
  rw [if_neg (by simp [h.clock]), h.groupBank ho]
  exact if_pos h.addr

theorem touch_eq (s : State) (b : Bank) : s.touch b = s.onGrp b fun g => { g with keyState := .k0 } :=
  onGrp_congr (Group.interleave_eq _)

/-- A register read (R101-R103, R115): the value on the data lines, and the interleave rule (R107). -/
theorem RegisterAccess.readRegister {off : Nat} (h : RegisterAccess s b off) (ho : off < 16) (value : Group → Word) :
    s.readRegister off value = { s.onGrp b (fun g => { g with keyState := .k0 }) with
      bus := { s.bus with rdata := value (s.grp b), stall := false } } := by
  rw [State.readRegister, h.atRegister ho, touch_eq]
  simp [State.answer]

/-- The bits of SR above BSYERR are 0 (R102). -/
theorem srWord_reserved (c : Config) (g : Group) : (srWord c g).extractLsb' 7 25 = 0 := by
  apply BitVec.eq_of_getLsbD_eq
  intro i hi
  simp [srWord, BitVec.getLsbD_extractLsb']
  

/-- The bits of CR between UNB and MER, STRT aside, are 0 (R103). -/
theorem crWord_reserved_low (c : Config) (g : Group) : (crWord c g).extractLsb' 4 4 = 0 := by
  apply BitVec.eq_of_getLsbD_eq
  intro i hi
  simp only [BitVec.getLsbD_extractLsb', crWord, BitVec.getLsbD_append]
  simp
  omega

theorem crWord_reserved_high (c : Config) (g : Group) : (crWord c g).extractLsb' 17 14 = 0 := by
  apply BitVec.eq_of_getLsbD_eq
  intro i hi
  simp only [BitVec.getLsbD_extractLsb', crWord, BitVec.getLsbD_append]
  interval_cases i <;> simp

/-- Settles O8: each read is one register read, whose value's bits are known one by one. -/
theorem registerReadsGiveTheFields : Obligations.RegisterReadsGiveTheFields := by
  intro s b
  refine ⟨fun h => ?_, fun h => ?_, fun h => ?_, fun h => ?_, fun h => ?_⟩
  · exact congrArg _ (h.readRegister (by decide) _)
  · exact congrArg _ (h.readRegister (by decide) _)
  · exact congrArg _ ((h.atRegister (by decide) _ _).trans (touch_eq s b))
  · obtain ⟨h0, h1, h2, h3, h4, h5, h6⟩ := srWord_bits s.cfg (s.grp b)
    exact ⟨_, congrArg _ (h.readRegister (by decide) _), h0, h1, h2, h3, h4, h5, h6, srWord_reserved _ _⟩
  · refine ⟨_, congrArg _ (h.readRegister (by decide) _), crWord_pg _ _, crWord_uer _ _, crWord_mer _ _,
      crWord_strt _ _, crWord_reserved_low _ _, crWord_unb _ _, fun hv => ?_, fun hv => ?_,
      crWord_reserved_high _ _, crWord_lock _ _⟩
    · rw [crWord_bksel, bkselBit, hv]
    · rw [crWord_bksel, bkselBit, hv]

/-! ### KEYR writes (R104-R106) -/

/-- A wrong key locks out under `LockoutUntilReset`, and otherwise only returns to K0. -/
theorem Group.wrongKey_eq (c : Config) (g : Group) : g.wrongKey c = { g with
    keyState := .k0, keyLockout := g.keyLockout || decide (c.keyErrorPolicy = .lockoutUntilReset) } := by
  cases h : c.keyErrorPolicy <;> simp [Group.wrongKey, h]

/-- KEYR expects key word 1 (R105). -/
theorem Group.keyWrite_k0 {g : Group} (hl : g.lock = true) (hk : g.keyState = .k0) (ho : g.keyLockout = false)
    (c : Config) (v : Word) :
    g.keyWrite c v = if v = key1 then { g with keyState := .k1 } else g.wrongKey c := by
  simp [Group.keyWrite, hl, hk, ho]

/-- KEYR expects key word 2 (R106). -/
theorem Group.keyWrite_k1 {g : Group} (hl : g.lock = true) (hk : g.keyState = .k1) (c : Config) (v : Word) :
    g.keyWrite c v = if v = key2 then { g with lock := false, keyState := .k0 } else g.wrongKey c := by
  simp [Group.keyWrite, hl, hk]

theorem exec_keyrWr (h : RegisterAccess s b 0x0) :
    exec .keyrWr s = .next (s.onGrp b (Group.keyWrite s.cfg s.bus.wdata)) :=
  congrArg _ (h.atRegister (by decide) _ _)

/-- Settles O9: the KEYR write of the group, in each key state. -/
theorem keyrWriteFollowsTheKeyState : Obligations.KeyrWriteFollowsTheKeyState := by
  intro s b h
  rw [exec_keyrWr h]
  refine ⟨fun hl => ?_, fun hl hk ho => ?_, fun hl hk ho hv => ?_, fun hl hk ho hv => ?_, fun hl hk hv => ?_,
    fun hl hk hv => ?_⟩
  · rw [onGrp_self (by simp [Group.keyWrite, hl])]
  · rw [onGrp_self (by simp [Group.keyWrite, hl, hk, ho])]
  · exact congrArg _ (onGrp_congr ((Group.keyWrite_k0 hl hk ho _ _).trans (if_pos hv)))
  · refine congrArg _ (onGrp_congr ((Group.keyWrite_k0 hl hk ho _ _).trans ((if_neg hv).trans ?_)))
    rw [Group.wrongKey_eq, ho, Bool.false_or]
  · exact congrArg _ (onGrp_congr ((Group.keyWrite_k1 hl hk _ _).trans (if_pos hv)))
  · exact congrArg _ (onGrp_congr ((Group.keyWrite_k1 hl hk _ _).trans ((if_neg hv).trans (Group.wrongKey_eq _ _))))

/-! ### SR writes (R108) -/

/-- Settles O11: the write is the interleave rule and then the clearing of the written ones. -/
theorem srWriteClearsTheWrittenOnes : Obligations.SrWriteClearsTheWrittenOnes := by
  intro s b h
  have hexec : exec .srWr s = .next (s.writeSr b s.bus.wdata) := congrArg _ (h.atRegister (by decide) _ _)
  rw [hexec]
  refine congrArg _ (onGrp_congr ?_)
  rw [Group.interleave_eq]
  rfl
end Sys2Proof.Machine
end

section
/-! PROOFS. Family 40_register_interface.md, the CR write (R109-R114): what it does to a locked, a busy and an idle group,
with the start evaluation. -/
namespace Sys2Proof.Machine
variable {s : State} {b : Bank}

/-- A CR write that reaches its register, from what it makes of the group (R107, R109-R114). -/
theorem exec_crWr (h : RegisterAccess s b 0x8) {f : Group → Group}
    (hf : (s.grp b).interleave.crWrite s.cfg b s.draws s.bus.wdata = f (s.grp b)) :
    exec .crWr s = .next { s.onGrp b f with draws := s.draws + 1 } := by
  have hexec : exec .crWr s = .next (s.writeCr b s.bus.wdata) := congrArg _ (h.atRegister (by decide) _ _)
  rw [hexec, State.writeCr, onGrp_congr (g := f) hf]
  simp [State.drawn]

/-! ### Locked and busy groups (R109, R111) -/

@[simp] theorem Group.interleave_inflight (g : Group) : g.interleave.inflight = g.inflight := by
  rw [Group.interleave_eq]

theorem Group.crWrite_busy {g : Group} (hl : g.lock = false) (hi : g.inflight ≠ none) (c : Config) (b : Bank) (n : Nat)
    (v : Word) : g.crWrite c b n v = g.crWriteBusy c v := by
  simp [Group.crWrite, hl, g.busy_iff.mpr hi]

theorem Group.crWrite_idle {g : Group} (hl : g.lock = false) (hi : g.inflight = none) (c : Config) (b : Bank) (n : Nat)
    (v : Word) : g.crWrite c b n v = g.crWriteIdle c b n v := by
  simp [Group.crWrite, hl, Group.busy, hi]

/-- R109, after the interleave rule. -/
theorem Group.interleave_crWrite_locked {g : Group} (hl : g.lock = true) (c : Config) (b : Bank) (n : Nat) (v : Word) :
    g.interleave.crWrite c b n v = { g with keyState := .k0 } := by
  rw [Group.interleave_eq]
  simp [Group.crWrite, hl]

/-- The bits of the RW fields (R82). -/
theorem crRwMask_getLsbD (c : Config) {i : Nat} (hi : i < 32) : (crRwMask c).getLsbD i = true ↔
    i = 0 ∨ i = 1 ∨ i = 2 ∨ 8 ≤ i ∧ i < 16 ∨ i = 16 ∧ c.variant = .sectorDual := by
  unfold crRwMask
  cases c.variant <;> revert i <;> decide

/-- Two words agree under a mask when their bits under it do. -/
theorem and_eq_and_iff (v w m : Word) :
    v &&& m = w &&& m ↔ ∀ i, i < 32 → m.getLsbD i = true → v.getLsbD i = w.getLsbD i := by
  constructor
  · intro h i _ hm
    simpa [hm] using congrArg (BitVec.getLsbD · i) h
  · intro h
    apply BitVec.eq_of_getLsbD_eq
    intro i hi
    rw [BitVec.getLsbD_and, BitVec.getLsbD_and]
    cases hm : m.getLsbD i
    · simp
    · rw [h i hi hm]

theorem extract_eq_iff (v w : Word) (k n : Nat) :
    v.extractLsb' k n = w.extractLsb' k n ↔ ∀ i, k ≤ i → i < k + n → v.getLsbD i = w.getLsbD i := by
  constructor
  · intro h i hk hn
    obtain ⟨j, rfl⟩ := Nat.exists_eq_add_of_le hk
    simpa [BitVec.getLsbD_extractLsb', Nat.lt_of_add_lt_add_left hn] using congrArg (BitVec.getLsbD · j) h
  · intro h
    apply BitVec.eq_of_getLsbD_eq
    intro i hi
    simp [hi, h (k + i) (by omega) (by omega)]

/-- A CR write leaves every RW field as it is when it writes to each what the group holds (R111). -/
theorem rwFields_eq_iff (c : Config) (g : Group) (v : Word) :
    v &&& crRwMask c = crWord c g &&& crRwMask c ↔
      v.getLsbD 0 = g.pg ∧ v.getLsbD 1 = g.uer ∧ v.getLsbD 2 = g.mer ∧ v.extractLsb' 8 8 = g.unb ∧
        (c.variant = .sectorDual → v.getLsbD 16 = g.bksel) := by
  have hbksel : c.variant = .sectorDual → (crWord c g).getLsbD 16 = g.bksel := fun hv => by
    rw [crWord_bksel, bkselBit, hv]
  rw [and_eq_and_iff, ← crWord_pg c g, ← crWord_uer c g, ← crWord_mer c g, ← crWord_unb c g, extract_eq_iff]
  constructor
  · intro h
    have hbit : ∀ i, i < 32 → (i = 0 ∨ i = 1 ∨ i = 2 ∨ 8 ≤ i ∧ i < 16 ∨ i = 16 ∧ c.variant = .sectorDual) →
        v.getLsbD i = (crWord c g).getLsbD i := fun i hi hm => h i hi ((crRwMask_getLsbD c hi).mpr hm)
    exact ⟨hbit 0 (by omega) (by simp), hbit 1 (by omega) (by simp), hbit 2 (by omega) (by simp),
      fun i h8 h16 => hbit i (by omega) (by omega),
      fun hv => (hbit 16 (by omega) (by simp [hv])).trans (hbksel hv)⟩
  · rintro ⟨hpg, huer, hmer, hunb, hsel⟩ i hi hm
    rcases (crRwMask_getLsbD c hi).mp hm with rfl | rfl | rfl | ⟨h8, h16⟩ | ⟨rfl, hv⟩
    · exact hpg
    · exact huer
    · exact hmer
    · exact hunb i h8 h16
    · exact (hsel hv).trans (hbksel hv).symm

/-- A CR write that raises BSYERR on an unlocked busy group: it would change an RW field, or sets STRT (R111). -/
def crWriteObjects (c : Config) (g : Group) (v : Word) : Bool :=
  decide (v &&& crRwMask c ≠ crWord c g &&& crRwMask c) || v.getLsbD 3

theorem crWriteObjects_iff (c : Config) (g : Group) (v : Word) : crWriteObjects c g v = true ↔
    v.getLsbD 0 ≠ g.pg ∨ v.getLsbD 1 ≠ g.uer ∨ v.getLsbD 2 ≠ g.mer ∨ v.extractLsb' 8 8 ≠ g.unb ∨
      (c.variant = .sectorDual ∧ v.getLsbD 16 ≠ g.bksel) ∨ v.getLsbD 3 = true := by
  rw [crWriteObjects, Bool.or_eq_true, decide_eq_true_eq, Ne, rwFields_eq_iff]
  tauto

/-- R111, after the interleave rule. -/
theorem Group.interleave_crWrite_busy {g : Group} (hl : g.lock = false) (hi : g.inflight ≠ none) (c : Config) (b : Bank)
    (n : Nat) (v : Word) : g.interleave.crWrite c b n v =
      { g with keyState := .k0, lock := v.getLsbD 31, bsyerr := g.bsyerr || crWriteObjects c g v } := by
  have hflag : ∀ h : Group, (if v &&& crRwMask c ≠ crWord c h &&& crRwMask c ∨ v.getLsbD 3 = true then h.raise .bsyerr
      else h) = { h with bsyerr := h.bsyerr || crWriteObjects c h v } := fun h => by
    cases ho : crWriteObjects c h v
    · rw [if_neg (by simpa [crWriteObjects] using ho), Bool.or_false]
    · rw [if_pos (by simpa [crWriteObjects] using ho), Bool.or_true]; rfl
  rw [Group.crWrite_busy (by simpa using hl) (by simpa using hi), Group.crWriteBusy, hflag, Group.interleave_eq]
  cases hv : v.getLsbD 31
  · rw [if_neg Bool.false_ne_true, ← hl]; rfl
  · rfl

/-- Settles O12: a locked group ignores the write, a busy one takes LOCK alone. -/
theorem crWriteLockedOrBusy : Obligations.CrWriteLockedOrBusy := fun _ _ h =>
  ⟨fun hl => exec_crWr h (Group.interleave_crWrite_locked hl _ _ _ _), fun hl hi =>
    ⟨_, exec_crWr h (Group.interleave_crWrite_busy hl hi _ _ _ _), crWriteObjects_iff _ _ _⟩⟩

/-! ### The start evaluation (R110, R113) -/

/-- The start evaluation neither reads nor writes LOCK and the key state (R113). -/
theorem Group.start_lock_comm (c : Config) (b : Bank) (n : Nat) (g : Group) (l : Bool) (k : KeyState) :
    { g with lock := l, keyState := k }.start c b n = { g.start c b n with lock := l, keyState := k } := by
  have hfail : ∀ f, { g with lock := l, keyState := k }.fail c n f =
      { g.fail c n f with lock := l, keyState := k } := fun f => by
    unfold Group.fail Group.stale
    cases f <;> split <;> rfl
  unfold Group.start
  rw [hfail, hfail]
  change (if g.errorPending = true then _ else _) = _
  split_ifs <;> rfl

/-- The group with the fields a CR write sets, LOCK among them (R110). -/
def Group.written (c : Config) (v : Word) (g : Group) : Group :=
  { g.setFields c v with lock := v.getLsbD 31, keyState := .k0 }

/-- R110 with STRT, after the interleave rule: LOCK may be set before the start as well as after it. -/
theorem Group.interleave_crWrite_start {g : Group} (hl : g.lock = false) (hi : g.inflight = none) (c : Config) (b : Bank)
    (n : Nat) {v : Word} (hs : v.getLsbD 3 = true) :
    g.interleave.crWrite c b n v = (g.written c v).start c b n := by
  rw [Group.crWrite_idle (by simpa using hl) (by simpa using hi), Group.crWriteIdle, if_pos hs, Group.interleave_eq,
    Group.written]
  cases hv : v.getLsbD 31
  · rw [if_neg Bool.false_ne_true, ← hl]; rfl
  · exact (Group.start_lock_comm c b n (Group.setFields c v { g with keyState := .k0 }) true .k0).symm

theorem dropsLatch_iff (v : Word) : dropsLatch v = true ↔
    v.getLsbD 0 = false ∨ v.getLsbD 1 = true ∨ v.getLsbD 2 = true ∨ v.getLsbD 31 = true := by
  simp only [dropsLatch, Bool.or_eq_true, Bool.not_eq_true', or_assoc]

theorem Group.written_eq (c : Config) (v : Word) (g : Group) : g.written c v = { g with
    keyState := .k0
    pg := v.getLsbD 0
    uer := v.getLsbD 1
    mer := v.getLsbD 2
    unb := v.extractLsb' 8 8
    bksel := if c.variant = .sectorDual then v.getLsbD 16 else g.bksel
    latch := if v.getLsbD 0 = false ∨ v.getLsbD 1 = true ∨ v.getLsbD 2 = true ∨ v.getLsbD 31 = true then none
      else g.latch
    lock := v.getLsbD 31 } := by
  unfold Group.written Group.setFields
  simp only [dropsLatch_iff]
  cases c.variant <;> rfl

/-- Settles O14: the write starts the group with its fields and LOCK written, and each branch of R113 is a failed
attempt or the erase started. -/
theorem startChecksInOrder : Obligations.StartChecksInOrder := by
  intro s b f h hl hi hs hf
  have hstart : (s.grp b).interleave.crWrite s.cfg b s.draws s.bus.wdata = f.start s.cfg b s.draws := by
    rw [hf, ← Group.written_eq]
    exact Group.interleave_crWrite_start hl hi _ _ _ hs
  refine ⟨f.start s.cfg b s.draws, exec_crWr h hstart, ?_⟩
  simp only [Group.start, Group.errorPending_iff]
  have hpgserr := Group.fail_staleAs s.cfg s.draws .pgserr f
  have hwrperr := Group.fail_staleAs s.cfg s.draws .wrperr f
  split_ifs with hpend hmode huer hsel hunit hwrp hbank
  · exact hpgserr
  · exact hpgserr
  · exact hpgserr
  · exact hpgserr
  · exact hwrperr
  · rfl
  · exact hwrperr
  · rfl

end Sys2Proof.Machine
end

section
/-! PROOFS. Family 40_register_interface.md, the raw array transactions (R116-R121). -/
namespace Sys2Proof.Machine
variable {s : State} {b : Bank}

theorem ArrayAccess.flashBank (h : ArrayAccess s b) : s.cfg.flashBank s.bus.addr.toNat = some b :=
  Config.flashBank_of_inFlash h.config h.addr

/-! ### Array writes (R116-R118) -/

/-- An array write that reaches its bank changes the bank's group and makes a draw. -/
theorem ArrayAccess.rawWrite (h : ArrayAccess s b) (z : Size) : s.rawWrite z =
    { s.onGrp b (fun _ => (s.grp b).arrWrite s.cfg b s.draws z s.bus.addr s.bus.wdata) with draws := s.draws + 1 } := by
  unfold State.rawWrite State.arrayWrite
  rw [if_neg (by simp [h.clock]), h.flashBank]
  dsimp only
  rw [onGrp_congr (g := fun _ => (s.grp b).arrWrite s.cfg b s.draws z s.bus.addr s.bus.wdata) rfl]
  simp [State.drawn]

theorem exec_arrWr {i : Instr} {z : Size}
    (hi : (i, z) ∈ [(Instr.arrWr8, Size.b8), (Instr.arrWr16, Size.h16), (Instr.arrWr32, Size.w32)]) (s : State) :
    exec i s = .next (s.rawWrite z) := by
  simp only [List.mem_cons, Prod.mk.injEq, List.not_mem_nil, or_false] at hi
  rcases hi with ⟨rfl, rfl⟩ | ⟨rfl, rfl⟩ | ⟨rfl, rfl⟩ <;> rfl

/-- The gate fails (R116): locked, not programming, or an erase enabled. -/
def Group.gateShut (g : Group) : Prop := g.lock = true ∨ g.pg = false ∨ g.uer = true ∨ g.mer = true

section
variable {g : Group} (c : Config) (b : Bank) (n : Nat) (z : Size) (a v : Word)

theorem Group.arrWrite_busy (hi : g.inflight ≠ none) : g.arrWrite c b n z a v = g.raise .bsyerr :=
  if_pos (g.busy_iff.mpr hi)

variable (hi : ¬g.inflight ≠ none)
include hi

theorem Group.arrWrite_shut (hg : g.gateShut) :
    g.arrWrite c b n z a v = { g with latch := none }.fail c n .pgserr := by
  rw [Group.arrWrite, if_neg (mt g.busy_iff.mp hi)]
  exact if_pos hg

theorem Group.arrWrite_empty (hg : ¬g.gateShut) (hl : g.latch = none) : g.arrWrite c b n z a v =
    if g.errorPending then g.fail c n .pgserr else g.firstHalf c b n z a v := by
  rw [Group.arrWrite, if_neg (mt g.busy_iff.mp hi), if_neg (by exact hg), hl]

theorem Group.arrWrite_full (hg : ¬g.gateShut) {l : Latch} (hl : g.latch = some l) :
    g.arrWrite c b n z a v = g.secondHalf c n z a v l := by
  rw [Group.arrWrite, if_neg (mt g.busy_iff.mp hi), if_neg (by exact hg), hl]

end

/-- Settles O16: each branch of R116-R118 is BSYERR, a failed attempt, a half latched or the program started. -/
theorem arrayWriteGateAndPair : Obligations.ArrayWriteGateAndPair := by
  intro s b i z hi h
  refine ⟨_, (exec_arrWr hi s).trans (congrArg _ (h.rawWrite z)), ?_⟩
  generalize s.grp b = g
  rw [← Config.unitOf]
  have hfail : ∀ f g, StaleAs s.cfg (Group.raise f g) (g.fail s.cfg s.draws f) := Group.fail_staleAs s.cfg s.draws
  by_cases hbusy : g.inflight ≠ none
  · rw [if_pos hbusy, Group.arrWrite_busy _ _ _ _ _ _ hbusy]
    rfl
  rw [if_neg hbusy]
  by_cases hgate : g.gateShut
  · rw [if_pos (by exact hgate), Group.arrWrite_shut _ _ _ _ _ _ hbusy hgate]
    exact hfail .pgserr _
  rw [if_neg (by exact hgate)]
  split
  · next hl =>
    rw [Group.arrWrite_empty _ _ _ _ _ _ hbusy hgate hl]
    simp only [Group.firstHalf, Group.errorPending_iff]
    split_ifs with hpend hform hwrp
    · exact hfail .pgserr g
    · exact hfail .sizerr g
    · exact hfail .wrperr g
    · rfl
  · next l hl =>
    rw [Group.arrWrite_full _ _ _ _ _ _ hbusy hgate hl, Group.secondHalf]
    split_ifs with hform
    · exact hfail .sizerr _
    · rfl

/-! ### Array reads (R120, R121) -/

theorem exec_arrRd {i : Instr} {n : Nat}
    (hi : (i, n) ∈ [(Instr.arrRd8, 1), (Instr.arrRd16, 2), (Instr.arrRd32, 4)]) (s : State) :
    ∃ z, n = sizeBytes z ∧ exec i s = .next (s.rawRead z) := by
  simp only [List.mem_cons, Prod.mk.injEq, List.not_mem_nil, or_false] at hi
  rcases hi with ⟨rfl, rfl⟩ | ⟨rfl, rfl⟩ | ⟨rfl, rfl⟩
  · exact ⟨.b8, rfl, rfl⟩
  · exact ⟨.h16, rfl, rfl⟩
  · exact ⟨.w32, rfl, rfl⟩

theorem touchesEcc_iff (c : Config) (z : Size) (a : Nat) :
    touchesEcc c z a = true ↔ ∃ k, k < sizeBytes z ∧ (a + k) / 8 * 8 ∈ c.eccFaulty := by
  simp [touchesEcc]

/-- Byte k of what an array read returns is the byte k addresses up (R64). -/
theorem Memory.load_byte (m : Memory) (z : Size) (a : Nat) {k : Nat} (hk : k < sizeBytes z) :
    (m.load z a).extractLsb' (8 * k) 8 = m.read (a + k) := by
  apply BitVec.eq_of_getLsbD_eq
  intro i hi
  cases z
  all_goals
    simp only [Memory.load, BitVec.getLsbD_extractLsb', BitVec.getLsbD_setWidth, BitVec.getLsbD_append]
    simp only [sizeBytes] at hk
    interval_cases k
  all_goals
    simp (disch := omega) only [decide_eq_true, Bool.true_and, if_pos, if_neg]
    congr 1
    omega

section
variable {z : Size} (h : ArrayAccess s b) (ha : s.bus.addr.toNat % sizeBytes z = 0)
include h ha

theorem ArrayAccess.arrayRead : s.arrayRead z s.bus.addr =
    if (s.grp b).busy then .stalled
    else if touchesEcc s.cfg z s.bus.addr.toNat then
      .data (sizeMask z (Config.freeEccData s.draws)) (s.onGrp b (Group.raise .eccerr)).drawn
    else .data (s.mem.load z s.bus.addr.toNat) s := by
  unfold State.arrayRead
  rw [if_neg (by simp [h.clock]), h.flashBank]
  exact if_neg (by simp [ha])

theorem ArrayAccess.rawRead_busy (hi : (s.grp b).inflight ≠ none) : s.rawRead z = s.hold := by
  rw [State.rawRead, h.arrayRead ha, if_pos ((s.grp b).busy_iff.mpr hi)]

theorem ArrayAccess.rawRead_stored (hi : (s.grp b).inflight = none)
    (he : ∀ k, k < sizeBytes z → (s.bus.addr.toNat + k) / 8 * 8 ∉ s.cfg.eccFaulty) :
    s.rawRead z = s.answer (s.mem.load z s.bus.addr.toNat) := by
  rw [State.rawRead, h.arrayRead ha, if_neg (by simp [Group.busy, hi]), if_neg]
  rw [touchesEcc_iff]
  exact fun ⟨k, hk, hm⟩ => he k hk hm

theorem ArrayAccess.rawRead_ecc (hi : (s.grp b).inflight = none)
    (he : ∃ k, k < sizeBytes z ∧ (s.bus.addr.toNat + k) / 8 * 8 ∈ s.cfg.eccFaulty) :
    s.rawRead z =
      (s.onGrp b (Group.raise .eccerr)).drawn.answer (sizeMask z (Config.freeEccData s.draws)) := by
  rw [State.rawRead, h.arrayRead ha, if_neg (by simp [Group.busy, hi]), if_pos ((touchesEcc_iff _ _ _).mpr he)]

end

/-- Settles O18: the read stalls, or answers the stored bytes, or a free value with ECCERR. -/
theorem arrayReadReturnsTheBytes : Obligations.ArrayReadReturnsTheBytes := by
  intro s b i n hi h ha
  obtain ⟨z, rfl, hexec⟩ := exec_arrRd hi s
  rw [hexec]
  refine ⟨fun hb => congrArg _ (h.rawRead_busy ha hb), fun hb he => ?_, fun hb he => ?_⟩
  · exact ⟨_, congrArg _ (h.rawRead_stored ha hb he), fun k hk => Memory.load_byte _ _ _ hk⟩
  · refine ⟨sizeMask z (Config.freeEccData s.draws), congrArg _ ((h.rawRead_ecc ha hb he).trans ?_)⟩
    cases b <;> rfl

end Sys2Proof.Machine
end

section
/-! PROOFS. Family 40_register_interface.md, the engine's completion step (R122-R125), and that no other move ends an
operation (R126). -/
namespace Sys2Proof.Machine
variable {s t : State} {b : Bank} {rest : List Agent}

/-- The step of an engine whose turn the order of moves says it is. -/
theorem step_engine (hw : s.cfg.wf = true) (hs : s.sched = .engine b :: rest) :
    step s = .next ({ s with sched := rest }.engineStep b) := by
  simp [step, State.mover, State.scheduled, move, hw, hs]

theorem withSched_grp (s : State) (l : List Agent) (b : Bank) : ({ s with sched := l } : State).grp b = s.grp b := by
  cases b <;> rfl

theorem engineStep_eraseUnit {u : BitVec 8} (hi : (s.grp b).inflight = some (.eraseUnit u)) :
    s.engineStep b = s.eraseDone b (s.cfg.unitToAddress u.toNat b) s.cfg.unitSize := by
  rw [State.engineStep, hi]

theorem engineStep_eraseBank (hi : (s.grp b).inflight = some .eraseBank) :
    s.engineStep b = s.eraseDone b (s.cfg.origin b) s.cfg.bankSize := by
  rw [State.engineStep, hi]

theorem engineStep_program {x : Word} {d : DWord} (hi : (s.grp b).inflight = some (.program x d)) :
    s.engineStep b = s.programDone b x.toNat d := by
  rw [State.engineStep, hi]

/-! ### Erases (R123, R124) -/

/-- What the completion of an erase of `[lo, lo + n)` leaves: the range erased and the operation ended. -/
structure EraseCompleted (s t : State) (b : Bank) (rest : List Agent) (lo n : Nat) : Prop where
  frame : t = { s.onGrp b (fun g => { g with inflight := none, eop := g.eop || s.cfg.hasEop }) with
    sched := rest, mem := t.mem, marks := t.marks }
  bytes : ∀ a, t.mem.read a = if lo ≤ a ∧ a < lo + n then 0xFF else s.mem.read a
  content : s.cfg.rewriteCheck = .content → t.marks = s.marks
  programmed : s.cfg.rewriteCheck = .programmed → ∀ a, (a ∈ t.marks ↔ a ∈ s.marks ∧ ¬(lo ≤ a ∧ a < lo + n))

theorem eraseDone_completed (s : State) (b : Bank) (rest : List Agent) (lo n : Nat) :
    EraseCompleted s ({ s with sched := rest }.eraseDone b lo n) b rest lo n where
  frame := by cases b <;> rfl
  bytes a := by
    rw [State.eraseDone, onGrp_mem]
    exact Memory.read_erase s.mem lo n a
  content h := by
    rw [State.eraseDone, onGrp_marks, h]
  programmed h a := by
    rw [State.eraseDone, onGrp_marks, h]
    exact mem_dropMarks s.marks lo n a

/-- Settles O21: the unit is `[origin + u * UNIT_SIZE, + UNIT_SIZE)`. -/
theorem eraseUnitCompletion : Obligations.EraseUnitCompletion := by
  intro s b u rest hw hs hi
  refine ⟨_, step_engine hw hs, ?_⟩
  rw [← withSched_grp s rest b] at hi
  rw [engineStep_eraseUnit hi, Nat.add_mul, Nat.one_mul, ← Nat.add_assoc]
  obtain ⟨hframe, hbytes, hcontent, hprogrammed⟩ :=
    eraseDone_completed s b rest (s.cfg.unitToAddress u.toNat b) s.cfg.unitSize
  exact ⟨hframe, hbytes, hcontent, hprogrammed⟩

/-- Settles O22: the bank is `[origin, origin + UNIT_COUNT * UNIT_SIZE)`. -/
theorem eraseBankCompletion : Obligations.EraseBankCompletion := by
  intro s b rest hw hs hi
  refine ⟨_, step_engine hw hs, ?_⟩
  rw [← withSched_grp s rest b] at hi
  rw [engineStep_eraseBank hi]
  obtain ⟨hframe, hbytes, hcontent, hprogrammed⟩ := eraseDone_completed s b rest (s.cfg.origin b) s.cfg.bankSize
  exact ⟨hframe, hbytes, hcontent, hprogrammed⟩

/-! ### Programs (R125) -/

/-- Byte k of a double-word read is the byte k addresses up (R64). -/
theorem Memory.byteOf_dword (m : Memory) (a : Nat) {k : Nat} (hk : k < 8) : byteOf (m.dword a) k = m.read (a + k) := by
  apply BitVec.eq_of_getLsbD_eq
  intro i hi
  simp only [byteOf, Memory.dword, BitVec.getLsbD_extractLsb', BitVec.getLsbD_append]
  interval_cases k <;> simp (disch := omega) only [decide_eq_true, Bool.true_and, if_pos, if_neg] <;> congr 1 <;> omega

/-- Double-words with equal bytes are equal. -/
theorem eq_of_byteOf_eq {d e : DWord} (h : ∀ k, k < 8 → byteOf d k = byteOf e k) : d = e := by
  apply BitVec.eq_of_getLsbD_eq
  intro i hi
  have hbit := congrArg (BitVec.getLsbD · (i % 8)) (h (i / 8) (by omega))
  simpa [byteOf, BitVec.getLsbD_extractLsb', Nat.mod_lt, Nat.div_add_mod] using hbit

/-- A double-word is all ones when its 8 bytes are erased. -/
theorem Memory.dword_eq_allOnes_iff (m : Memory) (a : Nat) :
    m.dword a = BitVec.allOnes 64 ↔ ∀ k, k < 8 → m.read (a + k) = 0xFF := by
  have hones : ∀ k, k < 8 → byteOf (BitVec.allOnes 64) k = 0xFF := by decide
  constructor
  · intro h k hk
    rw [← Memory.byteOf_dword m a hk, h, hones k hk]
  · intro h
    exact eq_of_byteOf_eq fun k hk => by rw [Memory.byteOf_dword m a hk, h k hk, hones k hk]

theorem programAccepted_iff (s : State) (a : Nat) (d : DWord) : s.programAccepted a d = true ↔
    ((∀ i, i < 8 → s.mem.read (a + i) = 0xFF) ∧ (s.cfg.rewriteCheck = .content ∨ a ∉ s.marks)) ∨ d = 0 := by
  rw [← Memory.dword_eq_allOnes_iff]
  simp [State.programAccepted]

theorem Memory.read_fill_at (m : Memory) (a : Nat) {n i : Nat} (hi : i < n) (f : Nat → Byte) :
    (m.fill a n f).read (a + i) = f i := by
  rw [Memory.read_fill, if_pos (by omega), Nat.add_sub_cancel_left]

/-- A program's completion fills its double-word, with the data or with what a failed program leaves (R125). -/
theorem programDone_mem (s : State) (b : Bank) (a : Nat) (d : DWord) : (s.programDone b a d).mem =
    s.mem.fill a 8 (byteOf (if s.programAccepted a d then d else s.rewriteValue a)) := by
  unfold State.programDone
  split
  · exact onGrp_mem _ _ _
  · exact onGrp_mem _ _ _

/-- Settles O23: the program is accepted or fails, and either way its 8 bytes alone are filled. -/
theorem programCompletion : Obligations.ProgramCompletion := by
  intro s b x d rest hw hs hi
  obtain ⟨u, hu⟩ : ∃ u : State, u = { s with sched := rest } := ⟨_, rfl⟩
  rw [← withSched_grp s rest b, ← hu] at hi
  have hmem := programDone_mem u b x.toNat d
  have haccepted : u.programAccepted x.toNat d = s.programAccepted x.toNat d := by rw [hu]; rfl
  refine ⟨_, step_engine hw hs, ?_⟩
  rw [← hu, engineStep_program hi, ← programAccepted_iff, ← haccepted]
  refine ⟨fun a ha => ?_, fun hacc => ⟨fun i h8 => ?_, ?_⟩, fun hrej => ⟨fun hr i h8 => ?_, ?_, ?_⟩⟩
  · rw [hmem, Memory.read_fill, if_neg ha, hu]
  · rw [hmem, if_pos hacc, Memory.read_fill_at _ _ h8]
    rfl
  · rw [State.programDone, if_pos hacc, hu]
    refine ⟨fun a => ?_, by cases b <;> rfl⟩
    rw [onGrp_marks]
    exact mem_addMark s.marks x.toNat a
  · rw [hmem, if_neg hrej, Memory.read_fill_at _ _ h8, hu, State.rewriteValue, hr]
    exact Memory.byteOf_dword s.mem x.toNat h8
  · rw [State.programDone, if_neg hrej, hu]
    cases b <;> rfl
  · rw [State.programDone, if_neg hrej, hu]
    cases b <;> exact Group.fail_staleAs _ _ .pgserr _

/-! ### Nothing else ends an operation (R126) -/

/-- Every move but the bank's own completion step and the reset changes its group by one transaction at most. -/
theorem move_groupEffect {a : Agent} (h : move a s = .next t) (hengine : a ≠ .engine b) (hreset : a ≠ .reset) :
    GroupEffect s.cfg b (s.grp b) (t.grp b) := by
  have hsame : t.grp b = s.grp b → GroupEffect s.cfg b (s.grp b) (t.grp b) := fun e => e ▸ .same
  cases a with
  | seq n =>
    have hturn : ({ s with turn := n } : State).grp b = s.grp b := by cases b <;> rfl
    rcases seqMove_cases h with ⟨rfl, -⟩ | ⟨i, d, hd, hexec, -⟩ | ⟨-, rfl⟩
    · exact .same
    · rw [← hturn]
      exact ((exec_effect hd hexec).group b).1
    · exact hsame (by rw [State.badCommand, onCur_grp, hturn])
  | engine d =>
    obtain rfl : s.engineStep d = t := by injection h
    have hother : b ≠ d := fun e => hengine (e ▸ rfl)
    obtain ⟨-, -, -, -, -, -, -, -, -, -, hgrp, -⟩ := engineStep_frame s d
    exact hsame (hgrp b hother)
  | host n =>
    obtain rfl : s.hostStep n = t := by injection h
    rcases hostStep_cases s n with e | ⟨cmd, arg0, arg1, dbuf, q, -, -, e⟩ | ⟨q, r, -, -, e⟩
    · exact hsame (by rw [e])
    · exact hsame (by rw [e, drawn_grp, onPort_grp, onSeq_grp])
    · exact hsame (by rw [e, onPort_grp, onSeq_grp])
  | master k =>
    rcases masterMove_cases k s with ⟨e, -⟩ | ⟨x, u, -, hu, e⟩
    · obtain rfl : s = t := by injection e.symm.trans h
      exact .same
    · obtain rfl : u.retire k = t := by injection e.symm.trans h
      obtain ⟨-, -, -, -, -, -, -, -, -, -, -, hgrp, -⟩ := present_effect hu
      obtain ⟨l, hretire⟩ := retire_frame u k
      rw [hretire]
      cases b
      · exact hgrp .b1
      · exact hgrp .b2
  | reset => exact absurd rfl hreset

/-- Settles O52: any other move makes one transaction at most in the group, which ends no operation. -/
theorem nothingCancelsAnOperation : Obligations.NothingCancelsAnOperation := by
  intro s t b op hstep hi hengine hreset
  obtain ⟨l, n, hsched⟩ := scheduled_frame s
  have hgrp : s.scheduled.grp b = s.grp b := by rw [hsched]; cases b <;> rfl
  rw [← hgrp] at hi
  obtain ⟨-, ⟨a, ha, hmove⟩ | ⟨-, rfl⟩⟩ := step_cases hstep
  · have hother : a ≠ .engine b := fun e => hengine (e ▸ ha)
    exact (move_groupEffect hmove hother fun e => hreset (e ▸ ha)).inflight hi
  · exact hi

end Sys2Proof.Machine
end

section
/-! PROOFS. Family 42_error_classifier.md: the flag-clear sequence (R161). FC_CLEAR writes `lowestBit FCM`, which is a
single bit, so the SR write of R108 touches the one flag it stands for. -/
namespace Sys2Proof.Machine
variable {s : State} {b : Bank} {i : Instr} {idx : BitVec 8}

/-! ### The lowest set bit of a word -/

theorem bit_getLsbD {k : Nat} (hk : k < 32) (j : Nat) : (1#32 <<< k).getLsbD j = decide (k = j) := by
  rw [← BitVec.twoPow_eq, BitVec.getLsbD_twoPow, decide_eq_true hk, Bool.true_and]

/-- Below bit k the word and its negation are 0, at bit k both are 1, and above it the negation is the complement. -/
theorem lowestBit_eq {v : Word} {k : Nat} (hk : k < 32) (hset : v.getLsbD k = true)
    (hlow : ∀ j, j < k → v.getLsbD j = false) : lowestBit v = 1#32 <<< k := by
  apply BitVec.eq_of_getLsbD_eq
  intro j hj
  have hneg : (0 - v).getLsbD j = (v.getLsbD j ^^ decide (k < j)) := by
    rw [show 0 - v = -v from BitVec.zero_sub v, BitVec.getLsbD_neg, decide_eq_true hj, Bool.true_and]
    congr 2
    refine propext ⟨fun ⟨m, hm, hv⟩ => ?_, fun h => ⟨k, h, hset⟩⟩
    exact Nat.lt_of_le_of_lt (Nat.le_of_not_lt fun h => by simp [hlow m h] at hv) hm
  rw [lowestBit, BitVec.getLsbD_and, hneg, bit_getLsbD hk]
  rcases Nat.lt_trichotomy j k with h | rfl | h
  · simp [hlow j h, h.ne']
  · simp [hset]
  · simp [h, h.ne]

/-! ### The SR write of one bit (R107, R108) -/

/-- Writing bit k alone clears the flag at bit k, where SR has one, and no other. -/
theorem writeSr_bit (s : State) (b : Bank) {k : Nat} (hk : k < 32) :
    s.writeSr b (1#32 <<< k) = s.onGrp b fun g => { g with
      keyState := .k0
      eop := g.eop && !(s.cfg.hasEop && decide (k = 1))
      wrperr := g.wrperr && decide (k ≠ 2)
      sizerr := g.sizerr && decide (k ≠ 3)
      pgserr := g.pgserr && decide (k ≠ 4)
      eccerr := g.eccerr && decide (k ≠ 5)
      bsyerr := g.bsyerr && decide (k ≠ 6) } :=
  onGrp_congr (by simp only [Group.interleave_eq, Group.srWrite, bit_getLsbD hk, decide_not])

/-! ### The two states (R161) -/

/-- A change of the running sequencer is known by what it makes of the sequencer that stands there. -/
theorem onCur_congr {f g : Sequencer → Sequencer} (h : f s.cur = g s.cur) : s.onCur f = s.onCur g := by
  unfold State.cur at h
  unfold State.onCur
  cases hn : s.turn <;> simpa [State.onSeq, State.seq, hn] using h

theorem stepFcReadSr_on (hc : s.cfg.clockEnabled = true) :
    stepFcReadSr b s = (s.onGrp b fun g => { g with keyState := .k0 }).onCur fun q =>
      { q with srv := srWord s.cfg (s.grp b), fcm := srWord s.cfg (s.grp b) &&& 0x0000007C, state := .fcClear } := by
  rw [stepFcReadSr, seqReadSr, clocked_on hc, touch_eq]
  rfl

/-- With a flag left, FC_CLEAR writes the lowest of them and drops it from FCM. -/
theorem stepFcClear_bit (hc : s.cfg.clockEnabled = true) {k : Nat} (hk : k < 32) (hset : s.cur.fcm.getLsbD k = true)
    (hlow : ∀ j, j < k → s.cur.fcm.getLsbD j = false) (next : Sequencer → Sequencer) :
    stepFcClear b next s =
      (s.writeSr b (1#32 <<< k)).onCur fun q => { q with fcm := q.fcm &&& ~~~(1#32 <<< k) } := by
  have hbit : lowestBit s.cur.fcm = 1#32 <<< k := lowestBit_eq hk hset hlow
  have hne : s.cur.fcm ≠ 0 := fun h => by simp [h] at hset
  rw [stepFcClear, if_neg hne, seqWriteSr, clocked_on hc, hbit]
  exact onCur_congr (by rw [State.writeSr, onGrp_cur, hbit])

/-- Where FC_CLEAR leaves for once no flag is left: CLEAR_ERRORS ends, ERASE_BANK configures, and the two commands on a
unit validate (R161, R185). -/
def afterFlagClear (b : Bank) (i : Instr) : Sequencer → Sequencer :=
  if i = .clearErrors b then fun q => q.finish .ok
  else if i = .eraseBank b then fun q => q.goto .cfgReadCr
  else fun q => q.goto .validate

theorem afterFlagClear_apply (b : Bank) (i : Instr) (q : Sequencer) : afterFlagClear b i q =
    if i = .clearErrors b then { q with res := .ok, state := .done }
    else if i = .eraseBank b then { q with state := .cfgReadCr }
    else { q with state := .validate } := by
  unfold afterFlagClear
  split_ifs <;> rfl

section
variable (hi : i ∈ [Instr.clearErrors b, .eraseUnit b idx, .eraseBank b, .writeUnit b idx])
include hi

/-- The four commands that clear flags share FC_READ_SR. -/
theorem exec_fcReadSr (hs : s.cur.state = .fcReadSr) : exec i s = .next (stepFcReadSr b s) := by
  simp only [List.mem_cons, List.not_mem_nil, or_false] at hi
  rcases hi with rfl | rfl | rfl | rfl <;>
    simp only [exec, execClearErrors, execEraseUnit, execEraseBank, execWriteUnit, hs]

/-- They share FC_CLEAR but for the state it leaves for. -/
theorem exec_fcClear (hs : s.cur.state = .fcClear) : exec i s = .next (stepFcClear b (afterFlagClear b i) s) := by
  simp only [List.mem_cons, List.not_mem_nil, or_false] at hi
  rcases hi with rfl | rfl | rfl | rfl <;>
    simp only [exec, execClearErrors, execEraseUnit, execEraseBank, execWriteUnit, hs,
      afterFlagClear, if_pos, reduceCtorEq, if_false]

end

/-- Settles O28: FC_READ_SR is one SR read, and FC_CLEAR one SR write of the lowest flag left, or none. -/
theorem flagClearSequence : Obligations.FlagClearSequence := by
  intro s b i idx hi hc
  refine ⟨fun hs => ?_, fun hs hzero => ?_, fun k hs hk hset hlow => ?_⟩
  · rw [exec_fcReadSr hi hs, stepFcReadSr_on hc]
  · rw [exec_fcClear hi hs, stepFcClear, if_pos hzero]
    exact congrArg _ (onCur_congr (afterFlagClear_apply b i _))
  · rw [exec_fcClear hi hs, stepFcClear_bit hc hk hset hlow, writeSr_bit s b hk]

end Sys2Proof.Machine
end

section
/-! PROOFS. Family 45_address_translation_and_read.md: address translation (R220, R222). A unit's first byte determines
its bank, by the disjoint flash windows (R9 (c)), and its index, by `unitOf`. -/
namespace Sys2Proof.Machine
variable {c : Config} {b d : Bank} {i j : Nat}

/-- R9 (c): the flash window an address lies in names its bank. -/
theorem inFlash_bank_unique (hw : c.wf = true) {a : Nat} (hb : c.inFlash b a = true) (hd : c.inFlash d a = true) :
    b = d :=
  Option.some.inj ((Config.flashBank_of_inFlash hw hb).symm.trans (Config.flashBank_of_inFlash hw hd))

/-- A unit's first byte lies in its bank's window and belongs to the unit. -/
theorem unitToAddress_inUnit (hb : c.hasBank b = true) (hi : i < c.unitCount) :
    c.inFlash b (c.unitToAddress i b) = true ∧ c.unitOf b (c.unitToAddress i b) = i :=
  Config.inUnit hb hi c.unitSize_pos

theorem unitToAddress_injective (hw : c.wf = true) (hb : c.hasBank b = true) (hd : c.hasBank d = true)
    (hi : i < c.unitCount) (hj : j < c.unitCount) (h : c.unitToAddress i b = c.unitToAddress j d) : b = d ∧ i = j := by
  obtain ⟨hbank, hindex⟩ := unitToAddress_inUnit hb hi
  obtain ⟨hbank', hindex'⟩ := unitToAddress_inUnit hd hj
  obtain rfl : b = d := inFlash_bank_unique hw hbank (h ▸ hbank')
  exact ⟨rfl, by rw [← hindex, h, hindex']⟩

/-- The next unit begins where unit i ends. -/
theorem unitToAddress_succ (c : Config) (i : Nat) (b : Bank) :
    c.unitToAddress (i + 1) b = c.unitToAddress i b + c.unitSize := by
  simp only [Config.unitToAddress, Nat.succ_mul, Nat.add_assoc]

/-- Each unit begins above the one before it, since UNIT_SIZE > 0. -/
theorem unitToAddress_strictMono (c : Config) (b : Bank) : StrictMono (c.unitToAddress · b) :=
  strictMono_nat_of_lt_succ fun i => by
    rw [unitToAddress_succ]
    exact Nat.lt_add_of_pos_right c.unitSize_pos

/-- Settles O56: bank and index are read off a unit's first byte, and units follow each other UNIT_SIZE apart. -/
theorem unitAddressesAreInjective : Obligations.UnitAddressesAreInjective := by
  intro c b d i j hw hb hd hi hj
  exact ⟨unitToAddress_injective hw hb hd hi hj, fun h => unitToAddress_strictMono c b h, unitToAddress_succ c i b,
    unit_fits hw hb hi⟩

end Sys2Proof.Machine
end

section
/-! PROOFS. Family other, the encodings (30_encoding.md R85, R86): the decoder takes a word apart into the fields the
encoder put together, and the fields of a word the decoder accepts put it together again. -/
namespace Sys2Proof.Machine

/-! ### The fields of a command word (R86) -/

section
variable (op : BitVec 4) (b : Bank) (idx : BitVec 8)

@[simp] theorem commandWord_op : (commandWord op b idx).extractLsb' 0 4 = op := by
  apply BitVec.eq_of_getLsbD_eq
  intro i hi
  simp only [commandWord, BitVec.getLsbD_extractLsb', BitVec.getLsbD_append, Nat.zero_add]
  simp [hi]

@[simp] theorem commandWord_index : (commandWord op b idx).extractLsb' 8 8 = idx := by
  apply BitVec.eq_of_getLsbD_eq
  intro i hi
  simp only [commandWord, BitVec.getLsbD_extractLsb', BitVec.getLsbD_append]
  simp (disch := omega) only [decide_eq_true, Bool.true_and, if_neg, if_pos]
  congr 1
  omega

theorem commandWord_bank : (commandWord op b idx).getLsbD 4 = b.index := by
  simp only [commandWord, BitVec.getLsbD_append]
  simp

@[simp] theorem commandWord_reserved_low : (commandWord op b idx).extractLsb' 5 3 = 0 := by
  apply BitVec.eq_of_getLsbD_eq
  intro i hi
  simp only [commandWord, BitVec.getLsbD_extractLsb', BitVec.getLsbD_append]
  interval_cases i <;> simp

@[simp] theorem commandWord_reserved_high : (commandWord op b idx).extractLsb' 16 16 = 0 := by
  apply BitVec.eq_of_getLsbD_eq
  intro i hi
  simp only [commandWord, BitVec.getLsbD_extractLsb', BitVec.getLsbD_append]
  simp (disch := omega) only [if_neg]
  simp

@[simp] theorem bankOfBit_index : bankOfBit b.index = b := by cases b <;> rfl

/-- A word of a command that takes the index given decodes to the command its operation code names (R86, R87). -/
theorem decodeCommand_commandWord (hidx : takesNoIndex op = true → idx = 0) {i : Instr}
    (hi : commandOf op b idx = some i) : decode (.cmd (commandWord op b idx)) = .ok i := by
  change decodeCommand (commandWord op b idx) = .ok i
  unfold decodeCommand
  rw [if_neg (by simp), if_neg (by simpa using hidx), commandWord_op, commandWord_index, commandWord_bank,
    bankOfBit_index, hi]

end

/-- Settles O1: a command's word is its three fields, and a transaction's descriptor is a constant. -/
theorem decodeOfEncode : Obligations.DecodeOfEncode := by
  intro i
  cases i
  case unlock b | lock b | clearErrors b | eraseBank b => exact decodeCommand_commandWord _ _ _ (fun _ => rfl) rfl
  case eraseUnit b idx | writeUnit b idx | readUnit b idx | unitToAddress b idx =>
    exact decodeCommand_commandWord _ _ _ (fun h => absurd h (by decide)) rfl
  all_goals decide

/-! ### Words from their fields -/

/-- A 32-bit word whose reserved bits are 0 is the command word of its fields (R86). -/
theorem commandWord_of_fields {w : Word} (hlow : w.extractLsb' 5 3 = 0) (hhigh : w.extractLsb' 16 16 = 0) :
    commandWord (w.extractLsb' 0 4) (bankOfBit (w.getLsbD 4)) (w.extractLsb' 8 8) = w := by
  have hbank : (bankOfBit (w.getLsbD 4)).index = w.getLsbD 4 := by cases w.getLsbD 4 <;> rfl
  have hlow' := (extract_eq_iff w 0 5 3).mp (by simpa using hlow)
  have hhigh' := (extract_eq_iff w 0 16 16).mp (by simpa using hhigh)
  apply BitVec.eq_of_getLsbD_eq
  intro i hi
  simp only [commandWord, hbank, BitVec.getLsbD_append, BitVec.getLsbD_ofBool, BitVec.getLsbD_extractLsb']
  split_ifs with h4 h5 h8 h16
  · simp [h4]
  · obtain rfl : i = 4 := by omega
    simp
  · simpa using (hlow' i (by omega) (by omega)).symm
  · simp [h16, show 8 + (i - 4 - 1 - 3) = i from by omega]
  · simpa using (hhigh' i (by omega) (by omega)).symm

/-- The encoder's word of the command an operation code names is the word of its fields. -/
theorem encode_commandOf {op : BitVec 4} {b : Bank} {idx : BitVec 8} {i : Instr} (hi : commandOf op b idx = some i)
    (hidx : takesNoIndex op = true → idx = 0) : encode i = .cmd (commandWord op b idx) := by
  obtain ⟨hb, -, hop⟩ := commandOf_some hi
  cases i
  case unlock d | lock d | clearErrors d | eraseBank d =>
    obtain rfl : d = b := Option.some.inj hb
    rw [hidx (by rw [hop]; rfl), hop]
    rfl
  case eraseUnit d j | writeUnit d j | readUnit d j | unitToAddress d j =>
    obtain rfl : d = b := Option.some.inj hb
    rw [hop.1, hop.2.symm]
    rfl
  all_goals exact hop.elim

theorem encode_decodeCommand {w : Word} {i : Instr} (h : decodeCommand w = .ok i) : encode i = .cmd w := by
  unfold decodeCommand at h
  split_ifs at h with hres hidx
  obtain ⟨hhigh, hlow⟩ := not_or.mp hres
  split at h
  · next j hj =>
    obtain rfl : j = i := by injection h
    rw [encode_commandOf hj fun hop => by_contra fun hne => hidx ⟨hop, hne⟩,
      commandWord_of_fields (not_not.mp hlow) (not_not.mp hhigh)]
  · cases h

/-- A 16-bit word whose bits 11:4 are 0 is the descriptor of its fields (R85). -/
theorem descriptor_of_fields {d : Desc} (hres : d.extractLsb' 4 8 = 0) :
    descriptor (d.getLsbD 15) (d.extractLsb' 13 2) (d.getLsbD 12) (d.extractLsb' 0 4) = d := by
  apply BitVec.eq_of_getLsbD_eq
  intro i hi
  simp only [descriptor, BitVec.getLsbD_append, BitVec.getLsbD_ofBool, BitVec.getLsbD_extractLsb']
  split_ifs with h4 h12 h13 h15
  · simp [h4]
  · have hbit := congrArg (BitVec.getLsbD · (i - 4)) hres
    simpa [h12, show 4 + (i - 4) = i from by omega] using hbit.symm
  · obtain rfl : i = 12 := by omega
    simp
  · simp [h15, show 13 + (i - 4 - 8 - 1) = i from by omega]
  · obtain rfl : i = 15 := by omega
    simp

theorem encode_registerTxn {write : Bool} {off : BitVec 4} {i : Instr} (h : registerTxn write off = .ok i) :
    encode i = .bus (descriptor write 2 false off) := by
  cases write
  all_goals
    simp only [registerTxn, Bool.false_eq_true, if_false, if_true] at h
    split_ifs at h with h0 h4 h8 hc
  all_goals
    injection h with h
    subst h off
    rfl

theorem encode_arrayTxn {write : Bool} {sz : BitVec 2} {i : Instr} (h : arrayTxn write sz = .ok i) :
    encode i = .bus (descriptor write sz true 0) := by
  cases write
  all_goals
    simp only [arrayTxn, Bool.false_eq_true, if_false, if_true] at h
    split_ifs at h with h0 h1 h2
  all_goals
    injection h with h
    subst h sz
    rfl

theorem encode_decodeBus {d : Desc} {i : Instr} (h : decodeBus d = .ok i) : encode i = .bus d := by
  unfold decodeBus at h
  split_ifs at h with hres hsp hsz hoff
  · have hd := descriptor_of_fields (not_not.mp hres)
    rw [hsp, hsz] at hd
    rw [encode_registerTxn h, hd]
  · have hd := descriptor_of_fields (not_not.mp hres)
    rw [Bool.eq_true_of_not_eq_false hsp, not_not.mp hoff] at hd
    rw [encode_arrayTxn h, hd]

/-- Settles O2: an accepted word is put together from its fields, the reserved ones being 0. -/
theorem encodeOfDecode : Obligations.EncodeOfDecode := by
  intro k i h
  cases k with
  | cmd w => exact encode_decodeCommand h
  | bus d => exact encode_decodeBus h

/-- Settles O3: each word decodes to what the encoder makes it from. -/
theorem writtenWordsDecode : Obligations.WrittenWordsDecode :=
  ⟨decodeOfEncode (.eraseUnit .b1 10), decodeOfEncode (.eraseBank .b2), decodeOfEncode (.eraseUnit .b2 3),
    decodeOfEncode (.unlock .b1), decodeOfEncode .crWr, decodeOfEncode .arrRd16, decodeOfEncode .arrWr32⟩

end Sys2Proof.Machine
end

section
/-! PROOFS. Family other, the states the commands share (R44): at each of them every command that passes through it takes
the same step, but for the state it leaves for. One lemma per group of commands says so, and later proofs cite it. -/
namespace Sys2Proof.Machine
variable {s : State} {b : Bank} {i : Instr} {idx : BitVec 8}

/-- The commands that unlock their group first (R141). -/
def unlockers (b : Bank) (idx : BitVec 8) : List Instr := [.unlock b, .eraseUnit b idx, .eraseBank b, .writeUnit b idx]

/-- The commands that change the array (R240). -/
def mutators (b : Bank) (idx : BitVec 8) : List Instr := [.eraseUnit b idx, .eraseBank b, .writeUnit b idx]

/-- The commands that end in the standard lock (R151). -/
def lockers (b : Bank) (idx : BitVec 8) : List Instr := [.lock b, .eraseUnit b idx, .eraseBank b, .writeUnit b idx]

theorem unlocker_of_mutator (hi : i ∈ mutators b idx) : i ∈ unlockers b idx := List.mem_cons_of_mem _ hi

theorem locker_of_mutator (hi : i ∈ mutators b idx) : i ∈ lockers b idx := List.mem_cons_of_mem _ hi

/-- Where the unlock sequence leaves for: UNLOCK ends, the other commands check BSY (R141). -/
def afterUnlock (b : Bank) (i : Instr) : Sequencer → Sequencer :=
  if i = .unlock b then fun q => q.finish .ok else fun q => q.goto .busyCheck

/-- AFTER_OP of a command (R184, R204). -/
def afterOp (b : Bank) (idx : BitVec 8) (i : Instr) : Sequencer → Sequencer :=
  if i = .writeUnit b idx then writeAfterOp else eraseAfterOp

/-- The step at a state that several commands pass through (R44). -/
def sharedStep (b : Bank) (idx : BitVec 8) (i : Instr) (s : State) : State :=
  match s.cur.state with
  | .ulReadCr => stepUlReadCr b (afterUnlock b i) s
  | .ulKey1 => stepUlKey1 b s
  | .ulKey2 => stepUlKey2 b s
  | .ulCheck => stepUlCheck b (afterUnlock b i) s
  | .busyCheck => stepBusyCheck b s
  | .fcReadSr => stepFcReadSr b s
  | .fcClear => stepFcClear b (afterFlagClear b i) s
  | .cfgReadCr => stepCfgReadCr b s
  | .waitBsy => stepWaitBsy b s
  | .postCheck => stepPostCheck (afterOp b idx i) s
  | .waitEop => stepWaitEop b s
  | .ackEop => stepAckEop b (afterOp b idx i) s
  | .clrReadCr => stepClrReadCr b s
  | .clrWriteCr => stepClrWriteCr b s
  | .lkWait => stepLkWait b s
  | .lkReadCr => stepLkReadCr b s
  | .lkWriteCr => stepLkWriteCr b s
  | _ => s

/-- The states of the unlock sequence (R141). -/
def unlockStates : List SeqState := [.ulReadCr, .ulKey1, .ulKey2, .ulCheck]

/-- The states of the standard lock (R151). -/
def lockStates : List SeqState := [.lkWait, .lkReadCr, .lkWriteCr]

/-- The states between the two that the three mutating commands share. -/
def operationStates : List SeqState :=
  [.busyCheck, .fcReadSr, .fcClear, .cfgReadCr, .waitBsy, .postCheck, .waitEop, .ackEop, .clrReadCr, .clrWriteCr]

theorem exec_unlocker (hi : i ∈ unlockers b idx) (hs : s.cur.state ∈ unlockStates) :
    exec i s = .next (sharedStep b idx i s) := by
  simp only [unlockers, unlockStates, List.mem_cons, List.not_mem_nil, or_false] at hi hs
  rcases hi with rfl | rfl | rfl | rfl <;> rcases hs with hs | hs | hs | hs <;>
    simp only [exec, execUnlock, execEraseUnit, execEraseBank, execWriteUnit, sharedStep, afterUnlock, hs, reduceCtorEq,
      if_true, if_false]

theorem exec_locker (hi : i ∈ lockers b idx) (hs : s.cur.state ∈ lockStates) :
    exec i s = .next (sharedStep b idx i s) := by
  simp only [lockers, lockStates, List.mem_cons, List.not_mem_nil, or_false] at hi hs
  rcases hi with rfl | rfl | rfl | rfl <;> rcases hs with hs | hs | hs <;>
    simp only [exec, execLock, execEraseUnit, execEraseBank, execWriteUnit, sharedStep, hs]

theorem exec_mutator (hi : i ∈ mutators b idx) (hs : s.cur.state ∈ operationStates) :
    exec i s = .next (sharedStep b idx i s) := by
  simp only [mutators, operationStates, List.mem_cons, List.not_mem_nil, or_false] at hi hs
  rcases hi with rfl | rfl | rfl <;> rcases hs with hs | hs | hs | hs | hs | hs | hs | hs | hs | hs <;>
    simp only [exec, execEraseUnit, execEraseBank, execWriteUnit, sharedStep, afterOp, afterFlagClear, hs, reduceCtorEq,
      if_true, if_false]

/-! ### The states each command has for itself -/

/-- A step at a state that is not shared: the validations, the configure and start writes, the halves of a pair and the
read of a byte. -/
inductive OwnStep (b : Bank) (s : State) : Instr → State → Prop where
  | validateErase (idx : BitVec 8) : OwnStep b s (.eraseUnit b idx) (s.onCur (eraseValidate s.cfg))
  | validateWrite (idx : BitVec 8) : OwnStep b s (.writeUnit b idx) (s.onCur (writeValidate s.cfg b))
  | validateRead (idx : BitVec 8) : OwnStep b s (.readUnit b idx) (s.onCur (readValidate s.cfg b))
  | validateTranslate (idx : BitVec 8) : OwnStep b s (.unitToAddress b idx) (s.onCur (translateValidate s.cfg b))
  | configureErase (i : Instr) (v : Word) : OwnStep b s i (stepCfgWriteCr b v (fun q => q.goto .start) s)
  | configureWrite (idx : BitVec 8) (v : Word) : OwnStep b s (.writeUnit b idx) (stepCfgWriteCr b v writeLoop s)
  | start (i : Instr) : OwnStep b s i (stepStart b s)
  | low (idx : BitVec 8) (hs : s.cur.state = .pgWriteLo) : OwnStep b s (.writeUnit b idx) (stepPgWriteLo s)
  | high (idx : BitVec 8) (hs : s.cur.state = .pgWriteHi) : OwnStep b s (.writeUnit b idx) (stepPgWriteHi s)
  | byte (idx : BitVec 8) (hs : s.cur.state = .rdByte) : OwnStep b s (.readUnit b idx) (stepRdByte s)

/-- In the middle of a command. -/
def MidCommand (q : Sequencer) : Prop := atRest q.state = false

theorem own_state {st : SeqState} : atRest st = false → st ∉ unlockStates → st ∉ operationStates → st ∉ lockStates →
    st = .validate ∨ st = .cfgWriteCr ∨ st = .start ∨ st = .pgWriteLo ∨ st = .pgWriteHi ∨ st = .rdByte := by
  cases st <;> decide

theorem mutator_cases (hi : i ∈ mutators b idx) (hs : MidCommand s.cur) {t : State} (h : exec i s = .next t) :
    t = sharedStep b idx i s ∨ OwnStep b s i t := by
  have hshared : exec i s = .next (sharedStep b idx i s) → t = sharedStep b idx i s ∨ OwnStep b s i t := fun e =>
    .inl (by injection h.symm.trans e)
  by_cases hul : s.cur.state ∈ unlockStates
  · exact hshared (exec_unlocker (unlocker_of_mutator hi) hul)
  by_cases hop : s.cur.state ∈ operationStates
  · exact hshared (exec_mutator hi hop)
  by_cases hlk : s.cur.state ∈ lockStates
  · exact hshared (exec_locker (locker_of_mutator hi) hlk)
  right
  have hst := own_state hs hul hop hlk
  simp only [mutators, List.mem_cons, List.not_mem_nil, or_false] at hi
  rcases hi with rfl | rfl | rfl
  · rcases hst with e | e | e | e | e | e <;> simp only [exec, execEraseUnit, e] at h <;> cases h
    · exact .validateErase _
    · exact .configureErase _ _
    · exact .start _
  · rcases hst with e | e | e | e | e | e <;> simp only [exec, execEraseBank, e] at h <;> cases h
    · exact .configureErase _ _
    · exact .start _
  · rcases hst with e | e | e | e | e | e <;> simp only [exec, execWriteUnit, e] at h <;> cases h
    · exact .validateWrite _
    · exact .configureWrite _ _
    · exact .low _ e
    · exact .high _ e

/-- Everything a step past DECODE can be: one of the shared steps, or one of the command's own. -/
theorem exec_cases (hb : i.bank = some b) (hs : MidCommand s.cur) {t : State} (h : exec i s = .next t) :
    (∃ idx, t = sharedStep b idx i s) ∨ OwnStep b s i t := by
  have hshared : ∀ idx, exec i s = .next (sharedStep b idx i s) → (∃ idx, t = sharedStep b idx i s) ∨ OwnStep b s i t :=
    fun idx e => .inl ⟨idx, by injection h.symm.trans e⟩
  have hmutator : ∀ idx, i ∈ mutators b idx → (∃ idx, t = sharedStep b idx i s) ∨ OwnStep b s i t :=
    fun idx hi => (mutator_cases hi hs h).imp_left fun e => ⟨idx, e⟩
  cases i
  case unlock d =>
    obtain rfl : d = b := Option.some.inj hb
    by_cases hul : s.cur.state ∈ unlockStates
    · exact hshared 0 (exec_unlocker (by simp [unlockers]) hul)
    · simp only [exec, execUnlock] at h
      split at h <;> simp_all [unlockStates, MidCommand, atRest]
  case lock d =>
    obtain rfl : d = b := Option.some.inj hb
    by_cases hlk : s.cur.state ∈ lockStates
    · exact hshared 0 (exec_locker (by simp [lockers]) hlk)
    · simp only [exec, execLock] at h
      split at h <;> simp_all [lockStates, MidCommand, atRest]
  case clearErrors d =>
    obtain rfl : d = b := Option.some.inj hb
    simp only [exec, execClearErrors] at h
    split at h <;> cases h
    · next hd => simp [MidCommand, hd, atRest] at hs
    · next hst => exact .inl ⟨0, by simp only [sharedStep, hst]⟩
    · next hst => exact .inl ⟨0, by simp only [sharedStep, hst, afterFlagClear, if_true]⟩
  case eraseUnit d j =>
    obtain rfl : d = b := Option.some.inj hb
    exact hmutator j (by simp [mutators])
  case eraseBank d =>
    obtain rfl : d = b := Option.some.inj hb
    exact hmutator 0 (by simp [mutators])
  case writeUnit d j =>
    obtain rfl : d = b := Option.some.inj hb
    exact hmutator j (by simp [mutators])
  case readUnit d j =>
    obtain rfl : d = b := Option.some.inj hb
    simp only [exec, execReadUnit] at h
    split at h <;> cases h
    · next hd => simp [MidCommand, hd, atRest] at hs
    · exact .inr (.validateRead _)
    · next hst => exact .inr (.byte _ hst)
  case unitToAddress d j =>
    obtain rfl : d = b := Option.some.inj hb
    simp only [exec, execUnitToAddress] at h
    split at h <;> cases h
    · next hd => simp [MidCommand, hd, atRest] at hs
    · exact .inr (.validateTranslate _)
  all_goals cases hb

end Sys2Proof.Machine
end

section
/-! PROOFS. Family other, the whole-machine rules over one step: the invariant (R47), progress, and what no step touches
(R20, R66, R71, R127). Each is a property of the moves of the five kinds of agent. -/
namespace Sys2Proof.Machine
variable {s t : State} {b : Bank}

/-! ### The invariant by banks and sequencers -/

theorem Inv.group (h : Inv s) (b : Bank) : GroupInv s.cfg b (s.grp b) := by
  cases b
  · exact h.group1
  · exact h.group2

theorem Inv.seqOk (h : Inv s) (n : SeqId) : SeqOk s.cfg n (s.seq n) := by
  cases n
  · exact ⟨h.seq1, h.addr1⟩
  · exact ⟨h.seq2, h.addr2⟩

theorem Inv.of_parts (hw : s.cfg.wf = true) (hmem : s.mem.wf) (hmarks : marksWf s.marks)
    (hgroup : ∀ b, GroupInv s.cfg b (s.grp b)) (hseq : ∀ n, SeqOk s.cfg n (s.seq n)) : Inv s :=
  ⟨hw, hmem, hmarks, hgroup .b1, hgroup .b2, (hseq .s1).1, (hseq .s2).1, (hseq .s1).2, (hseq .s2).2⟩

/-- A sequencer that knows a command may use that command's bank, so the part has it (R242). -/
theorem Inv.hasBank (h : Inv s) {n : SeqId} (hop : (s.seq n).opr ≠ 0) : s.cfg.hasBank (s.seq n).bk = true :=
  bankLegal_has ((h.seqOk n).1.bank hop)

theorem Inv.scheduled (h : Inv s) : Inv s.scheduled := by
  obtain ⟨l, n, e⟩ := scheduled_frame s
  rw [e]
  exact ⟨h.config, h.memory, h.marks, h.group1, h.group2, h.seq1, h.seq2, h.addr1, h.addr2⟩

theorem Inv.withTurn (h : Inv s) (n : SeqId) : Inv { s with turn := n } :=
  ⟨h.config, h.memory, h.marks, h.group1, h.group2, h.seq1, h.seq2, h.addr1, h.addr2⟩

/-- At rest a sequencer's registers owe nothing but the bank. -/
theorem SeqOk.rest {c : Config} {n : SeqId} {q r : Sequencer} (h : SeqOk c n q) (hop : r.opr = q.opr) (hbk : r.bk = q.bk)
    (hr : atRest r.state = true) : SeqOk c n r := by
  have hstate : stateOfCommand q.opr r.state = true ∧ outOfLoops r.state = true ∧ r.state ≠ .rdByte := by
    cases e : r.state <;> simp [e, atRest] at hr <;> exact ⟨rfl, rfl, nofun⟩
  obtain ⟨hplace, hout, hread⟩ := hstate
  exact seqOk_move h hop hbk hplace (fun _ => outOfLoops_spec hout) (fun _ => hread)

theorem SeqOk.reset (c : Config) (n : SeqId) (era : Nat) : SeqOk c n (Sequencer.reset era) :=
  ⟨⟨rfl, fun h => absurd rfl h⟩, .outside (fun _ => ⟨nofun, nofun, rfl⟩) (fun _ => nofun)⟩

theorem seq_congr (h1 : t.q1 = s.q1) (h2 : t.q2 = s.q2) (n : SeqId) : t.seq n = s.seq n := by
  cases n
  · exact h1
  · exact h2

theorem resetEvent_grp (s : State) (b : Bank) : s.resetEvent.grp b = Group.reset := by
  obtain ⟨-, hg1, hg2, -⟩ := resetEvent_frame s
  cases b
  · exact hg1
  · exact hg2

theorem resetEvent_seq (s : State) (n : SeqId) : ∃ era, s.resetEvent.seq n = Sequencer.reset era := by
  obtain ⟨-, -, -, hq1, hq2, -⟩ := resetEvent_frame s
  cases n
  · exact ⟨_, hq1⟩
  · exact ⟨_, hq2⟩

/-! ### Every move keeps it -/

/-- A step of a command that changes a group changes one of a bank the part has. -/
theorem CommandEffect.groupInv (h : CommandEffect b s t) (hb : s.cfg.hasBank b = true) (hinv : Inv s) (d : Bank) :
    GroupInv s.cfg d (t.grp d) := by
  obtain ⟨heffect, hother⟩ := h.group d
  by_cases e : d = b
  · exact heffect.inv (e ▸ hb) (hinv.group d)
  · rcases hother e with hsame | ⟨a, -, ha⟩
    · rw [hsame]
      exact hinv.group d
    · exact heffect.inv (flashBank_has ha) (hinv.group d)

/-- A step of the running sequencer's command keeps the invariant, once it keeps the groups'. -/
theorem CommandEffect.inv {i : Instr} (h : CommandEffect b s t) (hexec : exec i s = .next t)
    (hi : (s.cur.state = .decode ∧ i.bank ≠ none) ∨ s.cur.command = some i)
    (hgroup : ∀ d, GroupInv s.cfg d (t.grp d)) (hinv : Inv s) : Inv t := by
  obtain ⟨hcfg, hmem, hmarks, -, -, -, -, hturn, -, hseq, -⟩ := h.frame
  refine .of_parts (by rw [hcfg]; exact hinv.config) (by rw [hmem]; exact hinv.memory)
    (by rw [hmarks]; exact hinv.marks) (by rw [hcfg]; exact hgroup) fun n => ?_
  rw [hcfg]
  by_cases e : n = s.turn
  · have hcur : t.cur = t.seq n := by rw [e, ← hturn]; rfl
    rw [← hcur, e]
    exact exec_seqOk hinv.config hi hexec (hinv.seqOk s.turn)
  · rw [hseq n e]
    exact hinv.seqOk n

theorem seqMove_inv {n : SeqId} (h : seqMove n s = .next t) (hinv : Inv s) : Inv t := by
  have hturn := hinv.withTurn n
  rcases seqMove_cases h with ⟨rfl, -⟩ | ⟨i, b, hb, hexec, ⟨hd, -⟩ | ⟨-, hcmd⟩⟩ | ⟨hd, rfl⟩
  · exact hinv
  · obtain ⟨f, rfl⟩ := exec_decode_quiet (s := { s with turn := n }) hb hd hexec
    refine (exec_effect hb hexec).inv hexec (.inl ⟨hd, by simp [hb]⟩) (fun d => ?_) hturn
    rw [onCur_grp]
    exact hturn.group d
  · have hbank := commandOf_bank hcmd
    obtain ⟨-, hop, -⟩ := commandOf_some hcmd
    obtain rfl : (s.seq n).bk = b := Option.some.inj (hbank.trans hb)
    have heffect := exec_effect hb hexec
    exact heffect.inv hexec (.inr hcmd) (heffect.groupInv (hinv.hasBank hop) hturn) hturn
  · refine .of_parts ?_ ?_ ?_ (fun d => ?_) (fun m => ?_)
    · rw [State.badCommand, onCur_cfg]; exact hinv.config
    · rw [State.badCommand, onCur_mem]; exact hinv.memory
    · rw [State.badCommand, onCur_marks]; exact hinv.marks
    · rw [State.badCommand, onCur_grp, onCur_cfg]; exact hturn.group d
    · rw [State.badCommand, onCur_cfg]
      by_cases e : m = n
      · subst e
        rw [State.onCur, onSeq_seq_same]
        exact (hturn.seqOk m).rest rfl rfl rfl
      · rw [onCur_seq_other _ _ _ e]
        exact hturn.seqOk m

theorem engineStep_keepsInv (hinv : Inv s) (b : Bank) : Inv (s.engineStep b) := by
  obtain ⟨hcfg, hq1, hq2, -⟩ := engineStep_frame s b
  obtain ⟨hmem, hmarks⟩ := engineStep_wf s b hinv.memory hinv.marks
  refine .of_parts (by rw [hcfg]; exact hinv.config) hmem hmarks
    (fun d => by rw [hcfg]; exact engineStep_inv d (hinv.group d)) fun n => ?_
  rw [hcfg, seq_congr hq1 hq2]
  exact hinv.seqOk n

/-- A change of a sequencer to a state at rest keeps the invariant (R247). -/
theorem Inv.onSeq_rest (hinv : Inv s) (n : SeqId) (f : Sequencer → Sequencer) (hop : (f (s.seq n)).opr = (s.seq n).opr)
    (hbk : (f (s.seq n)).bk = (s.seq n).bk) (hr : atRest (f (s.seq n)).state = true) : Inv (s.onSeq n f) := by
  refine .of_parts ?_ ?_ ?_ (fun d => ?_) (fun m => ?_)
  · rw [onSeq_cfg]; exact hinv.config
  · rw [onSeq_mem]; exact hinv.memory
  · rw [onSeq_marks]; exact hinv.marks
  · rw [onSeq_grp, onSeq_cfg]; exact hinv.group d
  · rw [onSeq_cfg]
    by_cases e : m = n
    · subst e
      rw [onSeq_seq_same]
      exact (hinv.seqOk m).rest hop hbk hr
    · rw [onSeq_seq_other _ _ _ _ e]
      exact hinv.seqOk m

theorem Inv.onPort (hinv : Inv s) (n : SeqId) (f : Port → Port) : Inv (s.onPort n f) := by
  cases n <;> exact ⟨hinv.config, hinv.memory, hinv.marks, hinv.group1, hinv.group2, hinv.seq1, hinv.seq2, hinv.addr1,
    hinv.addr2⟩

theorem Inv.drawn (hinv : Inv s) : Inv s.drawn :=
  ⟨hinv.config, hinv.memory, hinv.marks, hinv.group1, hinv.group2, hinv.seq1, hinv.seq2, hinv.addr1, hinv.addr2⟩

theorem hostStep_inv (hinv : Inv s) (n : SeqId) : Inv (s.hostStep n) := by
  rcases hostStep_cases s n with e | ⟨cmd, arg0, arg1, dbuf, q, -, -, e⟩ | ⟨q, r, -, -, e⟩
  · rw [e]; exact hinv
  · rw [e]
    exact ((hinv.onSeq_rest n _ rfl rfl rfl).onPort n _).drawn
  · rw [e]
    exact (hinv.onSeq_rest n _ rfl rfl rfl).onPort n _

theorem masterMove_inv {k : Nat} (h : masterMove k s = .next t) (hinv : Inv s) : Inv t := by
  rcases masterMove_cases k s with ⟨e, -⟩ | ⟨x, u, -, hu, e⟩
  · obtain rfl : s = t := by injection e.symm.trans h
    exact hinv
  · obtain rfl : u.retire k = t := by injection e.symm.trans h
    obtain ⟨hcfg, hmem, hmarks, hq1, hq2, -, -, -, -, -, -, hgroup, habsent⟩ := present_effect hu
    have hbank : ∀ d, GroupInv s.cfg d (u.grp d) := fun d => by
      cases hd : s.cfg.hasBank d
      · rw [habsent d hd]; exact hinv.group d
      · exact (hgroup d).inv hd (hinv.group d)
    obtain ⟨l, hretire⟩ := retire_frame u k
    rw [hretire]
    exact ⟨hcfg ▸ hinv.config, hmem ▸ hinv.memory, hmarks ▸ hinv.marks, hcfg ▸ hbank .b1, hcfg ▸ hbank .b2,
      hcfg ▸ hq1 ▸ hinv.seq1, hcfg ▸ hq2 ▸ hinv.seq2, hcfg ▸ hq1 ▸ hinv.addr1, hcfg ▸ hq2 ▸ hinv.addr2⟩

theorem resetEvent_inv (hinv : Inv s) : Inv s.resetEvent := by
  obtain ⟨hcfg, -⟩ := resetEvent_frame s
  obtain ⟨hmem, hmarks⟩ := resetEvent_wf s hinv.memory hinv.marks
  refine .of_parts (by rw [hcfg]; exact hinv.config) hmem hmarks (fun d => ?_) (fun n => ?_)
  · rw [resetEvent_grp]
    exact GroupInv.reset _ _
  · obtain ⟨era, e⟩ := resetEvent_seq s n
    rw [e]
    exact SeqOk.reset _ _ _

theorem move_inv {a : Agent} (h : move a s = .next t) (hinv : Inv s) : Inv t := by
  cases a with
  | seq n => exact seqMove_inv h hinv
  | engine b =>
    obtain rfl : s.engineStep b = t := by injection h
    exact engineStep_keepsInv hinv b
  | host n =>
    obtain rfl : s.hostStep n = t := by injection h
    exact hostStep_inv hinv n
  | master k => exact masterMove_inv h hinv
  | reset =>
    obtain rfl : s.resetEvent = t := by injection h
    exact resetEvent_inv hinv

/-- Settles O47: every agent's move keeps the invariant. -/
theorem stepKeepsTheInvariant : Obligations.StepKeepsTheInvariant := by
  intro s t hinv hstep
  obtain ⟨-, ⟨a, -, hmove⟩ | ⟨-, rfl⟩⟩ := step_cases hstep
  · exact move_inv hmove hinv.scheduled
  · exact hinv.scheduled

/-- Settles O46: every register has its reset value, and no master has a transaction. -/
theorem invariantsHoldAtReset : Obligations.InvariantsHoldAtReset := by
  refine ⟨.of_parts (by decide) Memory.wf_nil List.Pairwise.nil (fun b => ?_) (fun n => ?_),
    fun l h => absurd h List.not_mem_nil, fun n h => ?_⟩
  · cases b <;> exact GroupInv.reset _ _
  · cases n <;> exact SeqOk.reset _ _ _
  · cases n <;> exact absurd h (by decide)

end Sys2Proof.Machine
end

section
/-! PROOFS. Family other, what a step cannot do: stop (R262), unlock a command's exit (R156), be refused with the clock on
(R269), change the array but at completion (R66), start in a locked group or reach a protected unit (R71). -/
namespace Sys2Proof.Machine
variable {s t : State} {b : Bank} {i : Instr} {idx : BitVec 8}

/-! ### Progress -/

theorem commandOf_isSome {op : BitVec 4} (h0 : op ≠ 0) (h9 : op.toNat < 9) (b : Bank) (idx : BitVec 8) :
    ∃ i, commandOf op b idx = some i := by
  have hcode : op = opUnlock ∨ op = opLock ∨ op = opClearErrors ∨ op = opEraseUnit ∨ op = opEraseBank ∨
      op = opWriteUnit ∨ op = opReadUnit ∨ op = opUnitToAddress := by
    revert op
    decide
  rcases hcode with rfl | rfl | rfl | rfl | rfl | rfl | rfl | rfl <;> exact ⟨_, rfl⟩

/-- Past DECODE the place invariant leaves only the codes of R87. -/
theorem stateOfCommand_code {st : SeqState} (hr : atRest st = false) :
    ∀ op : BitVec 4, stateOfCommand op st = true → op ≠ 0 ∧ op.toNat < 9 := by
  cases st
  case idle | decode | done => exact absurd hr (by decide)
  all_goals decide

/-- A command has a step at each of its states. -/
theorem exec_progress {op : BitVec 4} (hc : commandOf op b idx = some i) (hp : stateOfCommand op s.cur.state = true)
    (hidle : s.cur.state ≠ .idle) (hdone : s.cur.state ≠ .done) : ∃ t, exec i s = .next t := by
  obtain ⟨-, -, hop⟩ := commandOf_some hc
  cases i
  case unlock | lock | clearErrors | eraseBank =>
    dsimp only at hop
    subst hop
    cases hst : s.cur.state <;>
      simp [hst, stateOfCommand, opUnlock, opLock, opClearErrors, opEraseUnit, opEraseBank, opWriteUnit, opReadUnit,
        opUnitToAddress] at hp hidle hdone <;>
      simp only [exec, execUnlock, execLock, execClearErrors, execEraseBank, hst] <;> exact ⟨_, rfl⟩
  case eraseUnit | writeUnit | readUnit | unitToAddress =>
    obtain ⟨rfl, -⟩ := hop
    cases hst : s.cur.state <;>
      simp [hst, stateOfCommand, opUnlock, opLock, opClearErrors, opEraseUnit, opEraseBank, opWriteUnit, opReadUnit,
        opUnitToAddress] at hp hidle hdone <;>
      simp only [exec, execEraseUnit, execWriteUnit, execReadUnit, execUnitToAddress, hst] <;> exact ⟨_, rfl⟩
  all_goals exact hop.elim

theorem atRest_eq_false {st : SeqState} : st ≠ .idle → st ≠ .done → st ≠ .decode → atRest st = false := by
  cases st <;> decide

theorem seqMove_progress (hinv : Inv s) (n : SeqId) : ∃ t, seqMove n s = .next t := by
  have hplace := (hinv.seqOk n).1.place
  unfold seqMove
  split
  · exact ⟨_, rfl⟩
  · exact ⟨_, rfl⟩
  · next hd =>
    split
    · next i hi =>
      obtain ⟨b, idx, hc, -⟩ := decodeCommand_ok hi
      have hst : ({ s with turn := n } : State).cur.state = .decode := hd
      exact exec_progress hc (by rw [hst]; rfl) (by rw [hst]; nofun) (by rw [hst]; nofun)
    · exact ⟨_, rfl⟩
  · next hidle hdone hdecode =>
    obtain ⟨h0, h9⟩ := stateOfCommand_code (atRest_eq_false hidle hdone hdecode) _ hplace
    obtain ⟨i, hc⟩ := commandOf_isSome h0 h9 (s.seq n).bk (s.seq n).idx
    have hcmd : (s.seq n).command = some i := hc
    rw [hcmd]
    exact exec_progress (s := { s with turn := n }) hc hplace hidle hdone

/-- Settles O48: the configuration is legal, and each agent has a move. -/
theorem invariantStatesNeverStop : Obligations.InvariantStatesNeverStop := by
  intro s hinv
  unfold step
  rw [if_pos hinv.config]
  split
  · next a _ =>
    cases a with
    | seq n => exact seqMove_progress hinv.scheduled n
    | engine b => exact ⟨_, rfl⟩
    | host n => exact ⟨_, rfl⟩
    | master k =>
      rcases masterMove_cases k s.scheduled with ⟨e, -⟩ | ⟨x, u, -, -, e⟩
      · exact ⟨_, e⟩
      · exact ⟨_, e⟩
    | reset => exact ⟨_, rfl⟩
  · exact ⟨_, rfl⟩

/-! ### The lock invariant (R156) -/

/-- A command that re-locks is one of the lockers. -/
theorem locker_of_relocks {op : BitVec 4} (hc : commandOf op b idx = some i) (hr : relocks op = true) :
    i ∈ lockers b idx := by
  obtain ⟨hb, -, hop⟩ := commandOf_some hc
  cases i
  case lock d | eraseBank d =>
    obtain rfl : d = b := Option.some.inj hb
    simp [lockers]
  case eraseUnit d j | writeUnit d j =>
    obtain rfl : d = b := Option.some.inj hb
    obtain ⟨-, rfl⟩ := hop
    simp [lockers]
  case unlock | clearErrors =>
    rw [hop] at hr
    exact absurd hr (by decide)
  case readUnit | unitToAddress =>
    rw [hop.1] at hr
    exact absurd hr (by decide)
  all_goals exact hop.elim

theorem writeLoop_mid (q : Sequencer) : MidCommand (writeLoop q) := by
  unfold writeLoop
  split <;> rfl

theorem afterOp_mid (q : Sequencer) : MidCommand (afterOp b idx i q) := by
  unfold afterOp
  split
  · exact writeLoop_mid _
  · rfl

section
variable (hi : i ∈ lockers b idx)
include hi

theorem afterUnlock_mid (q : Sequencer) : MidCommand (afterUnlock b i q) := by
  simp only [lockers, List.mem_cons, List.not_mem_nil, or_false] at hi
  rcases hi with rfl | rfl | rfl | rfl <;> rfl

theorem afterFlagClear_mid (q : Sequencer) : MidCommand (afterFlagClear b i q) := by
  simp only [lockers, List.mem_cons, List.not_mem_nil, or_false] at hi
  rcases hi with rfl | rfl | rfl | rfl <;> simp [MidCommand, afterFlagClear, atRest]

/-- Of the shared steps of a command that re-locks only UL_CHECK and LK_WRITE_CR can end it. -/
theorem sharedStep_mid (hs : MidCommand s.cur) (hul : s.cur.state ≠ .ulCheck) (hlk : s.cur.state ≠ .lkWriteCr)
    (j : BitVec 8) : MidCommand (sharedStep b j i s).cur := by
  unfold sharedStep
  split
  · exact ulReadCr_cur _ hs (fun _ => rfl) fun _ => afterUnlock_mid hi _
  · exact writeKeyr_cur _ _ hs rfl
  · exact writeKeyr_cur _ _ hs rfl
  · exact absurd ‹_› hul
  · exact busyCheck_cur hs (fun _ => rfl) fun _ => rfl
  · exact readSr_cur _ hs fun _ => rfl
  · exact fcClear_cur _ (afterFlagClear_mid hi _) fun _ => hs
  · exact readCr_cur _ hs fun _ => rfl
  · exact waitBsy_cur hs (fun _ _ => rfl) (fun _ _ => rfl) fun _ _ => hs
  · exact postCheck_cur _ rfl rfl (afterOp_mid _)
  · exact waitEop_cur hs (fun _ _ => rfl) (fun _ _ => rfl) fun _ _ => hs
  · exact writeSr_cur _ _ hs (afterOp_mid _)
  · exact readCr_cur _ hs fun _ => rfl
  · exact writeCr_cur _ _ hs rfl
  · exact lkWait_cur hs (fun _ _ => rfl) (fun _ _ => rfl) fun _ _ => hs
  · exact readCr_cur _ hs fun _ => rfl
  · exact absurd ‹_› hlk
  · exact hs

/-- UL_CHECK ends a command that re-locks where LOCK read 1, and leaves it as it is (R176). -/
theorem ulCheck_exit (hs : MidCommand s.cur) (hrest : atRest (stepUlCheck b (afterUnlock b i) s).cur.state = true) :
    ((stepUlCheck b (afterUnlock b i) s).grp b).lock = true := by
  have hlock : ((stepUlCheck b (afterUnlock b i) s).grp b).lock = (s.grp b).lock := by
    unfold stepUlCheck seqReadCr
    rcases clocked_cases s ((s.touch b).onCur fun q => _) with e | e <;> rw [e] <;> simp [State.touch]
  rw [hlock]
  by_contra hl
  have hmid : MidCommand (stepUlCheck b (afterUnlock b i) s).cur := by
    unfold stepUlCheck seqReadCr
    refine clocked_cur hs ?_
    simp only [onCur_cur, crWord_lock, hl]
    exact afterUnlock_mid hi _
  rw [hmid] at hrest
  cases hrest

end

/-- LK_WRITE_CR leaves its group locked, where the write is not refused (R151). -/
theorem lkWriteCr_exit (hs : MidCommand s.cur) (hrest : atRest (stepLkWriteCr b s).cur.state = true) :
    ((stepLkWriteCr b s).grp b).lock = true := by
  unfold stepLkWriteCr seqWriteCr at hrest ⊢
  rcases clocked_cases s ((s.writeCr b (lockValue s.cur.crv)).onCur fun q => q.goto .done) with e | e
  · obtain ⟨-, -, -, -, -, hbit, -⟩ := lockValue_bits s.cur.crv
    rw [e]
    simp [State.writeCr, Group.crWrite_lock, hbit]
  · rw [e, refuse_cur, hs] at hrest
    cases hrest

/-- No own step ends a command that re-locks. -/
theorem OwnStep.mid (h : OwnStep b s i t) (hi : i ∈ lockers b idx) (hs : MidCommand s.cur) : MidCommand t.cur := by
  cases h with
  | validateErase =>
    rw [onCur_cur, eraseValidate]
    split <;> rfl
  | validateWrite =>
    rw [onCur_cur, writeValidate]
    split <;> rfl
  | validateRead | validateTranslate | byte => simp [lockers] at hi
  | configureErase => exact writeCr_cur _ _ hs rfl
  | configureWrite => exact writeCr_cur _ _ hs (writeLoop_mid _)
  | start => exact writeCr_cur _ _ hs rfl
  | low => exact writeArr_cur _ _ _ hs rfl
  | high => exact writeArr_cur _ _ _ hs rfl

/-- At rest after a step of a command that re-locks, its group is locked. -/
theorem exec_exit_locked (hi : i ∈ lockers b idx) (hb : i.bank = some b) (hs : MidCommand s.cur) (h : exec i s = .next t)
    (hrest : atRest t.cur.state = true) : (t.grp b).lock = true := by
  have hmid : MidCommand t.cur → (t.grp b).lock = true := fun e => by
    rw [e] at hrest
    cases hrest
  rcases exec_cases hb hs h with ⟨j, rfl⟩ | hown
  · by_cases hul : s.cur.state = .ulCheck
    · simp only [sharedStep, hul] at hrest ⊢
      exact ulCheck_exit hi hs hrest
    · by_cases hlk : s.cur.state = .lkWriteCr
      · simp only [sharedStep, hlk] at hrest ⊢
        exact lkWriteCr_exit hs hrest
      · exact hmid (sharedStep_mid hi hs hul hlk j)
  · exact hmid (hown.mid hi hs)

/-- A step of a command on bank b reaches another bank's group through the array only, which leaves LOCK alone. -/
theorem CommandEffect.lock_other (h : CommandEffect b s t) {d : Bank} (hd : d ≠ b) :
    (t.grp d).lock = (s.grp d).lock := by
  have hreg : ∀ f : Group → Group, ((s.onGrp b f).grp d).lock = (s.grp d).lock := fun f => by
    rw [onGrp_grp_other _ _ _ _ hd]
  have harr : ∀ (k : Bank) (f : Group → Group), (∀ g, (f g).lock = g.lock) →
      ((s.onGrp k f).grp d).lock = (s.grp d).lock := fun k f hf => by
    rcases onGrp_grp_cases s k d f with ⟨-, e⟩ | ⟨-, e⟩
    · rw [e, hf]
    · rw [e]
  cases h with
  | same => rfl
  | refused => rw [refuse_grp]
  | quiet f => rw [onCur_grp]
  | touched f => rw [onCur_grp]; exact hreg _
  | keyr v f => rw [onCur_grp]; exact hreg _
  | sr v f => rw [onCur_grp]; exact hreg _
  | cr v f => rw [onCur_grp, State.writeCr, drawn_grp]; exact hreg _
  | arrWrite a v u f ha h =>
    rw [onCur_grp]
    rcases arrayWrite_cases h with ⟨k, -, rfl⟩ | ⟨-, -, rfl⟩
    · rw [drawn_grp]; exact harr _ _ fun g => Group.arrWrite_lock _ _ _ _ _ _ g
    · rfl
  | arrRead v u f h =>
    rw [onCur_grp]
    rcases arrayRead_cases h with ⟨k, -, -, rfl, -⟩ | ⟨k, -, -, -, rfl, -⟩ | ⟨-, -, rfl⟩
    · rw [drawn_grp]; exact harr _ _ fun g => Group.raise_lock _ g
    · rfl
    · rw [drawn_grp]

/-! ### Past DECODE a sequencer keeps its command (R45) -/

/-- `r` runs the command of `q`. -/
def SameCommand (q r : Sequencer) : Prop := r.opr = q.opr ∧ r.bk = q.bk

theorem writeLoop_same {q r : Sequencer} (h : SameCommand q r) : SameCommand q (writeLoop r) := by
  unfold writeLoop
  split <;> exact h

theorem eraseValidate_same (c : Config) (q : Sequencer) : SameCommand q (eraseValidate c q) := by
  unfold eraseValidate
  split <;> exact ⟨rfl, rfl⟩

theorem writeValidate_same (c : Config) (b : Bank) (q : Sequencer) : SameCommand q (writeValidate c b q) := by
  unfold writeValidate
  split <;> exact ⟨rfl, rfl⟩

theorem translateValidate_same (c : Config) (b : Bank) (q : Sequencer) : SameCommand q (translateValidate c b q) := by
  unfold translateValidate
  split <;> exact ⟨rfl, rfl⟩

theorem readValidate_same (c : Config) (b : Bank) (q : Sequencer) : SameCommand q (readValidate c b q) := by
  unfold readValidate
  dsimp only
  split_ifs <;> exact ⟨rfl, rfl⟩

theorem readByteDone_same (v : Byte) (q : Sequencer) : SameCommand q (readByteDone v q) := by
  unfold readByteDone
  dsimp only
  split <;> exact ⟨rfl, rfl⟩

theorem afterUnlock_same (b : Bank) (i : Instr) (q : Sequencer) : SameCommand q (afterUnlock b i q) := by
  unfold afterUnlock
  split <;> exact ⟨rfl, rfl⟩

theorem afterFlagClear_same (b : Bank) (i : Instr) (q : Sequencer) : SameCommand q (afterFlagClear b i q) := by
  unfold afterFlagClear
  split_ifs <;> exact ⟨rfl, rfl⟩

theorem afterOp_same (b : Bank) (idx : BitVec 8) (i : Instr) (q : Sequencer) : SameCommand q (afterOp b idx i q) := by
  unfold afterOp
  split
  · exact writeLoop_same ⟨rfl, rfl⟩
  · exact ⟨rfl, rfl⟩

theorem sharedStep_same (b : Bank) (idx : BitVec 8) (i : Instr) (s : State) :
    SameCommand s.cur (sharedStep b idx i s).cur := by
  have h0 : SameCommand s.cur s.cur := ⟨rfl, rfl⟩
  unfold sharedStep
  split
  · exact ulReadCr_cur _ h0 (fun _ => h0) fun _ => afterUnlock_same _ _ _
  · exact writeKeyr_cur _ _ h0 h0
  · exact writeKeyr_cur _ _ h0 h0
  · exact ulCheck_cur _ h0 (fun _ => h0) fun _ => afterUnlock_same _ _ _
  · exact busyCheck_cur h0 (fun _ => h0) fun _ => h0
  · exact readSr_cur _ h0 fun _ => h0
  · exact fcClear_cur _ (afterFlagClear_same _ _ _) fun _ => h0
  · exact readCr_cur _ h0 fun _ => h0
  · exact waitBsy_cur h0 (fun _ _ => h0) (fun _ _ => h0) fun _ _ => h0
  · exact postCheck_cur _ h0 h0 (afterOp_same _ _ _ _)
  · exact waitEop_cur h0 (fun _ _ => h0) (fun _ _ => h0) fun _ _ => h0
  · exact writeSr_cur _ _ h0 (afterOp_same _ _ _ _)
  · exact readCr_cur _ h0 fun _ => h0
  · exact writeCr_cur _ _ h0 h0
  · exact lkWait_cur h0 (fun _ _ => h0) (fun _ _ => h0) fun _ _ => h0
  · exact readCr_cur _ h0 fun _ => h0
  · exact writeCr_cur _ _ h0 h0
  · exact h0

theorem OwnStep.same (h : OwnStep b s i t) : SameCommand s.cur t.cur := by
  have h0 : SameCommand s.cur s.cur := ⟨rfl, rfl⟩
  cases h with
  | validateErase => rw [onCur_cur]; exact eraseValidate_same _ _
  | validateWrite => rw [onCur_cur]; exact writeValidate_same _ _ _
  | validateRead => rw [onCur_cur]; exact readValidate_same _ _ _
  | validateTranslate => rw [onCur_cur]; exact translateValidate_same _ _ _
  | configureErase v => exact writeCr_cur _ _ h0 h0
  | configureWrite v => exact writeCr_cur _ _ h0 (writeLoop_same h0)
  | start => exact writeCr_cur _ _ h0 h0
  | low => exact writeArr_cur _ _ _ h0 h0
  | high => exact writeArr_cur _ _ _ h0 h0
  | byte => exact rdByte_cur h0 fun v => readByteDone_same v _

theorem exec_sameCommand (hb : i.bank = some b) (hs : MidCommand s.cur) (h : exec i s = .next t) :
    SameCommand s.cur t.cur := by
  rcases exec_cases hb hs h with ⟨idx, rfl⟩ | hown
  · exact sharedStep_same _ _ _ _
  · exact hown.same

/-! ### The lock invariant is kept (R156) -/

/-- A legal DECODE of a command that re-locks leaves it in mid-command (R242). -/
theorem exec_decode_mid (hb : i.bank = some b) (hd : s.cur.state = .decode) (hl : bankLegal s.cfg s.turn b = true)
    (h : exec i s = .next t) : MidCommand t.cur := by
  cases i <;> simp only [Instr.bank, Option.some.injEq, reduceCtorEq] at hb <;> subst hb <;>
    simp only [exec, execUnlock, execLock, execClearErrors, execEraseUnit, execEraseBank, execWriteUnit, execReadUnit,
      execUnitToAddress, hd] at h <;>
    (injection h with h; subst h; rw [stepDecode, onCur_cur, if_pos hl]; rfl)

theorem relocks_ne_zero {op : BitVec 4} (h : relocks op = true) : op ≠ 0 := by
  rintro rfl
  exact absurd h (by decide)

/-- The sequencers' banks are disjoint (R8). -/
theorem bankLegal_unique {c : Config} (hw : c.wf = true) {n m : SeqId} (hn : bankLegal c n b = true)
    (hm : bankLegal c m b = true) : n = m := by
  simp only [bankLegal, Bool.and_eq_true, List.contains_iff_mem] at hn hm
  cases n <;> cases m
  · rfl
  · exact (Config.wf_owned_disjoint hw hn.2 hm.2).elim
  · exact (Config.wf_owned_disjoint hw hm.2 hn.2).elim
  · rfl

/-- What the lock invariant says of one sequencer. -/
def ExitLocked (s : State) (n : SeqId) : Prop :=
  relocks (s.seq n).opr = true → atRest (s.seq n).state = true → (s.grp (s.seq n).bk).lock = true

/-- A quiet step to a state at rest from one at rest leaves the exit as it was. -/
theorem ExitLocked.congr {n : SeqId} (h : ExitLocked s n) (hop : (t.seq n).opr = (s.seq n).opr)
    (hbk : (t.seq n).bk = (s.seq n).bk) (hrest : atRest (t.seq n).state = true → atRest (s.seq n).state = true)
    (hlock : ∀ b, (t.grp b).lock = (s.grp b).lock) : ExitLocked t n := fun hr ha => by
  rw [hlock, hbk]
  exact h (hop ▸ hr) (hrest ha)

theorem badCommand_exitLocked (h : ∀ m, ExitLocked s m) (hd : s.cur.state = .decode) (m : SeqId) :
    ExitLocked s.badCommand m := by
  have hlock : ∀ b, (s.badCommand.grp b).lock = (s.grp b).lock := fun b => by rw [State.badCommand, onCur_grp]
  by_cases e : m = s.turn
  · subst e
    have hseq : s.badCommand.seq s.turn = s.cur.finish .badCommand := onSeq_seq_same _ _ _
    refine (h s.turn).congr ?_ ?_ (fun _ => ?_) hlock
    · rw [hseq]; rfl
    · rw [hseq]; rfl
    · rw [← State.cur, hd]; rfl
  · have hseq : s.badCommand.seq m = s.seq m := onCur_seq_other _ _ _ e
    refine (h m).congr ?_ ?_ ?_ hlock <;> rw [hseq]
    exact id

/-- A step of the running sequencer's command keeps every exit locked. -/
theorem exec_exitLocked (hinv : Inv s) (h : ∀ m, ExitLocked s m) (hb : i.bank = some b) (hexec : exec i s = .next t)
    (hi : s.cur.state = .decode ∨ (MidCommand s.cur ∧ s.cur.command = some i)) (m : SeqId) : ExitLocked t m := by
  have heffect := exec_effect hb hexec
  obtain ⟨-, -, -, -, -, -, -, hturn, -, hseq, -⟩ := heffect.frame
  have hcur : t.cur = t.seq s.turn := by rw [← hturn]; rfl
  rcases hi with hd | ⟨hs, hcmd⟩
  · cases hl : bankLegal s.cfg s.turn b
    · obtain rfl : s.badCommand = t := by injection (exec_decode_badCommand hb hd hl).symm.trans hexec
      exact badCommand_exitLocked h hd m
    · obtain ⟨f, rfl⟩ := exec_decode_quiet hb hd hexec
      by_cases e : m = s.turn
      · subst e
        intro _ ha
        rw [← hcur, exec_decode_mid hb hd hl hexec] at ha
        cases ha
      · refine (h m).congr ?_ ?_ ?_ fun b => by rw [onCur_grp]
        all_goals rw [hseq m e]
        exact id
  · obtain rfl : s.cur.bk = b := Option.some.inj ((commandOf_bank hcmd).trans hb)
    obtain ⟨hop, hbk⟩ := exec_sameCommand hb hs hexec
    by_cases e : m = s.turn
    · subst e
      intro hr ha
      rw [← hcur] at hr ha ⊢
      rw [hop] at hr
      rw [hbk]
      exact exec_exit_locked (locker_of_relocks hcmd hr) hb hs hexec ha
    · intro hr ha
      rw [hseq m e] at hr ha ⊢
      obtain ⟨-, hne, -⟩ := commandOf_some hcmd
      have hother : (s.seq m).bk ≠ s.cur.bk := fun hsame => e <|
        bankLegal_unique hinv.config ((hinv.seqOk m).1.bank (relocks_ne_zero hr))
          (hsame ▸ (hinv.seqOk s.turn).1.bank hne)
      rw [heffect.lock_other hother]
      exact h m hr ha

theorem seqMove_exitLocked {n : SeqId} (hinv : Inv s) (h : ∀ m, ExitLocked s m) (hmove : seqMove n s = .next t)
    (m : SeqId) : ExitLocked t m := by
  have h' : ∀ m, ExitLocked { s with turn := n } m := h
  rcases seqMove_cases hmove with ⟨rfl, -⟩ | ⟨i, b, hb, hexec, ⟨hd, -⟩ | ⟨hs, hcmd⟩⟩ | ⟨hd, rfl⟩
  · exact h m
  · exact exec_exitLocked (hinv.withTurn n) h' hb hexec (.inl hd) m
  · exact exec_exitLocked (hinv.withTurn n) h' hb hexec (.inr ⟨hs, hcmd⟩) m
  · exact badCommand_exitLocked h' hd m

theorem engineStep_lock (s : State) (b d : Bank) : ((s.engineStep b).grp d).lock = (s.grp d).lock := by
  by_cases e : d = b
  · subst e
    rcases engineStep_grp s d with h | h | h <;> rw [h]
    · exact Group.complete_lock _ _
    · exact Group.fail_lock _ _ _ _
  · obtain ⟨-, -, -, -, -, -, -, -, -, -, hother, -⟩ := engineStep_frame s b
    rw [hother d e]

theorem hostStep_exitLocked (h : ∀ m, ExitLocked s m) (n m : SeqId) : ExitLocked (s.hostStep n) m := by
  have hcase : ∀ (f : Sequencer → Sequencer) (g : Port → Port), (f (s.seq n)).opr = (s.seq n).opr →
      (f (s.seq n)).bk = (s.seq n).bk → atRest (s.seq n).state = true → ExitLocked ((s.onSeq n f).onPort n g) m :=
    fun f g hop hbk hr => by
      by_cases e : m = n
      · subst e
        refine (h m).congr ?_ ?_ (fun _ => hr) fun b => by rw [onPort_grp, onSeq_grp]
        · rw [onPort_seq, onSeq_seq_same, hop]
        · rw [onPort_seq, onSeq_seq_same, hbk]
      · refine (h m).congr ?_ ?_ ?_ fun b => by rw [onPort_grp, onSeq_grp]
        all_goals rw [onPort_seq, onSeq_seq_other _ _ _ _ e]
        exact id
  rcases hostStep_cases s n with e | ⟨cmd, arg0, arg1, dbuf, q, -, hidle, e⟩ | ⟨q, r, -, hdone, e⟩
  · rw [e]; exact h m
  · rw [e]
    have hport := hcase (fun r => r.issue cmd arg0 arg1 dbuf s.draws) (fun p => { p with queue := q }) rfl rfl
      (by rw [hidle]; rfl)
    intro hr ha
    rw [drawn_seq] at hr ha ⊢
    rw [drawn_grp]
    exact hport hr ha
  · rw [e]
    exact hcase _ _ rfl rfl (by rw [hdone]; rfl)

/-- A single owner's masters have no transaction to make. -/
theorem singleOwner.ready (h : singleOwner s) (k : Nat) : s.ready k = none := by
  unfold State.ready
  split
  · next x r e => exact absurd (h _ (List.mem_of_getElem? e)) (by simp)
  · rfl

theorem LockInv.scheduled (h : LockInv s) : LockInv s.scheduled := by
  obtain ⟨l, n, e⟩ := scheduled_frame s
  rw [e]
  exact ⟨h.owner, h.rest⟩

theorem move_lockInv {a : Agent} (hinv : Inv s) (h : LockInv s) (hmove : move a s = .next t) : LockInv t := by
  have hexit : ∀ m, ExitLocked s m := h.rest
  have howner : t.masters = s.masters → singleOwner t := fun e => by
    unfold singleOwner
    rw [e]
    exact h.owner
  cases a with
  | seq n =>
    refine ⟨howner ?_, seqMove_exitLocked hinv hexit hmove⟩
    rcases seqMove_cases hmove with ⟨rfl, -⟩ | ⟨i, b, hb, hexec, -⟩ | ⟨-, rfl⟩
    · rfl
    · obtain ⟨-, -, -, -, -, -, hmasters, -⟩ := (exec_effect hb hexec).frame
      exact hmasters
    · rw [State.badCommand, onCur_masters]
  | engine b =>
    obtain rfl : s.engineStep b = t := by injection hmove
    obtain ⟨-, hq1, hq2, -, -, -, hmasters, -⟩ := engineStep_frame s b
    refine ⟨howner hmasters, fun n => (hexit n).congr ?_ ?_ ?_ (engineStep_lock s b)⟩
    all_goals rw [seq_congr hq1 hq2]
    exact id
  | host n =>
    obtain rfl : s.hostStep n = t := by injection hmove
    refine ⟨howner ?_, hostStep_exitLocked hexit n⟩
    rcases hostStep_cases s n with e | ⟨cmd, arg0, arg1, dbuf, q, -, -, e⟩ | ⟨q, r, -, -, e⟩ <;> rw [e]
    · rw [drawn_masters, onPort_masters, onSeq_masters]
    · rw [onPort_masters, onSeq_masters]
  | master k =>
    rcases masterMove_cases k s with ⟨e, -⟩ | ⟨x, u, hx, -⟩
    · obtain rfl : s = t := by injection e.symm.trans hmove
      exact h
    · rw [h.owner.ready k] at hx
      cases hx
  | reset =>
    obtain rfl : s.resetEvent = t := by injection hmove
    obtain ⟨-, -, -, -, -, -, -, -, hmasters, -⟩ := resetEvent_frame s
    exact ⟨howner hmasters, fun n _ _ => by rw [resetEvent_grp]; rfl⟩

/-- Settles O49: each agent's move keeps every exit locked. -/
theorem everyExitLeavesTheLockSet : Obligations.EveryExitLeavesTheLockSet := by
  intro s t hinv hlock hstep
  obtain ⟨-, ⟨a, -, hmove⟩ | ⟨-, rfl⟩⟩ := step_cases hstep
  · exact move_lockInv hinv.scheduled hlock.scheduled hmove
  · exact hlock.scheduled

end Sys2Proof.Machine
end

section
/-! PROOFS. Family other, noninterference: a sequencer stays in its banks (R248, R269), the array changes at completion
only (R66), locked groups and protected units are safe (R71), and engines are independent (R127). -/
namespace Sys2Proof.Machine
variable {s t : State} {b : Bank} {i : Instr} {idx : BitVec 8}

/-! ### A sequencer stays in its banks (R248, R269) -/

/-- A step on bank b that is no refused transaction while the clock is enabled, and leaves every other group alone. -/
structure StaysIn (b : Bank) (s t : State) : Prop where
  mark : s.cfg.clockEnabled = true → t.refusalMark = s.refusalMark
  group : ∀ d, d ≠ b → t.grp d = s.grp d

theorem StaysIn.quiet (b : Bank) (f : Sequencer → Sequencer) : StaysIn b s (s.onCur f) :=
  ⟨fun _ => onCur_refusalMark _ _, fun _ _ => onCur_grp _ _ _⟩

theorem StaysIn.onGrp (f : Group → Group) (k : Sequencer → Sequencer) : StaysIn b s ((s.onGrp b f).onCur k) :=
  ⟨fun _ => by rw [onCur_refusalMark, onGrp_refusalMark], fun d hd => by rw [onCur_grp, onGrp_grp_other _ _ _ _ hd]⟩

theorem StaysIn.onGrp_drawn (f : Group → Group) (k : Sequencer → Sequencer) :
    StaysIn b s ((s.onGrp b f).drawn.onCur k) :=
  ⟨fun _ => by rw [onCur_refusalMark, drawn_refusalMark, onGrp_refusalMark],
    fun d hd => by rw [onCur_grp, drawn_grp, onGrp_grp_other _ _ _ _ hd]⟩

theorem StaysIn.clocked (h : StaysIn b s t) : StaysIn b s (s.clocked t) := by
  refine ⟨fun hc => ?_, fun d hd => ?_⟩
  · rw [clocked_on hc]
    exact h.mark hc
  · rcases clocked_cases s t with e | e <;> rw [e]
    · exact h.group d hd
    · exact refuse_grp _ _

/-- The steps at the shared states make register transactions of their own group only. -/
theorem sharedStep_staysIn (b : Bank) (idx : BitVec 8) (i : Instr) (s : State) :
    StaysIn b s (sharedStep b idx i s) := by
  have hfcClear : ∀ k, StaysIn b s (stepFcClear b k s) := fun k => by
    unfold stepFcClear
    split
    · exact .quiet b _
    · exact (StaysIn.onGrp _ _).clocked
  unfold sharedStep
  split
  · exact (StaysIn.onGrp _ _).clocked
  · exact (StaysIn.onGrp _ _).clocked
  · exact (StaysIn.onGrp _ _).clocked
  · exact (StaysIn.onGrp _ _).clocked
  · exact (StaysIn.onGrp _ _).clocked
  · exact (StaysIn.onGrp _ _).clocked
  · exact hfcClear _
  · exact (StaysIn.onGrp _ _).clocked
  · exact (StaysIn.onGrp _ _).clocked
  · exact .quiet b _
  · exact (StaysIn.onGrp _ _).clocked
  · exact (StaysIn.onGrp _ _).clocked
  · exact (StaysIn.onGrp _ _).clocked
  · exact (StaysIn.onGrp_drawn _ _).clocked
  · exact (StaysIn.onGrp _ _).clocked
  · exact (StaysIn.onGrp _ _).clocked
  · exact (StaysIn.onGrp_drawn _ _).clocked
  · exact ⟨fun _ => rfl, fun _ _ => rfl⟩

theorem writeArr_staysIn {a : Word} (ha : s.cfg.flashBank a.toNat = some b) (v : Word) (k : Sequencer → Sequencer) :
    StaysIn b s (seqWriteArr a v k s) := by
  unfold seqWriteArr State.arrayWrite
  rw [ha]
  cases hc : s.cfg.clockEnabled
  · exact ⟨fun h => (by rw [hc] at h; cases h), fun d _ => refuse_grp _ _⟩
  · exact .onGrp_drawn _ _

theorem rdByte_staysIn (ha : s.cfg.flashBank s.cur.addr.toNat = some b) : StaysIn b s (stepRdByte s) := by
  unfold stepRdByte State.arrayRead
  rw [ha]
  cases hc : s.cfg.clockEnabled
  · exact ⟨fun h => (by rw [hc] at h; cases h), fun d _ => refuse_grp _ _⟩
  · simp only [sizeBytes, Nat.mod_one, ne_eq, not_true, if_false, Bool.true_eq_false]
    cases hb : (s.grp b).busy
    · cases he : touchesEcc s.cfg .b8 s.cur.addr.toNat
      · exact .quiet b _
      · exact .onGrp_drawn _ _
    · exact ⟨fun _ => rfl, fun _ _ => rfl⟩

/-- Byte o of unit u lies in its bank's window and no other (R60, R220). -/
theorem flashBank_unit {c : Config} (hw : c.wf = true) (hb : c.hasBank b = true) {u o : Nat} (hu : u < c.unitCount)
    (ho : o < c.unitSize) : c.flashBank (c.unitToAddress u b + o) = some b :=
  Config.flashBank_of_inFlash hw (Config.inUnit hb hu ho).1

/-- The addresses WRITE_UNIT and READ_UNIT access lie in their own bank (R203, R223). -/
theorem OwnStep.staysIn (h : OwnStep b s i t) (hinv : Inv s) (hb : s.cur.bk = b) (hbank : s.cfg.hasBank b = true) :
    StaysIn b s t := by
  obtain ⟨hplace, haddr⟩ := hinv.seqOk s.turn
  have hplace : stateOfCommand s.cur.opr s.cur.state = true := hplace.place
  have haddr : AddressInv s.cfg s.cur := haddr
  have hpair : inPairLoop s.cur.state = true → s.cur.opr = opWriteUnit →
      s.cfg.flashBank s.cur.addr.toNat = some b ∧ s.cfg.flashBank (s.cur.addr + 4).toNat = some b := fun hp hop => by
    obtain ⟨hu, hsize, hk, ha⟩ := haddr.pairs hop hp
    have hfit := unit_fits hinv.config hbank hu
    rw [hb] at ha
    have ha4 : (s.cur.addr + 4).toNat = s.cur.addr.toNat + 4 := by
      rw [BitVec.toNat_add, show (4 : Word).toNat = 4 from rfl]
      exact Nat.mod_eq_of_lt (by omega)
    rw [ha4, ha, Nat.add_assoc]
    exact ⟨flashBank_unit hinv.config hbank hu (by omega), flashBank_unit hinv.config hbank hu (by omega)⟩
  cases h with
  | validateErase | validateWrite | validateRead | validateTranslate => exact .quiet b _
  | configureErase | configureWrite | start => exact (StaysIn.onGrp_drawn _ _).clocked
  | low idx hs =>
    rw [hs] at hplace hpair
    exact writeArr_staysIn (hpair rfl (by simpa [stateOfCommand] using hplace)).1 _ _
  | high idx hs =>
    rw [hs] at hplace hpair
    exact writeArr_staysIn (hpair rfl (by simpa [stateOfCommand] using hplace)).2 _ _
  | byte idx hs =>
    rw [hs] at hplace
    obtain ⟨hu, hsize, hk, ha⟩ := haddr.bytes (by simpa [stateOfCommand] using hplace) hs
    refine rdByte_staysIn ?_
    rw [ha, hb, Nat.add_assoc]
    exact flashBank_unit hinv.config hbank hu (by omega)

theorem seqMove_staysIn {n : SeqId} (hinv : Inv s) (h : seqMove n s = .next t) :
    (s.cfg.clockEnabled = true → t.refusalMark = s.refusalMark) ∧ ∀ b, b ∉ s.cfg.owned n → t.grp b = s.grp b := by
  have hquiet : ∀ f, t = ({ s with turn := n } : State).onCur f →
      (s.cfg.clockEnabled = true → t.refusalMark = s.refusalMark) ∧ ∀ b, b ∉ s.cfg.owned n → t.grp b = s.grp b :=
    fun f e => by
      subst e
      refine ⟨fun _ => onCur_refusalMark _ _, fun b _ => ?_⟩
      rw [onCur_grp]
      cases b <;> rfl
  rcases seqMove_cases h with ⟨rfl, -⟩ | ⟨i, b, hb, hexec, ⟨hd, -⟩ | ⟨hs, hcmd⟩⟩ | ⟨-, e⟩
  · exact ⟨fun _ => rfl, fun _ _ => rfl⟩
  · obtain ⟨f, e⟩ := exec_decode_quiet (s := { s with turn := n }) hb hd hexec
    exact hquiet f e
  · obtain ⟨-, hop, -⟩ := commandOf_some hcmd
    obtain rfl : (s.seq n).bk = b := Option.some.inj ((commandOf_bank hcmd).trans hb)
    have hlegal := (hinv.seqOk n).1.bank hop
    have hstays : StaysIn (s.seq n).bk { s with turn := n } t := by
      rcases exec_cases (s := { s with turn := n }) hb hs hexec with ⟨j, rfl⟩ | hown
      · exact sharedStep_staysIn _ _ _ _
      · exact hown.staysIn (hinv.withTurn n) rfl (bankLegal_has hlegal)
    simp only [bankLegal, Bool.and_eq_true, List.contains_iff_mem] at hlegal
    refine ⟨hstays.mark, fun d hd => ?_⟩
    rw [hstays.group d fun e => hd (e ▸ hlegal.2)]
    cases d <;> rfl
  · exact hquiet _ e

/-- Settles O50: a step of a command is a register transaction of its own group, or an array access its address
invariant keeps in its bank. -/
theorem sequencerStaysInItsBanks : Obligations.SequencerStaysInItsBanks := by
  intro s t n hinv hmover hstep
  obtain ⟨-, ⟨a, ha, hmove⟩ | ⟨hnone, -⟩⟩ := step_cases hstep
  · obtain rfl : a = .seq n := Option.some.inj (ha.symm.trans hmover)
    have hstays := seqMove_staysIn hinv.scheduled hmove
    obtain ⟨l, k, e⟩ := scheduled_frame s
    have hgrp : ∀ b, s.scheduled.grp b = s.grp b := fun b => by rw [e]; cases b <;> rfl
    simp only [hgrp] at hstays
    rw [e] at hstays
    exact hstays
  · rw [hmover] at hnone
    cases hnone

/-! ### The array changes at completion only (R66) -/

/-- What every move leaves alone: the parameters, the refusal mark once set, and, unless an engine or the reset moves,
the array and the `programmed` bits. -/
structure ArrayFrame (s t : State) (atCompletion : Prop) : Prop where
  cfg : t.cfg = s.cfg
  mark : s.refusalMark = true → t.refusalMark = true
  array : ¬atCompletion → t.mem = s.mem ∧ t.marks = s.marks

theorem move_arrayFrame {a : Agent} (h : move a s = .next t) :
    ArrayFrame s t ((∃ b, a = .engine b) ∨ a = .reset) := by
  cases a with
  | seq n =>
    rcases seqMove_cases h with ⟨rfl, -⟩ | ⟨i, b, hb, hexec, -⟩ | ⟨-, rfl⟩
    · exact ⟨rfl, id, fun _ => ⟨rfl, rfl⟩⟩
    · obtain ⟨hcfg, hmem, hmarks, -, -, -, -, -, -, -, hmark⟩ := (exec_effect hb hexec).frame
      exact ⟨hcfg, hmark, fun _ => ⟨hmem, hmarks⟩⟩
    · refine ⟨onCur_cfg _ _, fun hm => ?_, fun _ => ⟨onCur_mem _ _, onCur_marks _ _⟩⟩
      rw [State.badCommand, onCur_refusalMark]
      exact hm
  | engine b =>
    obtain rfl : s.engineStep b = t := by injection h
    obtain ⟨hcfg, -, -, -, -, -, -, hmark, -⟩ := engineStep_frame s b
    exact ⟨hcfg, fun hm => hmark.trans hm, fun hn => absurd (.inl ⟨b, rfl⟩) hn⟩
  | host n =>
    obtain rfl : s.hostStep n = t := by injection h
    rcases hostStep_cases s n with e | ⟨cmd, arg0, arg1, dbuf, q, -, -, e⟩ | ⟨q, r, -, -, e⟩ <;> rw [e]
    · exact ⟨rfl, id, fun _ => ⟨rfl, rfl⟩⟩
    · constructor <;> simp
    · constructor <;> simp
  | master k =>
    rcases masterMove_cases k s with ⟨e, -⟩ | ⟨x, u, -, hu, e⟩
    · obtain rfl : s = t := by injection e.symm.trans h
      exact ⟨rfl, id, fun _ => ⟨rfl, rfl⟩⟩
    · obtain rfl : u.retire k = t := by injection e.symm.trans h
      obtain ⟨hcfg, hmem, hmarks, -, -, -, -, -, -, -, hmark, -⟩ := present_effect hu
      obtain ⟨l, hretire⟩ := retire_frame u k
      rw [hretire]
      exact ⟨hcfg, hmark, fun _ => ⟨hmem, hmarks⟩⟩
  | reset =>
    obtain rfl : s.resetEvent = t := by injection h
    obtain ⟨hcfg, -, -, -, -, -, -, -, -, hmark, -⟩ := resetEvent_frame s
    exact ⟨hcfg, fun hm => hmark.trans hm, fun hn => absurd (.inr rfl) hn⟩

/-- Settles O51: of all moves only an engine's and the reset's reach the array. -/
theorem arrayChangesOnlyAtCompletion : Obligations.ArrayChangesOnlyAtCompletion := by
  intro s t hstep
  obtain ⟨l, k, e⟩ := scheduled_frame s
  obtain ⟨-, ⟨a, ha, hmove⟩ | ⟨-, rfl⟩⟩ := step_cases hstep
  · obtain ⟨hcfg, hmark, harray⟩ := move_arrayFrame hmove
    rw [e] at hcfg hmark harray
    refine ⟨hcfg, hmark, fun hengine hreset => harray ?_⟩
    rintro (⟨b, rfl⟩ | rfl)
    · exact hengine b ha
    · exact hreset ha
  · rw [e]
    exact ⟨rfl, id, fun _ _ => ⟨rfl, rfl⟩⟩

/-! ### Locked groups and protected units (R71) -/

/-- Settles O53: an engine at rest has no step, reset leaves it at rest, and no transaction starts one. -/
theorem lockedGroupsStartNothing : Obligations.LockedGroupsStartNothing := by
  intro s t b hstep hlock hidle
  obtain ⟨l, k, e⟩ := scheduled_frame s
  have hgrp : s.scheduled.grp b = s.grp b := by rw [e]; cases b <;> rfl
  rw [← hgrp] at hlock hidle
  obtain ⟨-, ⟨a, -, hmove⟩ | ⟨-, rfl⟩⟩ := step_cases hstep
  · by_cases hengine : a = .engine b
    · subst hengine
      obtain rfl : s.scheduled.engineStep b = t := by injection hmove
      rw [State.engineStep, hidle]
      exact hidle
    by_cases hreset : a = .reset
    · subst hreset
      obtain rfl : s.scheduled.resetEvent = t := by injection hmove
      rw [resetEvent_grp]
      rfl
    exact (move_groupEffect hmove hengine hreset).locked_idle hlock hidle
  · exact hidle

/-- No operation in flight targets a byte of a protected unit. -/
theorem Inv.not_target (hinv : Inv s) (hb : s.cfg.hasBank b = true) {u o : Nat} (hu : u ∈ s.cfg.wrpUnits b)
    (ho : o < s.cfg.unitSize) (d : Bank) : ¬s.target d (s.cfg.unitToAddress u b + o) := by
  rintro ⟨op, hop, h1, h2⟩
  have hcount : u < s.cfg.unitCount := by
    obtain ⟨-, -, -, -, -, hwrp, -⟩ := Config.wf_parts hinv.config
    simp only [Config.wrpInRange, List.all_eq_true] at hwrp
    simpa using hwrp b (Config.mem_banks.mpr hb) u hu
  obtain ⟨hin, hunit⟩ := Config.inUnit hb hcount ho
  obtain ⟨hin', hnot⟩ := target_in_bank hinv.config ((hinv.group d).present op hop) ((hinv.group d).opLegal op hop) h1 h2
  obtain rfl : b = d := inFlash_bank_unique hinv.config hin hin'
  exact hnot (hunit.symm ▸ hu)

/-- Every byte that no operation in flight targets keeps its value in every move. -/
theorem move_read {a : Agent} (h : move a s = .next t) (x : Nat) (hx : ∀ d, ¬s.target d x) :
    t.mem.read x = s.mem.read x := by
  by_cases hcase : (∃ b, a = .engine b) ∨ a = .reset
  · rcases hcase with ⟨b, rfl⟩ | rfl
    · obtain rfl : s.engineStep b = t := by injection h
      obtain ⟨-, -, -, -, -, -, -, -, -, -, -, hread⟩ := engineStep_frame s b
      exact hread x (hx b)
    · obtain rfl : s.resetEvent = t := by injection h
      exact resetEvent_read s x hx
  · rw [((move_arrayFrame h).array hcase).1]

/-- Settles O54: an operation in flight is legal, so it targets no protected unit. -/
theorem protectedUnitsNeverChange : Obligations.ProtectedUnitsNeverChange := by
  intro s t b u o hinv hstep hb hu ho
  obtain ⟨l, k, e⟩ := scheduled_frame s
  have hcfg : s.scheduled.cfg = s.cfg := by rw [e]
  have hmem : s.scheduled.mem = s.mem := by rw [e]
  obtain ⟨-, ⟨a, -, hmove⟩ | ⟨-, rfl⟩⟩ := step_cases hstep
  · rw [← hmem]
    rw [← hcfg] at hb hu ho ⊢
    exact move_read hmove _ (hinv.scheduled.not_target hb hu ho)
  · rw [hmem]

/-- Settles O55: the completion step's frame, and a legal operation's target being in its bank. -/
theorem enginesAreIndependent : Obligations.EnginesAreIndependent := by
  intro s t b hinv hmover hstep
  obtain ⟨l, k, e⟩ := scheduled_frame s
  obtain ⟨-, ⟨a, ha, hmove⟩ | ⟨hnone, -⟩⟩ := step_cases hstep
  · obtain rfl : a = .engine b := Option.some.inj (ha.symm.trans hmover)
    obtain rfl : s.scheduled.engineStep b = t := by injection hmove
    obtain ⟨-, -, -, -, -, -, -, -, -, -, hother, hread⟩ := engineStep_frame s.scheduled b
    refine ⟨fun d hd => ?_, fun x hx => ?_⟩
    · rw [hother d hd, e]
      cases d <;> rfl
    · rw [hread x, e]
      rintro ⟨op, hop, h1, h2⟩
      have hgroup := hinv.scheduled.group b
      have hin := (target_in_bank hinv.scheduled.config (hgroup.present op hop) (hgroup.opLegal op hop) h1 h2).1
      rw [e] at hin
      rw [hx] at hin
      cases hin
  · rw [hmover] at hnone
    cases hnone

/-! ### A second program (R207) -/

/-- A program's completion that raises no flag has been accepted (R125). -/
theorem programDone_rejected_pgserr {a : Nat} {d : DWord} (h : s.programAccepted a d = false) :
    ((s.programDone b a d).grp b).pgserr = true := by
  rw [State.programDone, if_neg (by simp [h]), drawn_grp, onGrp_grp_same, Group.fail, Group.stale]
  split <;> rfl

/-- Settles O57: after the first program the double-word holds D and its `programmed` bit is set, so the second one is
accepted for no D but 0. -/
theorem secondProgramFails : Obligations.SecondProgramFails := by
  intro s t b x d hw hs hi hzero hones hflag hstep hok
  rw [step_engine hw hs] at hstep
  rw [← withSched_grp s [.engine b] b] at hi
  obtain rfl : ({ s with sched := [.engine b] } : State).programDone b x.toNat d = t := by
    rw [← engineStep_program hi]
    injection hstep
  have hacc : ({ s with sched := [.engine b] } : State).programAccepted x.toNat d = true := by
    by_contra hrej
    rw [programDone_rejected_pgserr (by simpa using hrej)] at hok
    cases hok
  rw [State.programDone, if_pos hacc]
  generalize hu : State.onGrp _ b _ = u
  have hcfg : u.cfg = s.cfg := by rw [← hu, onGrp_cfg, onGrp_cfg]
  have hsched : u.sched = [.engine b] := by rw [← hu, onGrp_sched, onGrp_sched]
  have hin : (u.grp b).inflight = some (.program x d) := by rw [← hu, onGrp_grp_same]
  have hmem : u.mem = s.mem.fill x.toNat 8 (byteOf d) := by rw [← hu, onGrp_mem, onGrp_mem]
  have hmarks : x.toNat ∈ u.marks := by
    rw [← hu, onGrp_marks, onGrp_marks]
    exact (mem_addMark _ _ _).mpr (.inl rfl)
  refine ⟨_, step_engine (hcfg ▸ hw) hsched, ?_⟩
  rw [← withSched_grp u [] b] at hin
  rw [engineStep_program hin]
  refine programDone_rejected_pgserr ?_
  have hdword : u.mem.dword x.toNat = d := by rw [hmem, Memory.dword_fill]
  simp only [State.programAccepted, hdword, hcfg, beq_eq_false_iff_ne.mpr hzero, Bool.or_false]
  rcases hones with h | h
  · rw [beq_eq_false_iff_ne.mpr h, Bool.false_and]
  · simp [h, hmarks]

end Sys2Proof.Machine
end

section
/-! PROOFS. Family other, the reset event (R290-R292). -/
namespace Sys2Proof.Machine
variable {s t : State} {b : Bank} {rest : List Agent}

theorem step_reset (hw : s.cfg.wf = true) (hs : s.sched = .reset :: rest) :
    step s = .next ({ s with sched := rest } : State).resetEvent := by
  simp [step, State.mover, State.scheduled, move, hw, hs]

theorem cutShort_idle (h : (s.grp b).inflight = none) : s.cutShort b = s := by
  rw [State.cutShort, h]

/-- Without an operation in flight reset leaves the array and the marks (R290). -/
theorem resetEvent_array (h : ∀ b, (s.grp b).inflight = none) :
    s.resetEvent.mem = s.mem ∧ s.resetEvent.marks = s.marks := by
  unfold State.resetEvent
  rw [cutShort_idle (h .b1), cutShort_idle (h .b2)]
  exact ⟨rfl, rfl⟩

/-- Settles O6: the reset event sets every register, and cuts nothing short in an idle machine. -/
theorem resetLeavesTheResetValues : Obligations.ResetLeavesTheResetValues := by
  intro s rest hw hs
  refine ⟨_, step_reset hw hs, fun b => ?_, fun n => ?_, fun hidle => resetEvent_array fun b => ?_, ?_⟩
  · rw [resetEvent_grp]
    exact ⟨by simp [srWord, Group.reset, Group.busy], by
      cases h : ({ s with sched := rest } : State).resetEvent.cfg.variant <;> simp [crWord, bkselBit, Group.reset, h], rfl⟩
  · obtain ⟨era, e⟩ := resetEvent_seq { s with sched := rest } n
    rw [e]
    simp [Sequencer.reset]
  · rw [withSched_grp]
    exact hidle b
  · obtain ⟨hcfg, -, -, -, -, -, -, -, -, hmark, -⟩ := resetEvent_frame { s with sched := rest }
    exact ⟨hmark, hcfg⟩

/-- Settles O7: the targets of the three operations are those the statement rules out. -/
theorem resetTouchesTheTargetOnly : Obligations.ResetTouchesTheTargetOnly := by
  intro s rest hw hs
  refine ⟨_, step_reset hw hs, fun a hunit hbank hprogram => ?_⟩
  refine resetEvent_read { s with sched := rest } a fun b => ?_
  rintro ⟨op, hop, hlo, hhi⟩
  rw [withSched_grp] at hop
  cases op with
  | eraseUnit u =>
    refine hunit b u hop ⟨hlo, ?_⟩
    rw [Nat.add_mul, Nat.one_mul, ← Nat.add_assoc]
    exact hhi
  | eraseBank => exact hbank b hop ⟨hlo, hhi⟩
  | program x d => exact hprogram b x d hop ⟨hlo, hhi⟩

end Sys2Proof.Machine
end

section
/-! PROOFS. Family other, raw transactions (R100-R121): what each keeps, which ones are refused, and which ones are not this
block's. -/
namespace Sys2Proof.Machine
variable {s t : State} {b : Bank} {i : Instr}

/-! ### CR writes to an unlocked idle group (R110, R112) -/

/-- R110 without STRT, after the interleave rule: the fields and LOCK are written. -/
theorem Group.interleave_crWrite_fields {g : Group} (hl : g.lock = false) (hi : g.inflight = none) (c : Config) (b : Bank)
    (n : Nat) {v : Word} (hs : v.getLsbD 3 = false) : g.interleave.crWrite c b n v = g.written c v := by
  have hs' : ¬v.getLsbD 3 = true := by rw [hs]; exact Bool.false_ne_true
  rw [Group.crWrite_idle (by simpa using hl) (by simpa using hi), Group.crWriteIdle, if_neg hs', Group.interleave_eq,
    Group.written]
  cases hv : v.getLsbD 31
  · rw [if_neg Bool.false_ne_true, ← hl]; rfl
  · rfl

/-- Settles O13: the write sets the fields and LOCK and starts nothing. -/
theorem crWriteIdleSetsTheFields : Obligations.CrWriteIdleSetsTheFields := fun _ _ h hl hi hs =>
  exec_crWr h ((Group.interleave_crWrite_fields hl hi _ _ _ hs).trans (Group.written_eq _ _ _))

/-- Writing a word's fields first, with STRT and LOCK 0, and then the word itself is writing the word. -/
theorem Group.written_split (c : Config) (v : Word) (g : Group) :
    (g.written c (v &&& ~~~0x80000008#32)).written c v = g.written c v := by
  rw [Group.written_eq, Group.written_eq, Group.written_eq]
  simp only [Group.mk.injEq, true_and, and_true]
  refine ⟨?_, ?_⟩
  · split_ifs <;> rfl
  · split_ifs <;> simp_all

/-- A start leaves the group started, or as it is but for the flag raised and the stale fields (R113, R114), whatever the
draw. -/
theorem Group.start_staleAs (c : Config) (b : Bank) (g : Group) :
    (∃ op, ∀ n, g.start c b n = { g with inflight := some op }) ∨ (∃ f, ∀ n, g.start c b n = g.fail c n f) := by
  unfold Group.start
  split_ifs with hpend hmode huer hsel hunit hwrp hbank
  · exact .inr ⟨_, fun _ => rfl⟩
  · exact .inr ⟨_, fun _ => rfl⟩
  · exact .inr ⟨_, fun _ => rfl⟩
  · exact .inr ⟨_, fun _ => rfl⟩
  · exact .inr ⟨_, fun _ => rfl⟩
  · exact .inl ⟨_, fun _ => rfl⟩
  · exact .inr ⟨_, fun _ => rfl⟩
  · exact .inl ⟨_, fun _ => rfl⟩

/-- A CR write of any value that reaches its register, from what it makes of the group. -/
theorem RegisterAccess.crWrite (h : RegisterAccess s b 0x8) (v : Word) :
    ∃ t, exec .crWr { s with bus := { s.bus with wdata := v } } = .next t ∧ RegisterAccess t b 0x8 ∧ t.cfg = s.cfg ∧
      t.grp b = (s.grp b).interleave.crWrite s.cfg b s.draws v := by
  have h' : RegisterAccess { s with bus := { s.bus with wdata := v } } b 0x8 := ⟨h.config, h.clock, h.bank, h.addr⟩
  refine ⟨_, exec_crWr h' (f := Group.crWrite s.cfg b s.draws v ∘ Group.interleave) ?_, ?_⟩
  · cases b <;> rfl
  · cases b <;> exact ⟨⟨h.config, h.clock, h.bank, h.addr⟩, rfl, rfl⟩

theorem StaleAs.refl (c : Config) (g : Group) : StaleAs c g g := ⟨⟨_, _, rfl, fun _ => rfl⟩, fun _ => rfl⟩

@[simp] theorem Group.fail_inflight (c : Config) (n : Nat) (f : ErrorFlag) (g : Group) :
    (g.fail c n f).inflight = g.inflight := by
  obtain ⟨_, _, _, _, _, _, _, h, -⟩ := Group.fail_frame c n f g
  rw [h]

/-- Settles O15: both ways the same written group is started, at two draws. -/
theorem mergedStartIsTheSplitStart : Obligations.MergedStartIsTheSplitStart := by
  intro s b v h hl hi hs
  have hstrt : (v &&& ~~~0x80000008#32).getLsbD 3 = false := by simp
  have hlock : (v &&& ~~~0x80000008#32).getLsbD 31 = false := by simp
  obtain ⟨t, ht, -, -, htgrp⟩ := h.crWrite v
  obtain ⟨u, hu, hacc, hcfg, hugrp⟩ := h.crWrite (v &&& ~~~0x80000008#32)
  obtain ⟨w, hw, -, -, hwgrp⟩ := hacc.crWrite v
  rw [Group.interleave_crWrite_start hl hi _ _ _ hs] at htgrp
  rw [Group.interleave_crWrite_fields hl hi _ _ _ hstrt] at hugrp
  rw [hcfg, Group.interleave_crWrite_start (by rw [hugrp]; exact hlock) (by rw [hugrp]; exact hi) _ _ _ hs, hugrp,
    Group.written_split] at hwgrp
  have hidle : ((s.grp b).written s.cfg v).inflight = none := hi
  rcases Group.start_staleAs s.cfg b ((s.grp b).written s.cfg v) with ⟨op, hop⟩ | ⟨f, hf⟩
  · rw [hop] at htgrp hwgrp
    refine ⟨t, u, w, { (s.grp b).written s.cfg v with inflight := some op }, ht, hu, hw, ?_, ?_,
      fun _ => hwgrp.trans htgrp.symm⟩
    · rw [htgrp]
      exact StaleAs.refl _ _
    · rw [hwgrp]
      exact StaleAs.refl _ _
  · rw [hf] at htgrp hwgrp
    refine ⟨t, u, w, ((s.grp b).written s.cfg v).raise f, ht, hu, hw, ?_, ?_, fun hn => ?_⟩
    · rw [htgrp]
      exact Group.fail_staleAs _ _ f _
    · rw [hwgrp]
      exact Group.fail_staleAs _ _ f _
    · rw [htgrp, Group.fail_inflight, hidle] at hn
      exact absurd rfl hn

/-! ### The interleave rule (R107) -/

/-- Key word 2 after K0 is a wrong key (R105). -/
theorem Group.keyWrite_key2_k0 {g : Group} (hl : g.lock = true) (hk : g.keyState = .k0) (c : Config) :
    (g.keyWrite c 0xCDEF89AB).lock = true := by
  cases ho : g.keyLockout
  · rw [Group.keyWrite_k0 hl hk ho, if_neg (by decide), Group.wrongKey_eq]
    exact hl
  · simp [Group.keyWrite, hl, hk, ho]

/-- A KEYR write of any value that reaches its register. -/
theorem exec_keyrWr_at (hw : s.cfg.wf = true) (hc : s.cfg.clockEnabled = true) (hb : s.cfg.hasBank b = true) (v : Word) :
    ∃ u, exec .keyrWr { s with bus := { s.bus with addr := BitVec.ofNat 32 (s.cfg.groupBase b), wdata := v } } = .next u ∧
      u.grp b = (s.grp b).keyWrite s.cfg v := by
  have hfit : s.cfg.groupBase b + 16 ≤ 2 ^ 32 := by
    obtain ⟨-, -, -, hplaced, -⟩ := Config.wf_parts hw
    simp only [Config.groupsPlaced, Bool.and_eq_true, List.all_eq_true, decide_eq_true_eq] at hplaced
    exact (hplaced.1.1 b (Config.mem_banks.mpr hb)).2
  refine ⟨_, exec_keyrWr (b := b) ⟨hw, hc, hb, ?_⟩, ?_⟩
  · exact Nat.mod_eq_of_lt (Nat.lt_of_lt_of_le (Nat.lt_add_of_pos_right (by decide)) hfit)
  · cases b <;> rfl

/-- Settles O10: after the access the group is locked at K0, where key word 2 is a wrong key. -/
theorem interleavedAccessKeepsTheLock : Obligations.InterleavedAccessKeepsTheLock := by
  intro s b i off hi h hl
  suffices hacc : ∃ t, exec i s = .next t ∧ t.cfg = s.cfg ∧ (t.grp b).keyState = .k0 ∧ (t.grp b).lock = true by
    obtain ⟨t, ht, hcfg, hk, hlock⟩ := hacc
    obtain ⟨u, hu, hgrp⟩ := exec_keyrWr_at (s := t) (b := b) (hcfg ▸ h.config) (hcfg ▸ h.clock)
      (hcfg ▸ h.bank) 0xCDEF89AB
    refine ⟨t, u, ht, hk, hlock, hcfg ▸ hu, ?_⟩
    rw [hgrp]
    exact Group.keyWrite_key2_k0 hlock hk _
  obtain ⟨hkeyr, hrsvRd, hrsvWr, hsr, hcr⟩ := registerReadsGiveTheFields s b
  simp only [List.mem_cons, Prod.mk.injEq, List.not_mem_nil, or_false] at hi
  rcases hi with ⟨rfl, rfl⟩ | ⟨rfl, rfl⟩ | ⟨rfl, rfl⟩ | ⟨rfl, rfl⟩ | ⟨rfl, rfl⟩ | ⟨rfl, rfl⟩ | ⟨rfl, rfl⟩
  · exact ⟨_, hkeyr h, by cases b <;> exact ⟨rfl, rfl, hl⟩⟩
  · obtain ⟨v, hv, -⟩ := hsr h
    exact ⟨_, hv, by cases b <;> exact ⟨rfl, rfl, hl⟩⟩
  · exact ⟨_, srWriteClearsTheWrittenOnes s b h, by cases b <;> exact ⟨rfl, rfl, hl⟩⟩
  · obtain ⟨v, hv, -⟩ := hcr h
    exact ⟨_, hv, by cases b <;> exact ⟨rfl, rfl, hl⟩⟩
  · exact ⟨_, (crWriteLockedOrBusy s b h).1 hl, by cases b <;> exact ⟨rfl, rfl, hl⟩⟩
  · exact ⟨_, hrsvRd h, by cases b <;> exact ⟨rfl, rfl, hl⟩⟩
  · exact ⟨_, hrsvWr h, by cases b <;> exact ⟨rfl, rfl, hl⟩⟩

/-! ### The latch (R119) -/

/-- Every group's latch is as it was. -/
def SameLatches (s t : State) : Prop := ∀ b, (t.grp b).latch = (s.grp b).latch

theorem SameLatches.onGrp (s : State) (d : Bank) {f : Group → Group} (hf : ∀ g, (f g).latch = g.latch) :
    SameLatches s (s.onGrp d f) := fun b => by
  rcases onGrp_grp_cases s d b f with ⟨-, e⟩ | ⟨-, e⟩ <;> rw [e]
  exact hf _

theorem Group.interleave_latch (g : Group) : g.interleave.latch = g.latch := by
  rw [Group.interleave_eq]

theorem Group.keyWrite_latch (c : Config) (v : Word) (g : Group) : (g.keyWrite c v).latch = g.latch := by
  obtain ⟨l, k, o, e, -⟩ := Group.keyWrite_frame c v g
  rw [e]

theorem SameLatches.atRegister {off : Nat} {foreign : State} {k : Bank → State} (hforeign : SameLatches s foreign)
    (hk : ∀ d, SameLatches s (k d)) : SameLatches s (s.atRegister off foreign k) := by
  unfold State.atRegister
  split
  · exact fun b => by rw [refuse_grp]
  · split
    · split
      · exact hk _
      · exact fun b => by rw [refuse_grp]
    · split
      · exact fun b => by rw [refuse_grp]
      · exact hforeign

theorem readRegister_latches (s : State) (off : Nat) (value : Group → Word) :
    SameLatches s (s.readRegister off value) := by
  refine .atRegister (fun b => ?_) fun d b => ?_
  · rw [drawn_grp, answer_grp]
  · rw [answer_grp]
    exact SameLatches.onGrp s d Group.interleave_latch b

theorem rawRead_latches (s : State) (z : Size) : SameLatches s (s.rawRead z) := by
  unfold State.rawRead
  split
  · exact fun b => by rw [refuse_grp]
  · exact fun b => by rw [hold_grp]
  · next v t h =>
    intro b
    rw [answer_grp]
    rcases arrayRead_cases h with ⟨d, -, -, rfl, -⟩ | ⟨d, -, -, -, rfl, -⟩ | ⟨-, -, rfl⟩
    · rw [drawn_grp]
      exact SameLatches.onGrp s d (f := Group.raise .eccerr) (fun _ => rfl) b
    · rfl
    · rw [drawn_grp]

/-- Settles O17: none of these transactions' changes of a group touches its latch. -/
theorem readsKeepTheLatch : Obligations.ReadsKeepTheLatch := by
  intro s i hi
  have hwrite : ∀ off f, (∀ g, (Group.latch ∘ f) g = g.latch) →
      SameLatches s (s.atRegister off s fun d => s.onGrp d f) := fun off f hf =>
    .atRegister (fun _ => rfl) fun d => .onGrp s d hf
  simp only [List.mem_cons, List.not_mem_nil, or_false] at hi
  rcases hi with rfl | rfl | rfl | rfl | rfl | rfl | rfl | rfl | rfl | rfl
  · exact ⟨_, rfl, readRegister_latches s _ _⟩
  · exact ⟨_, rfl, hwrite _ _ fun g => Group.keyWrite_latch _ _ g⟩
  · exact ⟨_, rfl, readRegister_latches s _ _⟩
  · exact ⟨_, rfl, hwrite _ _ fun g => Group.interleave_latch g⟩
  · exact ⟨_, rfl, readRegister_latches s _ _⟩
  · exact ⟨_, rfl, readRegister_latches s _ _⟩
  · exact ⟨_, rfl, hwrite _ _ fun g => Group.interleave_latch g⟩
  · exact ⟨_, rfl, rawRead_latches s _⟩
  · exact ⟨_, rfl, rawRead_latches s _⟩
  · exact ⟨_, rfl, rawRead_latches s _⟩

end Sys2Proof.Machine
end

section
/-! PROOFS. Family other, refused and foreign transactions (R100, R269, R270), the step of an agent (R246) and the command
port (R247). -/
namespace Sys2Proof.Machine
variable {s : State} {b : Bank} {i : Instr}

/-! ### The forms of a bus transaction (R85) -/

/-- A register transaction, as it reads at its register's address and outside every window. -/
theorem exec_register {off : Nat} (hi : (i, off) ∈ regOffsets) (s : State) : ∃ foreign k,
    (foreign = s ∨ ∃ v, foreign = (s.answer v).drawn) ∧ exec i s = .next (s.atRegister off foreign k) := by
  simp only [regOffsets, List.mem_cons, Prod.mk.injEq, List.not_mem_nil, or_false] at hi
  rcases hi with ⟨rfl, rfl⟩ | ⟨rfl, rfl⟩ | ⟨rfl, rfl⟩ | ⟨rfl, rfl⟩ | ⟨rfl, rfl⟩ | ⟨rfl, rfl⟩ | ⟨rfl, rfl⟩ | ⟨rfl, rfl⟩
  · exact ⟨_, _, .inr ⟨_, rfl⟩, rfl⟩
  · exact ⟨_, _, .inl rfl, rfl⟩
  · exact ⟨_, _, .inr ⟨_, rfl⟩, rfl⟩
  · exact ⟨_, _, .inl rfl, rfl⟩
  · exact ⟨_, _, .inr ⟨_, rfl⟩, rfl⟩
  · exact ⟨_, _, .inl rfl, rfl⟩
  · exact ⟨_, _, .inr ⟨_, rfl⟩, rfl⟩
  · exact ⟨_, _, .inl rfl, rfl⟩

theorem exec_array (hi : i ∈ [Instr.arrRd8, .arrRd16, .arrRd32, .arrWr8, .arrWr16, .arrWr32]) (s : State) :
    ∃ z, exec i s = .next (s.rawRead z) ∨ exec i s = .next (s.rawWrite z) := by
  simp only [List.mem_cons, List.not_mem_nil, or_false] at hi
  rcases hi with rfl | rfl | rfl | rfl | rfl | rfl
  · exact ⟨.b8, .inl rfl⟩
  · exact ⟨.h16, .inl rfl⟩
  · exact ⟨.w32, .inl rfl⟩
  · exact ⟨.b8, .inr rfl⟩
  · exact ⟨.h16, .inr rfl⟩
  · exact ⟨.w32, .inr rfl⟩

/-- A bus transaction is a register transaction at its offset or an array transaction. -/
theorem busInstr_cases (hi : i ∈ busInstrs) :
    (∃ off, (i, off) ∈ regOffsets) ∨ i ∈ [Instr.arrRd8, .arrRd16, .arrRd32, .arrWr8, .arrWr16, .arrWr32] := by
  have hsplit : i ∈ regInstrs ++ [Instr.arrRd8, .arrRd16, .arrRd32, .arrWr8, .arrWr16, .arrWr32] := hi
  refine (List.mem_append.mp hsplit).imp_left fun h => ?_
  obtain ⟨⟨j, off⟩, hmem, rfl⟩ := List.mem_map.mp h
  exact ⟨off, hmem⟩

/-! ### Refused transactions (R100, R269) -/

theorem flashBank_of_groupBank {c : Config} (hw : c.wf = true) {a : Nat} (h : c.groupBank a = some b) :
    c.flashBank a = none := by
  cases hf : c.flashBank a with
  | none => rfl
  | some d => exact (Config.wf_group_flash_disjoint hw (Config.groupBank_some h) (Config.flashBank_some hf)).elim

theorem groupBank_of_flashBank {c : Config} (hw : c.wf = true) {a : Nat} (h : c.flashBank a = some b) :
    c.groupBank a = none := by
  cases hg : c.groupBank a with
  | none => rfl
  | some d => exact (Config.wf_group_flash_disjoint hw (Config.groupBank_some hg) (Config.flashBank_some h)).elim

/-- Without the clock every transaction is refused. -/
theorem exec_bus_off (hi : i ∈ busInstrs) (hc : s.cfg.clockEnabled = false) : exec i s = .next s.refuse := by
  rcases busInstr_cases hi with ⟨off, h⟩ | h
  · obtain ⟨foreign, k, -, e⟩ := exec_register h s
    rw [e, State.atRegister, if_pos hc]
  · obtain ⟨z, e | e⟩ := exec_array h s <;> rw [e]
    · rw [State.rawRead, State.arrayRead, if_pos hc]
    · rw [State.rawWrite, State.arrayWrite, if_pos hc]

theorem ArrayAccess.rawRead_misaligned (h : ArrayAccess s b) {z : Size} (ha : s.bus.addr.toNat % sizeBytes z ≠ 0) :
    s.rawRead z = s.refuse := by
  rw [State.rawRead, State.arrayRead, if_neg (by simp [h.clock]), h.flashBank]
  dsimp only
  rw [if_pos ha]

/-- A register transaction in a window, but not at its own register's address, is refused. -/
theorem atRegister_elsewhere {off : Nat}
    (hin : (s.cfg.groupBank s.bus.addr.toNat).isSome = true ∨ (s.cfg.flashBank s.bus.addr.toNat).isSome = true)
    (hoff : ∀ d, s.cfg.groupBank s.bus.addr.toNat = some d → s.bus.addr.toNat ≠ s.cfg.groupBase d + off)
    (foreign : State) (k : Bank → State) : s.atRegister off foreign k = s.refuse := by
  unfold State.atRegister
  split
  · rfl
  · cases hg : s.cfg.groupBank s.bus.addr.toNat with
    | some d => exact if_neg (hoff d hg)
    | none =>
      obtain ⟨d, hd⟩ := Option.isSome_iff_exists.mp (hin.resolve_left (by simp [hg]))
      simp only [hd]

/-- An array transaction in a register window is refused. -/
theorem exec_array_inGroup (hw : s.cfg.wf = true)
    (hi : i ∈ [Instr.arrRd8, .arrRd16, .arrRd32, .arrWr8, .arrWr16, .arrWr32])
    (hg : (s.cfg.groupBank s.bus.addr.toNat).isSome = true) : exec i s = .next s.refuse := by
  obtain ⟨d, hd⟩ := Option.isSome_iff_exists.mp hg
  obtain ⟨z, e | e⟩ := exec_array hi s <;> rw [e]
  · rw [State.rawRead, State.arrayRead, flashBank_of_groupBank hw hd, hd]
    split_ifs <;> rfl
  · rw [State.rawWrite, State.arrayWrite, flashBank_of_groupBank hw hd, hd]
    split_ifs <;> rfl

/-- Registers lie at 4-aligned addresses (R9 (d), R80). -/
theorem register_aligned {c : Config} (hw : c.wf = true) (hb : c.hasBank b = true) {off : Nat}
    (hi : (i, off) ∈ regOffsets) : (c.groupBase b + off) % 4 = 0 := by
  obtain ⟨-, -, -, hplaced, -⟩ := Config.wf_parts hw
  simp only [Config.groupsPlaced, Bool.and_eq_true, List.all_eq_true, decide_eq_true_eq] at hplaced
  have hbase := (hplaced.1.1 b (Config.mem_banks.mpr hb)).1
  have hoff : ∀ p ∈ regOffsets, p.2 % 4 = 0 := by decide
  have := hoff _ hi
  dsimp only at this
  omega

/-- A descriptor of size 3, or a register descriptor of another size than 32 bits or at no register, decodes to nothing
(R85). -/
theorem decodeBus_illegal {d : Desc} (h : d.extractLsb' 13 2 = 3 ∨
    (d.getLsbD 12 = false ∧ (d.extractLsb' 13 2 ≠ 2 ∨ d.extractLsb' 0 2 ≠ 0))) : ∃ e, decodeBus d = .error e := by
  have hlow : d.extractLsb' 0 2 = (d.extractLsb' 0 4).extractLsb' 0 2 := by
    ext j hj
    simp
  unfold decodeBus
  split_ifs with hres hreg hsz hoff
  · exact ⟨_, rfl⟩
  · obtain hne : (d.extractLsb' 0 4).extractLsb' 0 2 ≠ 0 := by
      rw [← hlow]
      rcases h with h | ⟨-, h | h⟩
      · rw [hsz] at h
        exact absurd h (by decide)
      · exact absurd hsz h
      · exact h
    unfold registerTxn
    split_ifs with h0 h4 h8 hC
    · rw [h0] at hne
      exact absurd (by decide) hne
    · rw [h4] at hne
      exact absurd (by decide) hne
    · rw [h8] at hne
      exact absurd (by decide) hne
    · rw [hC] at hne
      exact absurd (by decide) hne
    · exact ⟨_, rfl⟩
  · exact ⟨_, rfl⟩
  · exact ⟨_, rfl⟩
  · rw [h.resolve_right fun h => hreg h.1]
    exact ⟨_, rfl⟩

theorem step_master {k : Nat} {rest : List Agent} (hw : s.cfg.wf = true) (hs : s.sched = .master k :: rest) :
    step s = masterMove k { s with sched := rest } := by
  simp [step, State.mover, State.scheduled, move, hw, hs]

theorem ready_some {k : Nat} {x : Txn} {q : List Txn} (h : s.masters[k]? = some (x :: q)) : s.ready k = some x := by
  rw [State.ready, h]

/-- In a window a transaction of no legal descriptor is refused. -/
theorem illegalTxn_inWindow (d : Desc)
    (hin : (s.cfg.groupBank s.bus.addr.toNat).isSome = true ∨ (s.cfg.flashBank s.bus.addr.toNat).isSome = true) :
    s.illegalTxn d = s.refuse := by
  unfold State.illegalTxn
  split
  · rfl
  · split
    · next hg hf => simp [hg, hf] at hin
    · rfl

/-- Settles O19: in each case the transaction comes to `refuse`. -/
theorem refusedTransactionsSetTheMarkOnly : Obligations.RefusedTransactionsSetTheMarkOnly := by
  refine ⟨fun s i hi hc => exec_bus_off hi hc, fun s b i n hi h ha => ?_, fun s i hw h => ?_,
    fun s k x q rest hw hs hm hin hd => ?_⟩
  · obtain ⟨z, rfl, e⟩ := exec_arrRd (List.mem_cons_of_mem _ hi) s
    exact e.trans (congrArg _ (h.rawRead_misaligned ha))
  · have hregister : ∀ off, (i, off) ∈ regOffsets →
        ((s.cfg.groupBank s.bus.addr.toNat).isSome = true ∨ (s.cfg.flashBank s.bus.addr.toNat).isSome = true) →
        (∀ d, s.cfg.groupBank s.bus.addr.toNat = some d → s.bus.addr.toNat ≠ s.cfg.groupBase d + off) →
        exec i s = .next s.refuse := fun off hi hin hoff => by
      obtain ⟨foreign, k, -, e⟩ := exec_register hi s
      rw [e, atRegister_elsewhere hin hoff]
    rcases h with ⟨hi, hg, ha⟩ | ⟨hi, hg⟩ | ⟨hi, hg⟩ | ⟨hi, hf⟩ | ⟨b, off, hi, hg, ha⟩
    · obtain ⟨⟨j, off⟩, hmem, rfl⟩ := List.mem_map.mp hi
      refine hregister off hmem (.inl hg) fun d hd e => ha ?_
      have hgroup := Config.groupBank_some hd
      simp only [Config.inGroup, Bool.and_eq_true] at hgroup
      rw [e]
      exact register_aligned hw hgroup.1.1 hmem
    · refine exec_array_inGroup hw ?_ hg
      simp only [List.mem_cons, List.not_mem_nil, or_false] at hi ⊢
      tauto
    · refine exec_array_inGroup hw ?_ hg
      simp only [List.mem_cons, List.not_mem_nil, or_false] at hi ⊢
      tauto
    · obtain ⟨⟨j, off⟩, hmem, rfl⟩ := List.mem_map.mp hi
      obtain ⟨d, hd⟩ := Option.isSome_iff_exists.mp hf
      refine hregister off hmem (.inr hf) fun d' hd' => ?_
      rw [groupBank_of_flashBank hw hd] at hd'
      cases hd'
    · refine hregister off hi (.inl (by rw [hg]; rfl)) fun d hd => ?_
      obtain rfl : b = d := Option.some.inj (hg.symm.trans hd)
      exact ha
  · obtain ⟨e, he⟩ := decodeBus_illegal hd
    have hready : ({ s with sched := rest } : State).ready k = some x := ready_some hm
    rw [step_master hw hs, masterMove, hready]
    simp only [he]
    rw [illegalTxn_inWindow _ hin]
    rfl

/-- Settles O20: outside every window a register transaction is `foreign` and an array transaction stores nothing. -/
theorem foreignAddressesTouchNothing : Obligations.ForeignAddressesTouchNothing := by
  intro s i hi hc hg hf
  have hc' : ¬s.cfg.clockEnabled = false := by simp [hc]
  rcases busInstr_cases hi with ⟨off, h⟩ | h
  · obtain ⟨foreign, k, hforeign, e⟩ := exec_register h s
    rw [State.atRegister, if_neg hc', hg, hf] at e
    refine ⟨foreign, e, ?_⟩
    rcases hforeign with rfl | ⟨v, rfl⟩ <;> rfl
  · obtain ⟨z, e | e⟩ := exec_array h s
    · rw [State.rawRead, State.arrayRead, if_neg hc', hf, hg] at e
      exact ⟨_, e, rfl⟩
    · rw [State.rawWrite, State.arrayWrite, if_neg hc', hf, hg] at e
      exact ⟨_, e, rfl⟩

/-! ### The instruction a step runs (R246) -/

theorem seqMove_decode {n : SeqId} (hd : (s.seq n).state = .decode) (hi : decodeCommand (s.seq n).cmd = .ok i) :
    seqMove n s = exec i { s with turn := n } := by
  simp only [seqMove, hd, hi]

theorem seqMove_mid {n : SeqId} (hm : MidCommand (s.seq n)) (hi : (s.seq n).command = some i) :
    seqMove n s = exec i { s with turn := n } := by
  unfold seqMove
  split
  · next h => simp [MidCommand, h, atRest] at hm
  · next h => simp [MidCommand, h, atRest] at hm
  · next h => simp [MidCommand, h, atRest] at hm
  · rw [hi]

/-- Settles O24: the mover fetches the instruction, from CMD, from OPR, BK and IDX, or from the descriptor. -/
theorem stepRunsTheDecodedInstruction : Obligations.StepRunsTheDecodedInstruction := by
  refine ⟨fun s n i rest hw hs hd hi => ?_, fun s n i rest hw hs hm hi => ?_, fun s k x q i rest hw hs hm hi => ?_⟩
  · rw [step_seq hw hs]
    exact seqMove_decode (s := { s with sched := rest }) hd hi
  · rw [step_seq hw hs]
    exact seqMove_mid (s := { s with sched := rest }) hm hi
  · have hready : ({ s with sched := rest } : State).ready k = some x := ready_some hm
    have hdecode : decodeBus x.desc = .ok i := hi
    obtain ⟨t, ht, -⟩ := exec_bus_effect (decodeBus_bank hdecode) (({ s with sched := rest } : State).present x)
    refine ⟨t, ht, ?_⟩
    rw [step_master hw hs, masterMove, hready]
    simp only [hdecode, ht]
    rfl

/-! ### The command port (R247) and DECODE (R242) -/

theorem step_host {n : SeqId} {rest : List Agent} (hw : s.cfg.wf = true) (hs : s.sched = .host n :: rest) :
    step s = .next ({ s with sched := rest }.hostStep n) := by
  simp [step, State.mover, State.scheduled, move, hw, hs]

/-- Settles O25: the host's step is its oldest move, made where it is enabled. -/
theorem hostPortActions : Obligations.HostPortActions := by
  intro s n rest m q hw hs hq
  have hport : (({ s with sched := rest } : State).port n).queue = m :: q := by cases n <;> exact hq
  have hstate : (({ s with sched := rest } : State).seq n).state = (s.seq n).state := by cases n <;> rfl
  rw [step_host hw hs]
  cases m with
  | issue cmd arg0 arg1 dbuf =>
    simp only [State.hostStep, hport, hstate]
    split_ifs
    · cases n <;> rfl
    · rfl
  | collect =>
    simp only [State.hostStep, hport, hstate]
    split_ifs
    · cases n <;> rfl
    · rfl

theorem stepDecode_legal (hl : bankLegal s.cfg s.turn b = true) (op : BitVec 4) (idx : BitVec 8)
    (first : Sequencer → Sequencer) :
    stepDecode op b idx first s = s.onCur fun q => first { q with opr := op, bk := b, idx := idx } := by
  simp only [stepDecode, hl, if_true]

/-- Settles O5: each command loads its own code and enters its first state. -/
theorem decodeLoadsTheCommand : Obligations.DecodeLoadsTheCommand := by
  intro s b idx hd hb ho
  have hl : bankLegal s.cfg s.turn b = true := by simp [bankLegal, hb, ho]
  simp only [exec, execUnlock, execLock, execClearErrors, execEraseUnit, execEraseBank, execWriteUnit, execReadUnit,
    execUnitToAddress, hd, stepDecode_legal hl]
  exact ⟨rfl, rfl, rfl, rfl, rfl, rfl, rfl, rfl⟩

end Sys2Proof.Machine
end

section
/-! PROOFS. Family other, the commands step by step: with the clock enabled each step is one transaction of the command's
own group and a change of its own sequencer. -/
namespace Sys2Proof.Machine
variable {s : State} {b : Bank} {i : Instr} {idx : BitVec 8}

/-! ### The transactions of a step, with the clock enabled -/

theorem drawn_onCur (t : State) (k : Sequencer → Sequencer) : t.drawn.onCur k = { t.onCur k with draws := t.draws + 1 } := by
  unfold State.onCur
  rw [drawn_turn]
  cases t.turn <;> rfl

section
variable (hc : s.cfg.clockEnabled = true)
include hc

theorem seqReadCr_on (b : Bank) (k : Sequencer → Sequencer) : seqReadCr b k s =
    (s.onGrp b fun g => { g with keyState := .k0 }).onCur fun q => k { q with crv := crWord s.cfg (s.grp b) } := by
  rw [seqReadCr, clocked_on hc, touch_eq]

theorem seqReadSr_on (b : Bank) (k : Sequencer → Sequencer) : seqReadSr b k s =
    (s.onGrp b fun g => { g with keyState := .k0 }).onCur fun q => k { q with srv := srWord s.cfg (s.grp b) } := by
  rw [seqReadSr, clocked_on hc, touch_eq]

theorem seqWriteKeyr_on {f : Group → Group} {v : Word} (hf : (s.grp b).keyWrite s.cfg v = f (s.grp b))
    (k : Sequencer → Sequencer) : seqWriteKeyr b v k s = (s.onGrp b f).onCur k := by
  rw [seqWriteKeyr, clocked_on hc, State.writeKeyr, onGrp_congr hf]

theorem seqWriteCr_on {f : Group → Group} {v : Word}
    (hf : (s.grp b).interleave.crWrite s.cfg b s.draws v = f (s.grp b)) (k : Sequencer → Sequencer) :
    seqWriteCr b v k s = { (s.onGrp b f).onCur k with draws := s.draws + 1 } := by
  rw [seqWriteCr, clocked_on hc, State.writeCr, onGrp_congr hf, drawn_onCur, onGrp_draws]

theorem seqWriteArr_on {f : Group → Group} {a v : Word} (ha : s.cfg.flashBank a.toNat = some b)
    (hf : (s.grp b).arrWrite s.cfg b s.draws .w32 a v = f (s.grp b)) (k : Sequencer → Sequencer) :
    seqWriteArr a v k s = { (s.onGrp b f).onCur k with draws := s.draws + 1 } := by
  rw [seqWriteArr, State.arrayWrite, if_neg (by simp [hc]), ha]
  dsimp only
  rw [onGrp_congr hf, drawn_onCur, onGrp_draws]

end

/-! ### The unlock sequence (R141) -/

theorem afterUnlock_apply (b : Bank) (i : Instr) (q : Sequencer) : afterUnlock b i q =
    if i = .unlock b then { q with res := .ok, state := .done } else { q with state := .busyCheck } := by
  unfold afterUnlock
  split_ifs <;> rfl

/-- Settles O26: two CR reads around the two KEYR writes. -/
theorem unlockSequence : Obligations.UnlockSequence := by
  intro s b i idx hi hc
  have hexec : ∀ st, st ∈ unlockStates → s.cur.state = st → exec i s = .next (sharedStep b idx i s) :=
    fun st hst hs => exec_unlocker hi (hs ▸ hst)
  refine ⟨fun hs => ?_, fun hs hl hk ho => ?_, fun hs hl hk => ?_, fun hs => ?_⟩
  · rw [hexec _ (by decide) hs]
    simp only [sharedStep, hs, stepUlReadCr, seqReadCr_on hc, crWord_lock, afterUnlock_apply]
    rfl
  · rw [hexec _ (by decide) hs]
    simp only [sharedStep, hs, stepUlKey1]
    exact congrArg _ (seqWriteKeyr_on hc (Group.keyWrite_k0 hl hk ho _ _) _)
  · rw [hexec _ (by decide) hs]
    simp only [sharedStep, hs, stepUlKey2]
    exact congrArg _ (seqWriteKeyr_on hc (Group.keyWrite_k1 hl hk _ _) _)
  · rw [hexec _ (by decide) hs]
    simp only [sharedStep, hs, stepUlCheck, seqReadCr_on hc, crWord_lock, afterUnlock_apply]
    rfl

/-! ### Polling (R243, R244) -/

theorem budgetSpent_iff (c : Config) (p : Nat) : budgetSpent c p = true ↔ ∃ n, c.pollBudget = some n ∧ n ≤ p := by
  unfold budgetSpent
  cases c.pollBudget <;> simp

theorem budgetSpent_eq_false {c : Config} {p : Nat} (h : ∀ n, c.pollBudget = some n → p < n) : budgetSpent c p = false := by
  rw [← Bool.not_eq_true, budgetSpent_iff]
  rintro ⟨n, hn, hp⟩
  exact absurd (h n hn) (Nat.not_lt.mpr hp)

/-- What a sequencer does with the SR value of a poll: it goes on, gives up, or polls again. -/
def polled (c : Config) (ready : Bool) (next exit : SeqState) (q : Sequencer) : Sequencer :=
  if ready then q.goto next else if budgetSpent c q.polls then q.errorExit .timeout exit else q

section
variable {c : Config} {ready : Bool} (next exit : SeqState) (q : Sequencer)

theorem polled_ready (h : ready = true) : polled c ready next exit q = q.goto next := if_pos h

theorem polled_spent (h : ready = false) (hb : ∃ n, c.pollBudget = some n ∧ n ≤ q.polls) :
    polled c ready next exit q = q.errorExit .timeout exit := by
  rw [polled, if_neg (by simp [h]), if_pos ((budgetSpent_iff _ _).mpr hb)]

theorem polled_again (h : ready = false) (hb : ∀ n, c.pollBudget = some n → q.polls < n) :
    polled c ready next exit q = q := by
  rw [polled, if_neg (by simp [h]), budgetSpent_eq_false hb, if_neg Bool.false_ne_true]

end

theorem Group.not_busy_eq_true {g : Group} (h : g.inflight = none) : (!g.busy) = true := by simp [Group.busy, h]

theorem Group.not_busy_eq_false {g : Group} (h : g.inflight ≠ none) : (!g.busy) = false := by
  rw [g.busy_iff.mpr h]
  rfl

section
variable (hc : s.cfg.clockEnabled = true)
include hc

theorem stepLkWait_on : stepLkWait b s = (s.onGrp b fun g => { g with keyState := .k0 }).onCur fun q =>
    polled s.cfg (!(s.grp b).busy) .lkReadCr .lkReadCr { q with srv := srWord s.cfg (s.grp b), polls := q.polls + 1 } := by
  rw [stepLkWait, seqReadSr_on hc]
  simp only [srWord_bsy, polled, Bool.not_eq_true']

theorem stepWaitBsy_on : stepWaitBsy b s = (s.onGrp b fun g => { g with keyState := .k0 }).onCur fun q =>
    polled s.cfg (!(s.grp b).busy) .postCheck .lkReadCr { q with srv := srWord s.cfg (s.grp b), polls := q.polls + 1 } := by
  rw [stepWaitBsy, seqReadSr_on hc]
  simp only [srWord_bsy, polled, Bool.not_eq_true']

theorem stepWaitEop_on : stepWaitEop b s = (s.onGrp b fun g => { g with keyState := .k0 }).onCur fun q =>
    polled s.cfg (s.cfg.hasEop && (s.grp b).eop) .ackEop .clrReadCr
      { q with srv := srWord s.cfg (s.grp b), polls := q.polls + 1 } := by
  rw [stepWaitEop, seqReadSr_on hc]
  simp only [srWord_eop, polled]

end

/-! ### The standard lock (R151, R155) -/

/-- BKSEL of a word whose bit 16 is that of CR. -/
theorem bksel_of_crWord (c : Config) (g : Group) :
    (if c.variant = .sectorDual then (crWord c g).getLsbD 16 else g.bksel) = g.bksel := by
  split
  · next hv => rw [crWord_bksel, bkselBit, hv]
  · rfl

/-- The lock value of CR as read changes no RW field, and asks for nothing a busy group objects to (R155). -/
theorem crWriteObjects_lockValue (c : Config) (g : Group) : crWriteObjects c g (lockValue (crWord c g)) = false := by
  obtain ⟨hpg, huer, hmer, hstrt, hsel, -, hunb⟩ := lockValue_bits (crWord c g)
  rw [crWriteObjects, hstrt, crWord_strt, Bool.or_false, decide_eq_false_iff_not, not_not, rwFields_eq_iff]
  refine ⟨hpg.trans (crWord_pg _ _), huer.trans (crWord_uer _ _), hmer.trans (crWord_mer _ _),
    hunb.trans (crWord_unb _ _), fun hv => ?_⟩
  rw [hsel, crWord_bksel, bkselBit, hv]

/-- Writing CR's own fields with LOCK set to an idle group locks it and empties the latch (R119, R151). -/
theorem Group.written_lockValue (c : Config) (g : Group) : g.written c (lockValue (crWord c g)) =
    { g with keyState := .k0, lock := true, latch := none } := by
  obtain ⟨hpg, huer, hmer, -, hsel, hlock, hunb⟩ := lockValue_bits (crWord c g)
  rw [Group.written_eq, hpg, huer, hmer, hsel, hlock, hunb, bksel_of_crWord, crWord_pg, crWord_uer, crWord_mer, crWord_unb,
    if_pos (.inr (.inr (.inr rfl)))]

/-- LK_WRITE_CR changes LOCK alone, and empties the latch of an unlocked idle group (R151, R155). -/
theorem Group.interleave_crWrite_lockValue (c : Config) (b : Bank) (n : Nat) (g : Group) :
    g.interleave.crWrite c b n (lockValue (crWord c g)) = { g with
      keyState := .k0, lock := true, latch := if g.lock = false ∧ g.inflight = none then none else g.latch } := by
  cases hl : g.lock
  · by_cases hi : g.inflight = none
    · obtain ⟨-, -, -, hstrt, -⟩ := lockValue_bits (crWord c g)
      rw [Group.interleave_crWrite_fields hl hi c b n (hstrt.trans (crWord_strt c g)), Group.written_lockValue, if_pos ⟨rfl, hi⟩]
    · obtain ⟨-, -, -, -, -, hlock, -⟩ := lockValue_bits (crWord c g)
      rw [Group.interleave_crWrite_busy hl hi, crWriteObjects_lockValue, Bool.or_false, hlock, if_neg fun h => hi h.2]
  · rw [Group.interleave_crWrite_locked hl, if_neg fun h => Bool.noConfusion h.1, ← hl]

/-- Settles O27: LK_WAIT polls SR, LK_READ_CR reads CR, and LK_WRITE_CR writes it back with LOCK. -/
theorem standardLock : Obligations.StandardLock := by
  intro s b i idx hi hc
  have hwait : s.cur.state = .lkWait → exec i s = .next (stepLkWait b s) := fun hs => by
    rw [exec_locker hi (by rw [hs]; decide), sharedStep, hs]
  refine ⟨fun hs hidle => ?_, fun hs hbusy hspent => ?_, fun hs hbusy hleft => ?_, fun hs => ?_, fun hs hcrv => ?_⟩
  · rw [hwait hs, stepLkWait_on hc]
    exact congrArg _ (onCur_congr (polled_ready _ _ _ (Group.not_busy_eq_true hidle)))
  · rw [hwait hs, stepLkWait_on hc]
    exact congrArg _ (onCur_congr (polled_spent _ _ _ (Group.not_busy_eq_false hbusy) (by rwa [onGrp_cur])))
  · rw [hwait hs, stepLkWait_on hc]
    exact congrArg _ (onCur_congr (polled_again _ _ _ (Group.not_busy_eq_false hbusy) (by rwa [onGrp_cur])))
  · rw [exec_locker hi (by rw [hs]; decide), sharedStep, hs]
    exact congrArg _ (seqReadCr_on hc b _)
  · rw [exec_locker hi (by rw [hs]; decide), sharedStep, hs]
    dsimp only
    rw [stepLkWriteCr, hcrv]
    exact congrArg _ (seqWriteCr_on hc (Group.interleave_crWrite_lockValue _ _ _ _) _)

/-! ### BUSY_CHECK and POST_CHECK (R162, R240) -/

theorem writeLoop_apply (q : Sequencer) : writeLoop q =
    if q.k.toNat < q.arg1.toNat then { q with state := .pgWriteLo } else { q with res := .ok, state := .clrReadCr } := rfl

theorem afterOp_apply (b : Bank) (idx : BitVec 8) (i : Instr) (q : Sequencer) : afterOp b idx i q =
    if i = .writeUnit b idx then
      if (q.k + 1).toNat < q.arg1.toNat then { q with addr := q.addr + 8, k := q.k + 1, state := .pgWriteLo }
      else { q with addr := q.addr + 8, k := q.k + 1, res := .ok, state := .clrReadCr }
    else { q with res := .ok, state := .clrReadCr } := by
  unfold afterOp
  split
  · exact writeLoop_apply _
  · rfl

/-- Settles O29: BUSY_CHECK is one SR read, POST_CHECK a test of the SR value kept. -/
theorem busyCheckAndPostCheck : Obligations.BusyCheckAndPostCheck := by
  intro s b i idx hi hc
  refine ⟨fun hs => ?_, fun hs => ?_⟩
  · rw [exec_mutator hi (by rw [hs]; decide), sharedStep, hs]
    dsimp only
    rw [stepBusyCheck, seqReadSr_on hc]
    simp only [srWord_bsy, Group.busy_iff]
    rfl
  · rw [exec_mutator hi (by rw [hs]; decide), sharedStep, hs]
    dsimp only
    rw [stepPostCheck]
    simp only [afterOp_apply]
    rfl

/-! ### The loops of an operation (R182, R243, R244) -/

/-- The write of ACK_EOP clears EOP alone (R108, R182). -/
theorem writeSr_srEop (s : State) (b : Bank) : s.writeSr b srEop =
    s.onGrp b fun g => { g with keyState := .k0, eop := g.eop && !s.cfg.hasEop } :=
  (writeSr_bit s b (by decide : 1 < 32)).trans (onGrp_congr (by simp))

/-- Settles O33: both waits poll SR, and ACK_EOP writes EOP alone. -/
theorem waitLoops : Obligations.WaitLoops := by
  intro s b i idx hi hc
  have hbsy : s.cur.state = .waitBsy → exec i s = .next (stepWaitBsy b s) := fun hs => by
    rw [exec_mutator hi (by rw [hs]; decide), sharedStep, hs]
  have heop : s.cur.state = .waitEop → exec i s = .next (stepWaitEop b s) := fun hs => by
    rw [exec_mutator hi (by rw [hs]; decide), sharedStep, hs]
  have hnoEop : s.cfg.hasEop = false ∨ (s.grp b).eop = false → (s.cfg.hasEop && (s.grp b).eop) = false := fun h => by
    rcases h with h | h <;> simp [h]
  refine ⟨fun hs hidle => ?_, fun hs hbusy hspent => ?_, fun hs hbusy hleft => ?_, fun hs hhas hset => ?_,
    fun hs hclear hspent => ?_, fun hs hclear hleft => ?_, fun hs => ?_⟩
  · rw [hbsy hs, stepWaitBsy_on hc]
    exact congrArg _ (onCur_congr (polled_ready _ _ _ (Group.not_busy_eq_true hidle)))
  · rw [hbsy hs, stepWaitBsy_on hc]
    exact congrArg _ (onCur_congr (polled_spent _ _ _ (Group.not_busy_eq_false hbusy) (by rwa [onGrp_cur])))
  · rw [hbsy hs, stepWaitBsy_on hc]
    exact congrArg _ (onCur_congr (polled_again _ _ _ (Group.not_busy_eq_false hbusy) (by rwa [onGrp_cur])))
  · rw [heop hs, stepWaitEop_on hc]
    exact congrArg _ (onCur_congr (polled_ready _ _ _ (by simp [hhas, hset])))
  · rw [heop hs, stepWaitEop_on hc]
    exact congrArg _ (onCur_congr (polled_spent _ _ _ (hnoEop hclear) (by rwa [onGrp_cur])))
  · rw [heop hs, stepWaitEop_on hc]
    exact congrArg _ (onCur_congr (polled_again _ _ _ (hnoEop hclear) (by rwa [onGrp_cur])))
  · rw [exec_mutator hi (by rw [hs]; decide), sharedStep, hs]
    dsimp only
    rw [stepAckEop, seqWriteSr, clocked_on hc, writeSr_srEop]
    exact congrArg _ (onCur_congr (afterOp_apply b idx i _))

/-! ### Configure and start (R180, R186, R202) -/

/-- A word whose fields are the group's (R82). -/
structure HoldsFields (c : Config) (g : Group) (v : Word) : Prop where
  pg : v.getLsbD 0 = g.pg
  uer : v.getLsbD 1 = g.uer
  mer : v.getLsbD 2 = g.mer
  unb : v.extractLsb' 8 8 = g.unb
  bksel : c.variant = .sectorDual → v.getLsbD 16 = g.bksel
  lock : v.getLsbD 31 = g.lock

theorem crWord_holdsFields (c : Config) (g : Group) : HoldsFields c g (crWord c g) :=
  ⟨crWord_pg c g, crWord_uer c g, crWord_mer c g, crWord_unb c g, fun hv => by rw [crWord_bksel, bkselBit, hv],
    crWord_lock c g⟩

/-- The group configured to erase a unit (R180). -/
def Group.armUnit (c : Config) (b : Bank) (idx : BitVec 8) (g : Group) : Group :=
  { g with
    keyState := .k0, pg := false, uer := true, mer := false, unb := idx, latch := none
    bksel := if c.variant = .sectorDual then b.index else g.bksel }

/-- The group configured to erase its bank (R186). -/
def Group.armBank (c : Config) (g : Group) : Group :=
  { g with
    keyState := .k0, pg := false, uer := false, mer := true, unb := 0, latch := none
    bksel := if c.variant = .sectorDual then false else g.bksel }

theorem eraseUnitCfg_holdsFields (c : Config) (b : Bank) (idx : BitVec 8) {g : Group} {v : Word}
    (hv : v.getLsbD 31 = g.lock) : HoldsFields c (g.armUnit c b idx) (eraseUnitCfg c b idx v) := by
  obtain ⟨hpg, huer, hmer, -, hbksel, hlock, hunb⟩ := eraseUnitCfg_bits c b idx v
  exact ⟨hpg, huer, hmer, hunb, fun hd => (hbksel hd).trans (if_pos hd).symm, hlock.trans hv⟩

theorem eraseBankCfg_holdsFields (c : Config) {g : Group} {v : Word} (hv : v.getLsbD 31 = g.lock) :
    HoldsFields c (g.armBank c) (eraseBankCfg v) := by
  obtain ⟨hpg, huer, hmer, -, hbksel, hlock, hunb⟩ := eraseBankCfg_bits v
  exact ⟨hpg, huer, hmer, hunb, fun hd => hbksel.trans (if_pos hd).symm, hlock.trans hv⟩

section
variable {g : Group} (hl : g.lock = false) (hi : g.inflight = none) (c : Config) (b : Bank) (n : Nat)
include hl hi

/-- CFG_WRITE_CR of ERASE_UNIT arms the erase of one unit (R180). -/
theorem Group.interleave_crWrite_eraseUnitCfg (idx : BitVec 8) {v : Word} (hv : v.getLsbD 31 = false) :
    g.interleave.crWrite c b n (eraseUnitCfg c b idx v) = g.armUnit c b idx := by
  obtain ⟨hpg, huer, hmer, hstrt, hbksel, hlock, hunb⟩ := eraseUnitCfg_bits c b idx v
  have hsel : (if c.variant = .sectorDual then (eraseUnitCfg c b idx v).getLsbD 16 else g.bksel) =
      if c.variant = .sectorDual then b.index else g.bksel := by
    split_ifs with hd
    · exact hbksel hd
    · rfl
  rw [Group.interleave_crWrite_fields hl hi c b n hstrt, Group.written_eq, hsel, Group.armUnit]
  simp only [hpg, huer, hmer, hlock, hunb, hv, hl, true_or, if_true]

/-- CFG_WRITE_CR of ERASE_BANK arms the erase of the bank (R186). -/
theorem Group.interleave_crWrite_eraseBankCfg {v : Word} (hv : v.getLsbD 31 = false) :
    g.interleave.crWrite c b n (eraseBankCfg v) = g.armBank c := by
  obtain ⟨hpg, huer, hmer, hstrt, hbksel, hlock, hunb⟩ := eraseBankCfg_bits v
  rw [Group.interleave_crWrite_fields hl hi c b n hstrt, Group.written_eq, Group.armBank]
  simp only [hpg, huer, hmer, hlock, hunb, hbksel, hv, hl, true_or, if_true]

/-- CFG_WRITE_CR of WRITE_UNIT sets PG alone, and keeps the latch (R202). -/
theorem Group.interleave_crWrite_writeUnitCfg :
    g.interleave.crWrite c b n (writeUnitCfg (crWord c g)) =
      { g with keyState := .k0, pg := true, uer := false, mer := false } := by
  obtain ⟨hpg, huer, hmer, hstrt, hbksel, hlock, hunb⟩ := writeUnitCfg_bits (crWord c g)
  rw [Group.interleave_crWrite_fields hl hi c b n (hstrt.trans (crWord_strt c g)), Group.written_eq, hbksel,
    bksel_of_crWord, hunb, crWord_unb, hlock, crWord_lock]
  simp only [hpg, huer, hmer, hl, Bool.true_eq_false, Bool.false_eq_true, or_self, if_false]

/-- START writes back with STRT a word that holds the group's fields, so it starts the group as it is, its latch dropped
where PG is 0 (R180). -/
theorem Group.interleave_crWrite_strt (hpg : g.pg = false) {v : Word} (hv : HoldsFields c g v) :
    g.interleave.crWrite c b n (v ||| crStrt) = { g with keyState := .k0, latch := none }.start c b n := by
  have hkeep : ∀ j, j ≠ 3 → (v ||| crStrt).getLsbD j = v.getLsbD j := fun j hj => by
    rw [BitVec.getLsbD_or, show crStrt = 1#32 <<< 3 from rfl, bit_getLsbD (by decide), decide_eq_false (Ne.symm hj),
      Bool.or_false]
  have hunb : (v ||| crStrt).extractLsb' 8 8 = g.unb := by
    rw [extract_or, hv.unb, show crStrt.extractLsb' 8 8 = 0 from by decide]
    exact BitVec.or_zero
  have hstrt : (v ||| crStrt).getLsbD 3 = true := by
    rw [BitVec.getLsbD_or, show crStrt.getLsbD 3 = true from rfl, Bool.or_true]
  have hsel : (if c.variant = .sectorDual then v.getLsbD 16 else g.bksel) = g.bksel := by
    split_ifs with hd
    · exact hv.bksel hd
    · rfl
  rw [Group.interleave_crWrite_start hl hi c b n hstrt, Group.written_eq, hunb, hkeep 0 (by decide), hkeep 1 (by decide),
    hkeep 2 (by decide), hkeep 16 (by decide), hkeep 31 (by decide), hv.pg, hv.uer, hv.mer, hv.lock, hsel,
    if_pos (.inl hpg)]

end

/-- The start of an armed unit erase (R113). -/
theorem Group.start_eraseUnit {g : Group} {c : Config} {b : Bank} (hpend : g.errorPending = false) (hpg : g.pg = false)
    (huer : g.uer = true) (hmer : g.mer = false) (hsel : c.variant = .sectorDual → g.bksel = b.index)
    (hunit : g.unb.toNat < c.unitCount) (hwrp : g.unb.toNat ∉ c.wrpUnits b) (n : Nat) :
    g.start c b n = { g with inflight := some (.eraseUnit g.unb) } := by
  rw [Group.start, if_neg (by simp [hpend]), if_neg (by simp [hpg, huer, hmer]), if_pos huer,
    if_neg fun h => h.2 (hsel h.1), if_neg (Nat.not_le.mpr hunit), if_neg hwrp]

/-- The start of an armed bank erase (R113). -/
theorem Group.start_eraseBank {g : Group} {c : Config} {b : Bank} (hpend : g.errorPending = false) (hpg : g.pg = false)
    (huer : g.uer = false) (hmer : g.mer = true) (hwrp : c.wrpUnits b = []) (n : Nat) :
    g.start c b n = { g with inflight := some .eraseBank } := by
  rw [Group.start, if_neg (by simp [hpend]), if_neg (by simp [hpg, huer, hmer]), if_neg (by simp [huer]),
    if_neg (not_not.mpr hwrp)]

section
variable (hc : s.cfg.clockEnabled = true) (hst : s.cur.state = .cfgWriteCr) (hl : (s.grp b).lock = false)
  (hidle : (s.grp b).inflight = none) (hcrv : s.cur.crv.getLsbD 31 = false)
include hc hst hl hidle hcrv

/-- CFG_WRITE_CR of ERASE_UNIT (R180). -/
theorem exec_configure_eraseUnit : exec (.eraseUnit b idx) s =
    .next { (s.onGrp b (Group.armUnit s.cfg b s.cur.idx)).onCur (fun q =>
      { q with crv := eraseUnitCfg s.cfg b s.cur.idx s.cur.crv, state := .start }) with draws := s.draws + 1 } := by
  simp only [exec, execEraseUnit, hst, stepCfgWriteCr]
  exact congrArg _ (seqWriteCr_on hc (Group.interleave_crWrite_eraseUnitCfg hl hidle _ _ _ _ hcrv) _)

/-- CFG_WRITE_CR of ERASE_BANK (R186). -/
theorem exec_configure_eraseBank : exec (.eraseBank b) s =
    .next { (s.onGrp b (Group.armBank s.cfg)).onCur (fun q =>
      { q with crv := eraseBankCfg s.cur.crv, state := .start }) with draws := s.draws + 1 } := by
  simp only [exec, execEraseBank, hst, stepCfgWriteCr]
  exact congrArg _ (seqWriteCr_on hc (Group.interleave_crWrite_eraseBankCfg hl hidle _ _ _ hcrv) _)

end

section
variable (hc : s.cfg.clockEnabled = true) (hst : s.cur.state = .start) (hv : HoldsFields s.cfg (s.grp b) s.cur.crv)
  (hl : (s.grp b).lock = false) (hidle : (s.grp b).inflight = none) (hpend : (s.grp b).errorPending = false)
  (hpg : (s.grp b).pg = false)
include hc hst hv hl hidle hpend hpg

/-- START of ERASE_UNIT on an armed group (R180). -/
theorem exec_start_eraseUnit (huer : (s.grp b).uer = true) (hmer : (s.grp b).mer = false)
    (hsel : s.cfg.variant = .sectorDual → (s.grp b).bksel = b.index) (hunit : (s.grp b).unb.toNat < s.cfg.unitCount)
    (hwrp : (s.grp b).unb.toNat ∉ s.cfg.wrpUnits b) : exec (.eraseUnit b idx) s =
      .next { (s.onGrp b fun g => { g with
          keyState := .k0, latch := none, inflight := some (.eraseUnit g.unb) }).onCur
        (fun q => { q with polls := 0, state := .waitBsy }) with draws := s.draws + 1 } := by
  simp only [exec, execEraseUnit, hst, stepStart]
  refine congrArg _ (seqWriteCr_on hc ((Group.interleave_crWrite_strt hl hidle _ _ _ hpg hv).trans ?_) _)
  exact Group.start_eraseUnit (g := { s.grp b with keyState := .k0, latch := none }) hpend hpg huer hmer hsel hunit hwrp _

/-- START of ERASE_BANK on an armed group (R186). -/
theorem exec_start_eraseBank (huer : (s.grp b).uer = false) (hmer : (s.grp b).mer = true) (hwrp : s.cfg.wrpUnits b = []) :
    exec (.eraseBank b) s =
      .next { (s.onGrp b fun g => { g with
          keyState := .k0, latch := none, inflight := some .eraseBank }).onCur
        (fun q => { q with polls := 0, state := .waitBsy }) with draws := s.draws + 1 } := by
  simp only [exec, execEraseBank, hst, stepStart]
  refine congrArg _ (seqWriteCr_on hc ((Group.interleave_crWrite_strt hl hidle _ _ _ hpg hv).trans ?_) _)
  exact Group.start_eraseBank (g := { s.grp b with keyState := .k0, latch := none }) hpend hpg huer hmer hwrp _

end

/-- Settles O30: the configure value arms one erase, and the start value starts it. -/
theorem eraseConfigureThenStart : Obligations.EraseConfigureThenStart := by
  intro s b idx hc hl hidle hcrv
  have hfields : s.cur.crv = crWord s.cfg (s.grp b) → HoldsFields s.cfg (s.grp b) s.cur.crv := fun h => by
    rw [h]
    exact crWord_holdsFields _ _
  refine ⟨fun hs => ⟨eraseUnitCfg s.cfg b s.cur.idx s.cur.crv, exec_configure_eraseUnit hc hs hl hidle hcrv, ?_⟩,
    fun hs => exec_configure_eraseBank hc hs hl hidle hcrv,
    fun hs hv hpend hpg huer hmer hsel hunit hwrp =>
      exec_start_eraseUnit hc hs (hfields hv) hl hidle hpend hpg huer hmer hsel hunit hwrp,
    fun hs hv hpend hpg huer hmer hwrp =>
      exec_start_eraseBank hc hs (hfields hv) hl hidle hpend hpg huer hmer hwrp⟩
  unfold eraseUnitCfg
  congr 1
  cases hv : s.cfg.variant <;> cases b <;> simp [Bank.index]

/-! ### WRITE_UNIT (R201-R203) -/

/-- A byte of a unit has a 32-bit address (R9 (b)). -/
theorem unitToAddress_toNat {c : Config} (hw : c.wf = true) (hb : c.hasBank b = true) {u o : Nat} (hu : u < c.unitCount)
    (ho : o < c.unitSize) : (BitVec.ofNat 32 (c.unitToAddress u b + o)).toNat = c.unitToAddress u b + o := by
  have := unit_fits hw hb hu
  rw [BitVec.toNat_ofNat]
  exact Nat.mod_eq_of_lt (by omega)

theorem writeValidate_apply (c : Config) (b : Bank) (q : Sequencer) : writeValidate c b q =
    if c.unitCount ≤ q.idx.toNat ∨ c.unitSize < 8 * q.arg1.toNat then
      { q with res := .pageOutOfRange, polls := 0, state := .lkWait }
    else { q with addr := BitVec.ofNat 32 (c.unitToAddress q.idx.toNat b), k := 0, state := .cfgReadCr } := rfl

theorem Sequencer.dword_of_dbuf {q : Sequencer} {k : Nat} {w : DWord} (h : q.dbuf[k]? = some w) : q.dword k = w := by
  rw [Sequencer.dword, h]

/-- The gate of an unlocked group that programs and does not erase is open (R116). -/
theorem Group.not_gateShut {g : Group} (hl : g.lock = false) (hpg : g.pg = true) (huer : g.uer = false)
    (hmer : g.mer = false) : ¬g.gateShut := by
  simp [Group.gateShut, hl, hpg, huer, hmer]

/-- The first half of a pair is latched (R117). -/
theorem Group.arrWrite_low {g : Group} (hi : g.inflight = none) (hgate : ¬g.gateShut) (hlatch : g.latch = none)
    (hpend : g.errorPending = false) {c : Config} {b : Bank} {a : Word} (h8 : a.toNat % 8 = 0)
    (hwrp : c.unitOf b a.toNat ∉ c.wrpUnits b) (n : Nat) (v : Word) :
    g.arrWrite c b n .w32 a v = { g with latch := some { addr := a, low := v } } := by
  rw [Group.arrWrite_empty _ _ _ _ _ _ (not_not.mpr hi) hgate hlatch, if_neg (by simp [hpend]), Group.firstHalf,
    if_neg (by simp [h8]), if_neg hwrp]

/-- The second half of a pair starts the program (R118). -/
theorem Group.arrWrite_high {g : Group} (hi : g.inflight = none) (hgate : ¬g.gateShut) {l : Latch}
    (hlatch : g.latch = some l) {a : Word} (ha : a.toNat = l.addr.toNat + 4) (c : Config) (b : Bank) (n : Nat) (v : Word) :
    g.arrWrite c b n .w32 a v =
      { g with latch := none, inflight := some (.program l.addr (v ++ l.low)) } := by
  rw [Group.arrWrite_full _ _ _ _ _ _ (not_not.mpr hi) hgate hlatch, Group.secondHalf, if_neg (by simp [ha])]

section
variable (hw : s.cfg.wf = true) (hc : s.cfg.clockEnabled = true) (hidle : (s.grp b).inflight = none)
  (hgate : ¬(s.grp b).gateShut)
include hw hc hidle hgate

/-- PG_WRITE_LO latches the low half of DBUF[K] at ADDR (R203). -/
theorem exec_pgWriteLo (hst : s.cur.state = .pgWriteLo) (hlatch : (s.grp b).latch = none)
    (hpend : (s.grp b).errorPending = false) (ha : s.cfg.inFlash b s.cur.addr.toNat = true)
    (h8 : s.cur.addr.toNat % 8 = 0) (hwrp : s.cfg.unitOf b s.cur.addr.toNat ∉ s.cfg.wrpUnits b) :
    exec (.writeUnit b idx) s = .next { (s.onGrp b fun g => { g with
        latch := some { addr := s.cur.addr, low := (s.cur.dword s.cur.k.toNat).extractLsb' 0 32 } }).onCur
      (fun q => { q with state := .pgWriteHi }) with draws := s.draws + 1 } := by
  simp only [exec, execWriteUnit, hst, stepPgWriteLo]
  exact congrArg _ (seqWriteArr_on hc (Config.flashBank_of_inFlash hw ha)
    (Group.arrWrite_low hidle hgate hlatch hpend h8 hwrp _ _) _)

/-- PG_WRITE_HI starts the program with the high half (R203). -/
theorem exec_pgWriteHi (hst : s.cur.state = .pgWriteHi) {l : Latch} (hlatch : (s.grp b).latch = some l)
    (hnext : (s.cur.addr + 4).toNat = l.addr.toNat + 4) (ha : s.cfg.inFlash b (s.cur.addr + 4).toNat = true) :
    exec (.writeUnit b idx) s = .next { (s.onGrp b fun g => { g with
        latch := none
        inflight := some (.program l.addr ((s.cur.dword s.cur.k.toNat).extractLsb' 32 32 ++ l.low)) }).onCur
      (fun q => { q with polls := 0, state := .waitBsy }) with draws := s.draws + 1 } := by
  simp only [exec, execWriteUnit, hst, stepPgWriteHi]
  exact congrArg _ (seqWriteArr_on hc (Config.flashBank_of_inFlash hw ha)
    (Group.arrWrite_high hidle hgate hlatch hnext _ _ _ _) _)

end

/-- Settles O31: VALIDATE tests and sets ADDR and K, and each half of a pair is one array write. -/
theorem programConfigureAndPair : Obligations.ProgramConfigureAndPair := by
  intro s b idx hw hc
  refine ⟨fun hs hb => ⟨BitVec.ofNat 32 (s.cfg.unitToAddress s.cur.idx.toNat b), ?_, fun hu => ?_⟩,
    fun hs hl hidle hcrv => ?_,
    fun w hword hl hidle hpg huer hmer => ?_⟩
  · simp only [exec, execWriteUnit, hs]
    exact congrArg _ (onCur_congr (writeValidate_apply _ _ _))
  · exact unitToAddress_toNat hw hb hu s.cfg.unitSize_pos
  · simp only [exec, execWriteUnit, hs, stepCfgWriteCr, hcrv]
    exact congrArg _ (seqWriteCr_on hc (Group.interleave_crWrite_writeUnitCfg hl hidle _ _ _) _)
  · have hgate := Group.not_gateShut hl hpg huer hmer
    rw [← Sequencer.dword_of_dbuf hword]
    exact ⟨fun hs hlatch hpend ha h8 hwrp => exec_pgWriteLo hw hc hidle hgate hs hlatch hpend ha h8 hwrp,
      fun l hs hlatch hnext ha => exec_pgWriteHi hw hc hidle hgate hs hlatch hnext ha⟩

/-! ### READ_UNIT and UNIT_TO_ADDRESS (R221, R223) -/

/-- A byte written to RBUF is read back, and the others stay. -/
theorem bufferRead_bufferWrite (l : List (Nat × Byte)) (era k : Nat) (v : Byte) (j : Nat) :
    bufferRead (bufferWrite l k v) era j = if j = k then v else bufferRead l era j := by
  induction l with
  | nil => simp only [bufferWrite, bufferRead, eq_comm (a := k)]
  | cons p r ih =>
    obtain ⟨m, w⟩ := p
    rcases Nat.lt_trichotomy k m with h | rfl | h
    · simp only [bufferWrite, if_pos h, bufferRead, eq_comm (a := k)]
    · simp only [bufferWrite, lt_irrefl, if_false, if_true, bufferRead, eq_comm (a := k)]
      split_ifs <;> rfl
    · simp only [bufferWrite, if_neg h.asymm, if_neg h.ne', bufferRead, ih]
      split_ifs with hm hj
      · exact absurd (hm.trans hj) h.ne
      · rfl
      · rfl
      · rfl

theorem readByteDone_apply (v : Byte) (q : Sequencer) : readByteDone v q =
    if (q.k + 1).toNat < q.arg1.toNat then
      { q with rbuf := bufferWrite q.rbuf q.k.toNat v, addr := q.addr + 1, k := q.k + 1 }
    else { q with rbuf := bufferWrite q.rbuf q.k.toNat v, addr := q.addr + 1, k := q.k + 1, res := .ok, state := .done } :=
  rfl

theorem readValidate_apply (c : Config) (b : Bank) (q : Sequencer) : readValidate c b q =
    if c.unitCount ≤ q.idx.toNat ∨ c.unitSize < q.arg0.toNat + q.arg1.toNat then
      { q with res := .pageOutOfRange, state := .done }
    else if q.arg1 = 0 then
      { q with addr := BitVec.ofNat 32 (c.unitToAddress q.idx.toNat b + q.arg0.toNat), k := 0, res := .ok, state := .done }
    else
      { q with addr := BitVec.ofNat 32 (c.unitToAddress q.idx.toNat b + q.arg0.toNat), k := 0, state := .rdByte } := rfl

theorem translateValidate_apply (c : Config) (b : Bank) (q : Sequencer) : translateValidate c b q =
    if c.unitCount ≤ q.idx.toNat then { q with res := .pageOutOfRange, state := .done }
    else { q with raddr := BitVec.ofNat 32 (c.unitToAddress q.idx.toNat b), res := .ok, state := .done } := rfl

theorem touchesEcc_byte (c : Config) (a : Nat) : touchesEcc c .b8 a = true ↔ a / 8 * 8 ∈ c.eccFaulty := by
  simp [touchesEcc, sizeBytes]

theorem Memory.load_b8 (m : Memory) (a : Nat) : (m.load .b8 a).setWidth 8 = m.read a := by
  simp [Memory.load]

/-- The array read of RD_BYTE (R120, R121). -/
theorem arrayRead_byte (hw : s.cfg.wf = true) (hc : s.cfg.clockEnabled = true) {a : Word}
    (ha : s.cfg.inFlash b a.toNat = true) : s.arrayRead .b8 a =
      if (s.grp b).busy then .stalled
      else if touchesEcc s.cfg .b8 a.toNat then
        .data (sizeMask .b8 (Config.freeEccData s.draws)) (s.onGrp b (Group.raise .eccerr)).drawn
      else .data (s.mem.load .b8 a.toNat) s := by
  rw [State.arrayRead, if_neg (by simp [hc]), Config.flashBank_of_inFlash hw ha]
  exact if_neg (by simp [sizeBytes, Nat.mod_one])

/-- Settles O32: VALIDATE is a test, and RD_BYTE one array read whose byte goes to RBUF. -/
theorem translateAndReadSteps : Obligations.TranslateAndReadSteps := by
  intro s b idx hw hb
  refine ⟨fun hs => ⟨_, ?_, fun hu => unitToAddress_toNat hw hb hu s.cfg.unitSize_pos⟩,
    fun hs => ⟨BitVec.ofNat 32 (s.cfg.unitToAddress s.cur.idx.toNat b + s.cur.arg0.toNat), ?_, fun hu hsize hne => ?_⟩,
    fun hs hc ha => ⟨fun hbusy => ?_, fun hidle hecc => ?_, fun hidle hecc => ?_⟩⟩
  · simp only [exec, execUnitToAddress, hs]
    exact congrArg _ (onCur_congr (translateValidate_apply _ _ _))
  · simp only [exec, execReadUnit, hs]
    exact congrArg _ (onCur_congr (readValidate_apply _ _ _))
  · have hpos : 0 < s.cur.arg1.toNat := Nat.pos_of_ne_zero fun h => hne (BitVec.eq_of_toNat_eq h)
    exact unitToAddress_toNat hw hb hu (by omega)
  · simp only [exec, execReadUnit, hs, stepRdByte, arrayRead_byte hw hc ha, (s.grp b).busy_iff.mpr hbusy, if_true]
  · have hecc' : ¬touchesEcc s.cfg .b8 s.cur.addr.toNat = true := mt (touchesEcc_byte _ _).mp hecc
    refine ⟨bufferWrite s.cur.rbuf s.cur.k.toNat (s.mem.read s.cur.addr.toNat), ?_, ?_, fun j hj => ?_⟩
    · simp only [exec, execReadUnit, hs, stepRdByte, arrayRead_byte hw hc ha, Group.busy, hidle, Option.isSome_none, hecc',
        Bool.false_eq_true, if_false, Memory.load_b8]
      exact congrArg _ (onCur_congr (readByteDone_apply _ _))
    · rw [bufferRead_bufferWrite, if_pos rfl]
    · rw [bufferRead_bufferWrite, if_neg hj, Sequencer.rbyte]
  · have hecc' := (touchesEcc_byte _ _).mpr hecc
    refine ⟨bufferWrite s.cur.rbuf s.cur.k.toNat ((sizeMask .b8 (Config.freeEccData s.draws)).setWidth 8), ?_,
      fun j hj => ?_⟩
    · simp only [exec, execReadUnit, hs, stepRdByte, arrayRead_byte hw hc ha, Group.busy, hidle, Option.isSome_none, hecc',
        Bool.false_eq_true, if_false, if_true, drawn_onCur, onGrp_draws]
      refine congrArg (fun t : State => Host.Outcome.next { t with draws := s.draws + 1 }) (onCur_congr ?_)
      rw [onGrp_cur]
      exact readByteDone_apply _ _
    · rw [bufferRead_bufferWrite, if_neg hj, Sequencer.rbyte]

end Sys2Proof.Machine
end

section
/-! PROOFS. Family other, runs of a command: steps in a row, and the parts that several commands have in common (the unlock
sequence, the flag clear, the post-clear and the standard lock), each from any state that stands at its first state. -/
namespace Sys2Proof.Machine
variable {each : State → State} {s t u : State} {b : Bank} {i : Instr} {idx : BitVec 8}

/-! ### Steps in a row -/

theorem OnlyCommand.refl (b : Bank) (s : State) : OnlyCommand b s s :=
  ⟨rfl, fun _ _ => rfl, fun _ _ => rfl, rfl, rfl, rfl, rfl, rfl, rfl, rfl⟩

theorem OnlyCommand.trans (h : OnlyCommand b s t) (h' : OnlyCommand b t u) : OnlyCommand b s u where
  cfg := h'.cfg.trans h.cfg
  group d hd := (h'.group d hd).trans (h.group d hd)
  seq n hn := (h'.seq n (by rwa [h.turn])).trans (h.seq n hn)
  p1 := h'.p1.trans h.p1
  p2 := h'.p2.trans h.p2
  bus := h'.bus.trans h.bus
  masters := h'.masters.trans h.masters
  mark := h'.mark.trans h.mark
  turn := h'.turn.trans h.turn
  sched := h'.sched.trans h.sched

theorem commandRun_add {n : Nat} (h : commandRun each i n s = .next t) (m : Nat) :
    commandRun each i (n + m) s = commandRun each i m t := by
  induction n generalizing s with
  | zero =>
    rw [commandRun] at h
    injection h with h
    rw [Nat.zero_add, h]
  | succ n ih =>
    rw [Nat.succ_add, commandRun]
    rw [commandRun] at h
    cases he : exec i s with
    | next v =>
      rw [he] at h
      exact ih h
    | fault r =>
      rw [he] at h
      cases h
    | refused r =>
      rw [he] at h
      cases h

/-- The command leads from `s` to `t` in `n` steps. -/
structure Ran (each : State → State) (i : Instr) (b : Bank) (n : Nat) (s t : State) : Prop where
  run : commandRun each i n s = .next t
  frame : OnlyCommand b s t

theorem Ran.trans {n m : Nat} (h : Ran each i b n s t) (h' : Ran each i b m t u) : Ran each i b (n + m) s u :=
  ⟨(commandRun_add h.run m).trans h'.run, h.frame.trans h'.frame⟩

theorem Ran.one (h : exec i s = .next t) (hframe : OnlyCommand b s (each t)) : Ran each i b 1 s (each t) :=
  ⟨by rw [commandRun, h]; rfl, hframe⟩

/-- It does so without a change of the array, and with the same operation in flight. -/
structure Reach (each : State → State) (i : Instr) (b : Bank) (n : Nat) (s t : State) : Prop extends
    Ran each i b n s t where
  mem : t.mem = s.mem
  marks : t.marks = s.marks
  inflight : (t.grp b).inflight = (s.grp b).inflight

theorem Reach.trans {n m : Nat} (h : Reach each i b n s t) (h' : Reach each i b m t u) : Reach each i b (n + m) s u :=
  ⟨h.toRan.trans h'.toRan, h'.mem.trans h.mem, h'.marks.trans h.marks, h'.inflight.trans h.inflight⟩

/-- The clock is enabled, and as long as the command leaves the operation in flight as it is no engine completes
between its steps. -/
structure Steady (each : State → State) (b : Bank) (s : State) : Prop where
  clock : s.cfg.clockEnabled = true
  quiet : ∀ t, OnlyCommand b s t → (t.grp b).inflight = (s.grp b).inflight → each t = t

theorem Steady.held (h : s.cfg.clockEnabled = true) : Steady id b s := ⟨h, fun _ _ _ => rfl⟩

theorem engineStep_idle (h : (s.grp b).inflight = none) : s.engineStep b = s := by
  rw [State.engineStep, h]

theorem settle_idle (h : ∀ d, (s.grp d).inflight = none) : settle s = s := by
  rw [settle, engineStep_idle (h .b1), engineStep_idle (h .b2)]

theorem enginesIdle_iff (s : State) : enginesIdle s ↔ ∀ d, (s.grp d).inflight = none :=
  (grp_forall s fun _ g => g.inflight = none).symm

/-- Under the prompt schedule idle engines stay idle. -/
theorem Steady.prompt (h : s.cfg.clockEnabled = true) (hidle : enginesIdle s) : Steady settle b s := by
  rw [enginesIdle_iff] at hidle
  refine ⟨h, fun t ht hin => settle_idle fun d => ?_⟩
  by_cases hd : d = b
  · rw [hd, hin, hidle]
  · rw [ht.group d hd, hidle]

theorem Reach.steady {n : Nat} (h : Reach each i b n s t) (hs : Steady each b s) : Steady each b t :=
  ⟨by rw [h.frame.cfg]; exact hs.clock,
    fun u hu hin => hs.quiet u (h.frame.trans hu) (hin.trans h.inflight)⟩

/-! ### One step -/

/-- What a step leaves that changes bank b's group by `f` and its own sequencer by `k`. -/
structure Moved (b : Bank) (f : Group → Group) (k : Sequencer → Sequencer) (s t : State) : Prop where
  frame : OnlyCommand b s t
  mem : t.mem = s.mem
  marks : t.marks = s.marks
  grp : t.grp b = f (s.grp b)
  cur : t.cur = k s.cur

theorem Moved.onGrp (b : Bank) (f : Group → Group) (k : Sequencer → Sequencer) (s : State) :
    Moved b f k s ((s.onGrp b f).onCur k) where
  frame := {
    cfg := by rw [onCur_cfg, onGrp_cfg]
    group d hd := by rw [onCur_grp, onGrp_grp_other _ _ _ _ hd]
    seq n hn := by rw [onCur_seq_other _ _ _ (by rwa [onGrp_turn]), onGrp_seq]
    p1 := by rw [onCur_p1, onGrp_p1]
    p2 := by rw [onCur_p2, onGrp_p2]
    bus := by rw [onCur_bus, onGrp_bus]
    masters := by rw [onCur_masters, onGrp_masters]
    mark := by rw [onCur_refusalMark, onGrp_refusalMark]
    turn := by rw [onCur_turn, onGrp_turn]
    sched := by rw [onCur_sched, onGrp_sched] }
  mem := by rw [onCur_mem, onGrp_mem]
  marks := by rw [onCur_marks, onGrp_marks]
  grp := by rw [onCur_grp, onGrp_grp_same]
  cur := by rw [onCur_cur, onGrp_cur]

theorem Moved.draws {f : Group → Group} {k : Sequencer → Sequencer} (h : Moved b f k s t) (n : Nat) :
    Moved b f k s { t with draws := n } := by
  obtain ⟨⟨hcfg, hgroup, hseq, hp1, hp2, hbus, hmasters, hmark, hturn, hsched⟩, hmem, hmarks, hgrp, hcur⟩ := h
  have hg : ∀ d, ({ t with draws := n } : State).grp d = t.grp d := fun d => by cases d <;> rfl
  have hq : ∀ m, ({ t with draws := n } : State).seq m = t.seq m := fun m => by cases m <;> rfl
  exact ⟨⟨hcfg, fun d hd => (hg d).trans (hgroup d hd), fun m hm => (hq m).trans (hseq m hm), hp1, hp2, hbus, hmasters,
    hmark, hturn, hsched⟩, hmem, hmarks, (hg b).trans hgrp, (hq _).trans hcur⟩

theorem Moved.onCur (b : Bank) (k : Sequencer → Sequencer) (s : State) : Moved b id k s (s.onCur k) := by
  have h := Moved.onGrp b id k s
  rwa [onGrp_self rfl] at h

theorem Moved.onGrp_drawn (b : Bank) (f : Group → Group) (k : Sequencer → Sequencer) (s : State) :
    Moved b f k s { (s.onGrp b f).onCur k with draws := s.draws + 1 } := (Moved.onGrp b f k s).draws _

/-- A step that leaves the operation in flight as it is. -/
theorem Steady.step {f : Group → Group} {k : Sequencer → Sequencer} (hs : Steady each b s) (hexec : exec i s = .next t)
    (hm : Moved b f k s t) (hin : (f (s.grp b)).inflight = (s.grp b).inflight) : Reach each i b 1 s t := by
  have hin' : (t.grp b).inflight = (s.grp b).inflight := by rw [hm.grp, hin]
  have hquiet : each t = t := hs.quiet t hm.frame hin'
  have hran : Ran each i b 1 s (each t) := Ran.one hexec (by rw [hquiet]; exact hm.frame)
  rw [hquiet] at hran
  exact ⟨hran, hm.mem, hm.marks, hin'⟩

section
variable {f : Group → Group} {k : Sequencer → Sequencer} (hs : Steady each b s)
include hs

theorem Steady.onGrp (hexec : exec i s = .next ((s.onGrp b f).onCur k))
    (hin : (f (s.grp b)).inflight = (s.grp b).inflight) :
    ∃ t, Reach each i b 1 s t ∧ t.grp b = f (s.grp b) ∧ t.cur = k s.cur :=
  ⟨_, hs.step hexec (.onGrp b f k s) hin, (Moved.onGrp b f k s).grp, (Moved.onGrp b f k s).cur⟩

theorem Steady.onGrp_drawn (hexec : exec i s = .next { (s.onGrp b f).onCur k with draws := s.draws + 1 })
    (hin : (f (s.grp b)).inflight = (s.grp b).inflight) :
    ∃ t, Reach each i b 1 s t ∧ t.grp b = f (s.grp b) ∧ t.cur = k s.cur :=
  ⟨_, hs.step hexec (.onGrp_drawn b f k s) hin, (Moved.onGrp_drawn b f k s).grp, (Moved.onGrp_drawn b f k s).cur⟩

theorem Steady.onCur (hexec : exec i s = .next (s.onCur k)) :
    ∃ t, Reach each i b 1 s t ∧ t.grp b = s.grp b ∧ t.cur = k s.cur :=
  ⟨_, hs.step hexec (.onCur b k s) rfl, (Moved.onCur b k s).grp, (Moved.onCur b k s).cur⟩

end

/-- A command's operands and the progress of its loop (R45). -/
structure Operands where
  idx : BitVec 8
  arg0 : Word
  arg1 : Word
  dbuf : List DWord
  dbufEra : Nat
  addr : Word
  k : Word

/-- The registers that hold them. -/
def Sequencer.operands (q : Sequencer) : Operands :=
  { idx := q.idx, arg0 := q.arg0, arg1 := q.arg1, dbuf := q.dbuf, dbufEra := q.dbufEra, addr := q.addr, k := q.k }

/-! ### The unlock sequence (R141) -/

/-- A group no key lockout holds is unlocked, from UL_READ_CR to the state after the sequence. -/
theorem reach_unlock (hi : i ∈ unlockers b idx) (hs : Steady each b s) (hst : s.cur.state = .ulReadCr)
    (hkey : unlockable (s.grp b)) : ∃ n t q, Reach each i b n s t ∧
      t.grp b = { s.grp b with lock := false, keyState := .k0 } ∧ t.cur = afterUnlock b i q ∧
      q.operands = s.cur.operands := by
  obtain ⟨hread, -, -, -⟩ := unlockSequence s b i idx hi hs.clock
  obtain ⟨t, ht, hgrp, hcur⟩ := hs.onGrp (hread hst) rfl
  cases hl : (s.grp b).lock
  · rw [hl, if_neg Bool.false_ne_true] at hcur
    exact ⟨1, t, { s.cur with crv := crWord s.cfg (s.grp b) }, ht, by rw [hgrp, ← hl],
      by rw [hcur, afterUnlock_apply], rfl⟩
  · rw [hl, if_pos rfl] at hcur
    have htsteady := ht.steady hs
    obtain ⟨-, hkey1, -, -⟩ := unlockSequence t b i idx hi htsteady.clock
    obtain ⟨u, hu, hugrp, hucur⟩ := htsteady.onGrp
      (hkey1 (by rw [hcur]) (by rw [hgrp, hl]) (by rw [hgrp]) (by rw [hgrp]; exact hkey hl)) rfl
    have husteady := hu.steady htsteady
    obtain ⟨-, -, hkey2, -⟩ := unlockSequence u b i idx hi husteady.clock
    obtain ⟨v, hv, hvgrp, hvcur⟩ := husteady.onGrp
      (hkey2 (by rw [hucur]) (by rw [hugrp, hgrp, hl]) (by rw [hugrp])) rfl
    have hvsteady := hv.steady husteady
    obtain ⟨-, -, -, hcheck⟩ := unlockSequence v b i idx hi hvsteady.clock
    obtain ⟨w, hw, hwgrp, hwcur⟩ := hvsteady.onGrp (hcheck (by rw [hvcur])) rfl
    rw [hvgrp, if_neg Bool.false_ne_true, hvcur, hucur, hcur] at hwcur
    exact ⟨_, w, { s.cur with crv := crWord v.cfg (v.grp b) }, ht.trans (hu.trans (hv.trans hw)),
      by rw [hwgrp, hvgrp, hugrp, hgrp], by rw [hwcur, afterUnlock_apply, hvgrp], rfl⟩

/-! ### The flag clear (R161) -/

theorem Group.srWrite_srWrite (c : Config) (v w : Word) (g : Group) :
    (g.srWrite c v).srWrite c w = g.srWrite c (v ||| w) := by
  simp only [Group.srWrite, BitVec.getLsbD_or, Bool.and_assoc, Bool.not_or, Bool.and_or_distrib_left]

theorem Group.srWrite_zero (c : Config) (g : Group) : g.srWrite c 0 = g := by
  simp [Group.srWrite]

/-- Writing the error bits of SR back clears them, and not EOP (R108, R161). -/
theorem Group.srWrite_errors (c : Config) (g : Group) : g.srWrite c (srWord c g &&& 0x0000007C) =
    { g with wrperr := false, sizerr := false, pgserr := false, eccerr := false, bsyerr := false } := by
  obtain ⟨-, -, hwrp, hsiz, hpgs, hecc, hbsy⟩ := srWord_bits c g
  simp only [Group.srWrite, BitVec.getLsbD_and, hwrp, hsiz, hpgs, hecc, hbsy]
  simp

/-- The lowest flag and then the others is all of them. -/
theorem bit_or_clear {v : Word} {k : Nat} (hk : k < 32) (hset : v.getLsbD k = true) :
    1#32 <<< k ||| (v &&& ~~~(1#32 <<< k)) = v := by
  apply BitVec.eq_of_getLsbD_eq
  intro j hj
  rw [BitVec.getLsbD_or, BitVec.getLsbD_and, BitVec.getLsbD_not, bit_getLsbD hk, decide_eq_true hj]
  by_cases h : k = j
  · rw [← h, hset]
    simp
  · simp [h]

/-- FC_CLEAR clears every flag of FCM, from the lowest: those below bit k have been cleared. -/
theorem reach_fcClear (hi : i ∈ [Instr.clearErrors b, .eraseUnit b idx, .eraseBank b, .writeUnit b idx]) {d k : Nat}
    (hd : d + k = 32) (hs : Steady each b s) (hst : s.cur.state = .fcClear) (hkey : (s.grp b).keyState = .k0)
    (hlow : ∀ j, j < k → s.cur.fcm.getLsbD j = false) : ∃ n t q, Reach each i b n s t ∧
      t.grp b = (s.grp b).srWrite s.cfg s.cur.fcm ∧ t.cur = afterFlagClear b i q ∧ q.operands = s.cur.operands := by
  induction d generalizing k s with
  | zero =>
    obtain rfl : k = 32 := by omega
    have hzero : s.cur.fcm = 0 := BitVec.eq_of_getLsbD_eq fun j hj => (hlow j hj).trans BitVec.getLsbD_zero.symm
    have hexec : exec i s = .next (s.onCur (afterFlagClear b i)) := by
      rw [exec_fcClear hi hst, stepFcClear, if_pos hzero]
    obtain ⟨t, ht, hgrp, hcur⟩ := hs.onCur hexec
    exact ⟨1, t, s.cur, ht, by rw [hgrp, hzero, Group.srWrite_zero], hcur, rfl⟩
  | succ d ih =>
    have hk : k < 32 := by omega
    cases hset : s.cur.fcm.getLsbD k
    · refine ih (k := k + 1) (by omega) hs hst hkey fun j hj => ?_
      rcases Nat.lt_succ_iff_lt_or_eq.mp hj with h | rfl
      · exact hlow j h
      · exact hset
    · have hexec : exec i s = .next ((s.onGrp b fun g => g.interleave.srWrite s.cfg (1#32 <<< k)).onCur
          fun q => { q with fcm := q.fcm &&& ~~~(1#32 <<< k) }) := by
        rw [exec_fcClear hi hst, stepFcClear_bit hs.clock hk hset hlow, State.writeSr]
      obtain ⟨t, ht, hgrp, hcur⟩ := hs.onGrp hexec (Group.interleave_inflight _)
      have hgrp : t.grp b = (s.grp b).srWrite s.cfg (1#32 <<< k) := by
        rw [hgrp, Group.interleave_eq, ← hkey]
      have hlow' : ∀ j, j < k + 1 → t.cur.fcm.getLsbD j = false := fun j hj => by
        rw [hcur, BitVec.getLsbD_and, BitVec.getLsbD_not, bit_getLsbD hk]
        rcases Nat.lt_succ_iff_lt_or_eq.mp hj with h | rfl
        · rw [hlow j h, Bool.false_and]
        · simp
      obtain ⟨n, u, q, hu, hugrp, hucur, hq⟩ :=
        ih (k := k + 1) (by omega) (ht.steady hs) (by rw [hcur, hst]) (by rw [hgrp]; exact hkey) hlow'
      refine ⟨1 + n, u, q, ht.trans hu, ?_, hucur, by rw [hq, hcur]; rfl⟩
      rw [hugrp, hgrp, ht.frame.cfg, hcur, Group.srWrite_srWrite, bit_or_clear hk hset]

/-- Every error flag is cleared, from FC_READ_SR to the state after the sequence. -/
theorem reach_flagClear (hi : i ∈ [Instr.clearErrors b, .eraseUnit b idx, .eraseBank b, .writeUnit b idx])
    (hs : Steady each b s) (hst : s.cur.state = .fcReadSr) : ∃ n t q, Reach each i b n s t ∧
      t.grp b = { s.grp b with
        wrperr := false, sizerr := false, pgserr := false, eccerr := false, bsyerr := false, keyState := .k0 } ∧
      t.cur = afterFlagClear b i q ∧ q.operands = s.cur.operands := by
  obtain ⟨hread, -, -⟩ := flagClearSequence s b i idx hi hs.clock
  obtain ⟨t, ht, hgrp, hcur⟩ := hs.onGrp (hread hst) rfl
  obtain ⟨n, u, q, hu, hugrp, hucur, hq⟩ := reach_fcClear hi (Nat.add_zero 32) (ht.steady hs) (by rw [hcur])
    (by rw [hgrp]) (fun j hj => absurd hj (Nat.not_lt_zero j))
  have hsr : srWord s.cfg (s.grp b) = srWord s.cfg (t.grp b) := by
    rw [hgrp]
    exact srWord_congr _ _ _ rfl rfl rfl rfl rfl rfl rfl
  refine ⟨1 + n, u, q, ht.trans hu, ?_, hucur, by rw [hq, hcur]; rfl⟩
  rw [hugrp, ht.frame.cfg, hcur, hsr, Group.srWrite_errors, hgrp]

/-! ### The standard lock and the post-clear (R151, R155, R183) -/

/-- The immediate re-lock: LK_READ_CR and LK_WRITE_CR (R155). -/
theorem reach_lockNow (hi : i ∈ lockers b idx) (hs : Steady each b s) (hst : s.cur.state = .lkReadCr) :
    ∃ t, Reach each i b 2 s t ∧ t.grp b = { s.grp b with
        keyState := .k0, lock := true
        latch := if (s.grp b).lock = false ∧ (s.grp b).inflight = none then none else (s.grp b).latch } ∧
      t.cur.state = .done ∧ t.cur.res = s.cur.res ∧ t.cur.polls = s.cur.polls := by
  obtain ⟨-, -, -, hread, -⟩ := standardLock s b i idx hi hs.clock
  obtain ⟨t, ht, hgrp, hcur⟩ := hs.onGrp (hread hst) rfl
  have htsteady := ht.steady hs
  obtain ⟨-, -, -, -, hwrite⟩ := standardLock t b i idx hi htsteady.clock
  obtain ⟨u, hu, hugrp, hucur⟩ := htsteady.onGrp_drawn
    (hwrite (by rw [hcur]) (by rw [hcur, hgrp, ht.frame.cfg]; rfl)) rfl
  exact ⟨u, ht.trans hu, by rw [hugrp, hgrp], by rw [hucur], by rw [hucur, hcur], by rw [hucur, hcur]⟩

/-- The standard lock of an idle group, from LK_WAIT (R151). -/
theorem reach_lock (hi : i ∈ lockers b idx) (hs : Steady each b s) (hst : s.cur.state = .lkWait)
    (hidle : (s.grp b).inflight = none) :
    ∃ t, Reach each i b 3 s t ∧ t.grp b = { s.grp b with
        keyState := .k0, lock := true, latch := if (s.grp b).lock = false then none else (s.grp b).latch } ∧
      t.cur.state = .done ∧ t.cur.res = s.cur.res := by
  obtain ⟨hwait, -⟩ := standardLock s b i idx hi hs.clock
  obtain ⟨t, ht, hgrp, hcur⟩ := hs.onGrp (hwait hst hidle) rfl
  obtain ⟨u, hu, hugrp, hstate, hres, -⟩ := reach_lockNow hi (ht.steady hs) (by rw [hcur])
  refine ⟨u, ht.trans hu, ?_, hstate, by rw [hres, hcur]⟩
  rw [hugrp, hgrp]
  simp only [hidle, and_true]

/-- CLR_WRITE_CR clears PG, UER and MER, which empties the latch (R183). -/
theorem Group.interleave_crWrite_postClear {g : Group} (hl : g.lock = false) (hi : g.inflight = none) (c : Config)
    (b : Bank) (n : Nat) : g.interleave.crWrite c b n (postClear (crWord c g)) =
      { g with keyState := .k0, pg := false, uer := false, mer := false, latch := none } := by
  obtain ⟨hpg, huer, hmer, hstrt, hbksel, hlock, hunb⟩ := postClear_bits (crWord c g)
  rw [Group.interleave_crWrite_fields hl hi c b n (hstrt.trans (crWord_strt c g)), Group.written_eq, hbksel,
    bksel_of_crWord, hunb, crWord_unb, hlock, crWord_lock]
  simp only [hpg, huer, hmer, hl, true_or, if_true]

theorem exec_clrReadCr (hi : i ∈ mutators b idx) (hc : s.cfg.clockEnabled = true) (hst : s.cur.state = .clrReadCr) :
    exec i s = .next ((s.onGrp b fun g => { g with keyState := .k0 }).onCur fun q =>
      { q with crv := crWord s.cfg (s.grp b), state := .clrWriteCr }) := by
  rw [exec_mutator hi (by rw [hst]; decide), sharedStep, hst]
  exact congrArg _ (seqReadCr_on hc b _)

theorem exec_clrWriteCr (hi : i ∈ mutators b idx) (hc : s.cfg.clockEnabled = true) (hst : s.cur.state = .clrWriteCr)
    (hcrv : s.cur.crv = crWord s.cfg (s.grp b)) (hl : (s.grp b).lock = false) (hidle : (s.grp b).inflight = none) :
    exec i s = .next { (s.onGrp b fun g => { g with
        keyState := .k0, pg := false, uer := false, mer := false, latch := none }).onCur fun q =>
      { q with polls := 0, state := .lkWait } with draws := s.draws + 1 } := by
  rw [exec_mutator hi (by rw [hst]; decide), sharedStep, hst]
  dsimp only
  rw [stepClrWriteCr, hcrv]
  exact congrArg _ (seqWriteCr_on hc (Group.interleave_crWrite_postClear hl hidle _ _ _) _)

/-- The end of every mutating command that got past its start: the post-clear and the standard lock, with the result
kept (R163, R183). -/
theorem reach_postClear (hi : i ∈ mutators b idx) (hs : Steady each b s) (hst : s.cur.state = .clrReadCr)
    (hl : (s.grp b).lock = false) (hidle : (s.grp b).inflight = none) :
    ∃ t, Reach each i b 5 s t ∧ t.grp b = { s.grp b with
        keyState := .k0, pg := false, uer := false, mer := false, latch := none, lock := true } ∧
      t.cur.state = .done ∧ t.cur.res = s.cur.res := by
  obtain ⟨t, ht, hgrp, hcur⟩ := hs.onGrp (exec_clrReadCr hi hs.clock hst) rfl
  have htsteady := ht.steady hs
  have hcrv : t.cur.crv = crWord t.cfg (t.grp b) := by
    rw [hcur, hgrp, ht.frame.cfg]
    rfl
  obtain ⟨u, hu, hugrp, hucur⟩ := htsteady.onGrp_drawn (exec_clrWriteCr hi htsteady.clock (by rw [hcur]) hcrv
    (by rw [hgrp]; exact hl) (by rw [hgrp]; exact hidle)) rfl
  obtain ⟨v, hv, hvgrp, hstate, hres⟩ := reach_lock (locker_of_mutator hi) (hu.steady htsteady) (by rw [hucur])
    (by rw [hugrp, hgrp]; exact hidle)
  refine ⟨v, ht.trans (hu.trans hv), ?_, hstate, by rw [hres, hucur, hcur]⟩
  rw [hvgrp, hugrp, hgrp]
  simp only [hl, if_true]

end Sys2Proof.Machine
end

section
/-! PROOFS. Family other, the commands whole, while no engine completes: UNLOCK, LOCK, CLEAR_ERRORS, the exits of the
mutating commands, and the two commands that only read. -/
namespace Sys2Proof.Machine
variable {each : State → State} {s t u : State} {b : Bank} {i : Instr} {idx : BitVec 8}

/-! ### The first step -/

theorem Ready.steady (h : Ready s b) : Steady id b s := .held h.clock

theorem Ready.decode (h : Ready s b) (idx : BitVec 8) :
    exec (.unlock b) s = .next (s.onCur fun q => { q with opr := 1, bk := b, idx := 0, state := .ulReadCr }) ∧
    exec (.lock b) s =
      .next (s.onCur fun q => { q with opr := 2, bk := b, idx := 0, res := .ok, polls := 0, state := .lkWait }) ∧
    exec (.clearErrors b) s = .next (s.onCur fun q => { q with opr := 3, bk := b, idx := 0, state := .fcReadSr }) ∧
    exec (.eraseUnit b idx) s = .next (s.onCur fun q => { q with opr := 4, bk := b, idx := idx, state := .ulReadCr }) ∧
    exec (.eraseBank b) s = .next (s.onCur fun q => { q with opr := 5, bk := b, idx := 0, state := .ulReadCr }) ∧
    exec (.writeUnit b idx) s = .next (s.onCur fun q => { q with opr := 6, bk := b, idx := idx, state := .ulReadCr }) ∧
    exec (.readUnit b idx) s = .next (s.onCur fun q => { q with opr := 7, bk := b, idx := idx, state := .validate }) ∧
    exec (.unitToAddress b idx) s =
      .next (s.onCur fun q => { q with opr := 8, bk := b, idx := idx, state := .validate }) := by
  have hlegal := h.legal
  simp only [bankLegal, Bool.and_eq_true, List.contains_iff_mem] at hlegal
  exact decodeLoadsTheCommand s b idx h.state hlegal.1 hlegal.2

/-- A command's index, 0 where it takes none (R86). -/
def indexOf (i : Instr) : BitVec 8 :=
  match i with
  | .eraseUnit _ idx | .writeUnit _ idx | .readUnit _ idx | .unitToAddress _ idx => idx
  | _ => 0

/-- The four commands that unlock first enter UL_READ_CR with their index loaded (R242). -/
theorem reach_ulReadCr (hi : i ∈ unlockers b idx) (h : Ready s b) (hs : Steady each b s) :
    ∃ t, Reach each i b 1 s t ∧ t.grp b = s.grp b ∧ t.cur.state = .ulReadCr ∧
      t.cur.operands = { s.cur with idx := indexOf i }.operands := by
  obtain ⟨hunlock, -, -, heraseUnit, heraseBank, hwriteUnit, -, -⟩ := h.decode idx
  have hfirst : ∃ op, exec i s =
      .next (s.onCur fun q => { q with opr := op, bk := b, idx := indexOf i, state := .ulReadCr }) := by
    simp only [unlockers, List.mem_cons, List.not_mem_nil, or_false] at hi
    rcases hi with rfl | rfl | rfl | rfl
    · exact ⟨_, hunlock⟩
    · exact ⟨_, heraseUnit⟩
    · exact ⟨_, heraseBank⟩
    · exact ⟨_, hwriteUnit⟩
  obtain ⟨op, hexec⟩ := hfirst
  obtain ⟨t, ht, hgrp, hcur⟩ := hs.onCur hexec
  exact ⟨t, ht, hgrp, by rw [hcur], by rw [hcur]; rfl⟩

/-! ### UNLOCK, LOCK and CLEAR_ERRORS -/

/-- Settles O34: DECODE, then the unlock sequence. -/
theorem unlockRunsToOk : Obligations.UnlockRunsToOk := by
  intro s b h hkey
  have hi : Instr.unlock b ∈ unlockers b 0 := List.mem_cons_self
  obtain ⟨t, ht, hgrp, hstate, -⟩ := reach_ulReadCr hi h h.steady
  obtain ⟨n, u, q, hu, hugrp, hucur, -⟩ := reach_unlock hi (ht.steady h.steady) hstate (by rwa [hgrp])
  have hrun := ht.trans hu
  rw [afterUnlock_apply, if_pos rfl] at hucur
  exact ⟨_, u, hrun.run, by rw [hucur], by rw [hucur], by rw [hugrp, hgrp], hrun.mem, hrun.marks, hrun.frame⟩

/-- Settles O35: DECODE, then the standard lock. -/
theorem lockRunsToOk : Obligations.LockRunsToOk := by
  intro s b h hidle
  obtain ⟨-, hlock, -⟩ := h.decode 0
  obtain ⟨t, ht, hgrp, hcur⟩ := h.steady.onCur hlock
  obtain ⟨u, hu, hugrp, hstate, hres⟩ := reach_lock (idx := 0) List.mem_cons_self (ht.steady h.steady) (by rw [hcur])
    (by rw [hgrp, hidle])
  have hrun := ht.trans hu
  refine ⟨_, u, hrun.run, hstate, by rw [hres, hcur], ?_, hrun.mem, hrun.marks, hrun.frame⟩
  rw [hugrp, hgrp]
  cases hl : (s.grp b).lock <;> simp

/-- Settles O36: DECODE, then the flag clear. -/
theorem clearErrorsRunsToOk : Obligations.ClearErrorsRunsToOk := by
  intro s b h
  obtain ⟨-, -, hclear, -⟩ := h.decode 0
  obtain ⟨t, ht, hgrp, hcur⟩ := h.steady.onCur hclear
  obtain ⟨n, u, q, hu, hugrp, hucur, -⟩ := reach_flagClear (idx := 0) List.mem_cons_self (ht.steady h.steady) (by rw [hcur])
  have hrun := ht.trans hu
  rw [afterFlagClear_apply, if_pos rfl] at hucur
  exact ⟨_, u, hrun.run, by rw [hucur], by rw [hucur], by rw [hugrp, hgrp], hrun.mem, hrun.marks, hrun.frame⟩

/-! ### The mutating commands up to their busy check (R141, R240) -/

theorem ne_unlock_of_mutator (hi : i ∈ mutators b idx) : i ≠ .unlock b := by
  rintro rfl
  simp [mutators] at hi

/-- A mutating command reaches BUSY_CHECK with its group unlocked. -/
theorem reach_busyCheck (hi : i ∈ mutators b idx) (h : Ready s b) (hs : Steady each b s) (hkey : unlockable (s.grp b)) :
    ∃ n t, Reach each i b n s t ∧ t.grp b = { s.grp b with lock := false, keyState := .k0 } ∧
      t.cur.state = .busyCheck ∧ t.cur.operands = { s.cur with idx := indexOf i }.operands := by
  have hi' := unlocker_of_mutator hi
  obtain ⟨t, ht, hgrp, hstate, hops⟩ := reach_ulReadCr hi' h hs
  obtain ⟨n, u, q, hu, hugrp, hucur, hq⟩ := reach_unlock hi' (ht.steady hs) hstate (by rwa [hgrp])
  rw [afterUnlock_apply, if_neg (ne_unlock_of_mutator hi)] at hucur
  exact ⟨_, u, ht.trans hu, by rw [hugrp, hgrp], by rw [hucur], by rw [hucur, ← hops, ← hq]; rfl⟩

/-- On an idle bank it goes on with every error flag cleared (R161, R240). -/
theorem reach_afterFlagClear (hi : i ∈ mutators b idx) (h : Ready s b) (hs : Steady each b s)
    (hkey : unlockable (s.grp b)) (hidle : (s.grp b).inflight = none) :
    ∃ n t q, Reach each i b n s t ∧ t.grp b = { s.grp b with
        lock := false, keyState := .k0
        wrperr := false, sizerr := false, pgserr := false, eccerr := false, bsyerr := false } ∧
      t.cur = afterFlagClear b i q ∧ q.operands = { s.cur with idx := indexOf i }.operands := by
  obtain ⟨n, t, ht, hgrp, hstate, hops⟩ := reach_busyCheck hi h hs hkey
  have htsteady := ht.steady hs
  have htidle : (t.grp b).inflight = none := by rw [hgrp, hidle]
  obtain ⟨hcheck, -⟩ := busyCheckAndPostCheck t b i idx hi htsteady.clock
  obtain ⟨u, hu, hugrp, hucur⟩ := htsteady.onGrp (hcheck hstate) rfl
  rw [if_neg (not_not.mpr htidle)] at hucur
  obtain ⟨m, v, q, hv, hvgrp, hvcur, hq⟩ := reach_flagClear (idx := idx) (List.mem_cons_of_mem _ hi) (hu.steady htsteady)
    (by rw [hucur])
  refine ⟨_, v, q, ht.trans (hu.trans hv), by rw [hvgrp, hugrp, hgrp], hvcur, ?_⟩
  rw [hq, hucur, ← hops]
  rfl

/-! ### The exits -/

/-- Settles O42: BUSY_CHECK finds the operation and leaves for the immediate re-lock. -/
theorem busyExitLocksAndChangesNothingElse : Obligations.BusyExitLocksAndChangesNothingElse := by
  intro s b i idx hi h hkey hbusy
  obtain ⟨n, t, ht, hgrp, hstate, -⟩ := reach_busyCheck hi h h.steady hkey
  have htsteady := ht.steady h.steady
  have htbusy : (t.grp b).inflight ≠ none := by rw [hgrp]; exact hbusy
  obtain ⟨hcheck, -⟩ := busyCheckAndPostCheck t b i idx hi htsteady.clock
  obtain ⟨u, hu, hugrp, hucur⟩ := htsteady.onGrp (hcheck hstate) rfl
  rw [if_pos htbusy] at hucur
  obtain ⟨v, hv, hvgrp, hvstate, hres, -⟩ := reach_lockNow (locker_of_mutator hi) (hu.steady htsteady) (by rw [hucur])
  have hrun := ht.trans (hu.trans hv)
  refine ⟨_, v, hrun.run, hvstate, by rw [hres, hucur], ?_, hrun.mem, hrun.marks, hrun.frame⟩
  rw [hvgrp, hugrp, hgrp, if_neg fun hn => hbusy hn.2]

/-- Settles O43: POST_CHECK leaves for the post-clear with FAILURE. -/
theorem failureExitLocksAndKeepsTheFlags : Obligations.FailureExitLocksAndKeepsTheFlags := by
  intro s b i idx hi hc hst herr hl hidle
  have hs : Steady id b s := .held hc
  obtain ⟨-, hpost⟩ := busyCheckAndPostCheck s b i idx hi hc
  obtain ⟨t, ht, hgrp, hcur⟩ := hs.onCur (hpost hst)
  rw [if_pos herr] at hcur
  obtain ⟨u, hu, hugrp, hstate, hres⟩ := reach_postClear hi (ht.steady hs) (by rw [hcur]) (by rw [hgrp, hl])
    (by rw [hgrp, hidle])
  have hrun := ht.trans hu
  exact ⟨u, hrun.run, hstate, by rw [hres, hcur], by rw [hugrp, hgrp], hrun.mem, hrun.marks, hrun.frame⟩

/-- VALIDATE of a command whose index or length is out of range (R179, R201). -/
theorem exec_outOfRange (hb : s.cfg.hasBank b = true) (hw : s.cfg.wf = true) (hc : s.cfg.clockEnabled = true)
    (hst : s.cur.state = .validate)
    (hi : i = .eraseUnit b idx ∧ s.cfg.unitCount ≤ s.cur.idx.toNat ∨
      i = .writeUnit b idx ∧ (s.cfg.unitCount ≤ s.cur.idx.toNat ∨ s.cfg.unitSize < 8 * s.cur.arg1.toNat)) :
    exec i s = .next (s.onCur fun q => { q with res := .pageOutOfRange, polls := 0, state := .lkWait }) := by
  rcases hi with ⟨rfl, hrange⟩ | ⟨rfl, hrange⟩
  · simp only [exec, execEraseUnit, hst]
    exact congrArg _ (onCur_congr (if_pos hrange))
  · obtain ⟨hvalidate, -⟩ := programConfigureAndPair s b idx hw hc
    obtain ⟨a, hexec, -⟩ := hvalidate hst hb
    rw [hexec]
    exact congrArg _ (onCur_congr (if_pos hrange))

/-- Settles O44: VALIDATE leaves for the standard lock with PAGE_OUT_OF_RANGE. -/
theorem outOfRangeArmsNothing : Obligations.OutOfRangeArmsNothing := by
  intro s b i idx h hkey hidle hi
  have hmutator : i ∈ mutators b idx := by
    rcases hi with ⟨rfl, -⟩ | ⟨rfl, -⟩ <;> simp [mutators]
  obtain ⟨n, t, q, ht, hgrp, hcur, hops⟩ := reach_afterFlagClear hmutator h h.steady hkey hidle
  have hvalidate : t.cur = { q with state := .validate } := by
    rw [hcur, afterFlagClear_apply]
    rcases hi with ⟨rfl, -⟩ | ⟨rfl, -⟩ <;> simp
  have hidx : q.idx = indexOf i := congrArg Operands.idx hops
  have harg1 : q.arg1 = s.cur.arg1 := congrArg Operands.arg1 hops
  have hbank : t.cfg.hasBank b = true := by
    rw [ht.frame.cfg]
    exact bankLegal_has h.legal
  have hrange : i = .eraseUnit b idx ∧ t.cfg.unitCount ≤ t.cur.idx.toNat ∨
      i = .writeUnit b idx ∧ (t.cfg.unitCount ≤ t.cur.idx.toNat ∨ t.cfg.unitSize < 8 * t.cur.arg1.toNat) := by
    rw [hvalidate, ht.frame.cfg, hidx, harg1]
    rcases hi with ⟨rfl, h⟩ | ⟨rfl, h⟩
    · exact .inl ⟨rfl, h⟩
    · exact .inr ⟨rfl, h⟩
  have htsteady := ht.steady h.steady
  obtain ⟨u, hu, hugrp, hucur⟩ := htsteady.onCur (exec_outOfRange hbank (by rw [ht.frame.cfg]; exact h.config)
    htsteady.clock (by rw [hvalidate]) hrange)
  obtain ⟨v, hv, hvgrp, hstate, hres⟩ := reach_lock (locker_of_mutator hmutator) (hu.steady htsteady) (by rw [hucur])
    (by rw [hugrp, hgrp, hidle])
  have hrun := ht.trans (hu.trans hv)
  refine ⟨_, v, hrun.run, hstate, by rw [hres, hucur], ?_, hrun.mem, hrun.marks, hrun.frame⟩
  rw [hvgrp, hugrp, hgrp]
  simp only [if_true]

/-! ### A lockout (R176) -/

/-- Under a key lockout a KEYR write changes nothing (R105). -/
theorem Group.keyWrite_lockout {g : Group} (hl : g.lock = true) (hk : g.keyState = .k0) (ho : g.keyLockout = true)
    (c : Config) (v : Word) : g.keyWrite c v = g := by
  simp [Group.keyWrite, hl, hk, ho]

section
variable (hi : i ∈ unlockers b idx) (hc : s.cfg.clockEnabled = true) (hl : (s.grp b).lock = true)
  (hk : (s.grp b).keyState = .k0) (ho : (s.grp b).keyLockout = true)
include hi hc hl hk ho

theorem exec_ulKey1_lockout (hst : s.cur.state = .ulKey1) :
    exec i s = .next ((s.onGrp b id).onCur fun q => { q with state := .ulKey2 }) := by
  rw [exec_unlocker hi (by rw [hst]; decide), sharedStep, hst]
  exact congrArg _ (seqWriteKeyr_on hc (Group.keyWrite_lockout hl hk ho _ _) _)

theorem exec_ulKey2_lockout (hst : s.cur.state = .ulKey2) :
    exec i s = .next ((s.onGrp b id).onCur fun q => { q with state := .ulCheck }) := by
  rw [exec_unlocker hi (by rw [hst]; decide), sharedStep, hst]
  exact congrArg _ (seqWriteKeyr_on hc (Group.keyWrite_lockout hl hk ho _ _) _)

end

/-- Settles O45: the key words are ignored, and UL_CHECK reads LOCK = 1. -/
theorem unlockFailureTouchesNothing : Obligations.UnlockFailureTouchesNothing := by
  intro s b i idx hi h hl ho
  obtain ⟨s₁, h₁, hgrp₁, hstate₁, -⟩ := reach_ulReadCr hi h h.steady
  have hs₁ := h₁.steady h.steady
  obtain ⟨hread, -, -, -⟩ := unlockSequence s₁ b i idx hi hs₁.clock
  obtain ⟨s₂, h₂, hgrp₂, hcur₂⟩ := hs₁.onGrp (hread hstate₁) rfl
  rw [if_pos (by rw [hgrp₁, hl])] at hcur₂
  have hs₂ := h₂.steady hs₁
  obtain ⟨s₃, h₃, hgrp₃, hcur₃⟩ := hs₂.onGrp (exec_ulKey1_lockout hi hs₂.clock (by rw [hgrp₂, hgrp₁, hl])
    (by rw [hgrp₂]) (by rw [hgrp₂, hgrp₁, ho]) (by rw [hcur₂])) rfl
  have hgrp₃ : s₃.grp b = { s.grp b with keyState := .k0 } := by rw [hgrp₃, hgrp₂, hgrp₁]; rfl
  have hs₃ := h₃.steady hs₂
  obtain ⟨s₄, h₄, hgrp₄, hcur₄⟩ := hs₃.onGrp (exec_ulKey2_lockout hi hs₃.clock (by rw [hgrp₃, hl])
    (by rw [hgrp₃]) (by rw [hgrp₃, ho]) (by rw [hcur₃])) rfl
  have hgrp₄ : s₄.grp b = { s.grp b with keyState := .k0 } := by rw [hgrp₄, hgrp₃]; rfl
  have hs₄ := h₄.steady hs₃
  obtain ⟨-, -, -, hcheck⟩ := unlockSequence s₄ b i idx hi hs₄.clock
  obtain ⟨s₅, h₅, hgrp₅, hcur₅⟩ := hs₄.onGrp (hcheck (by rw [hcur₄])) rfl
  rw [if_pos (by rw [hgrp₄, hl])] at hcur₅
  have hrun := h₁.trans (h₂.trans (h₃.trans (h₄.trans h₅)))
  exact ⟨s₅, hrun.run, by rw [hcur₅], by rw [hcur₅], by rw [hgrp₅, hgrp₄], hrun.mem, hrun.marks, hrun.frame⟩

end Sys2Proof.Machine
end

section
/-! PROOFS. Family other, commands whole while no engine completes: the wait that spends its budget (R244), and the two
commands that only read (R221, R223). -/
namespace Sys2Proof.Machine
variable {each : State → State} {s t u : State} {b : Bank} {i : Instr} {idx : BitVec 8}

/-! ### The poll budget (R244) -/

/-- A WAIT_BSY with m reads left of its budget leaves with TIMEOUT after them. -/
theorem reach_timeout (hi : i ∈ mutators b idx) {n m : Nat} (hbudget : s.cfg.pollBudget = some n)
    (hm : s.cur.polls + (m + 1) = n) (hs : Steady each b s) (hst : s.cur.state = .waitBsy)
    (hbusy : (s.grp b).inflight ≠ none) : ∃ t, Reach each i b (m + 1) s t ∧
      t.grp b = { s.grp b with keyState := .k0 } ∧ t.cur.state = .lkReadCr ∧ t.cur.res = .timeout ∧ t.cur.polls = n := by
  induction m generalizing s with
  | zero =>
    obtain ⟨-, hspent, -⟩ := waitLoops s b i idx hi hs.clock
    obtain ⟨t, ht, hgrp, hcur⟩ := hs.onGrp (hspent hst hbusy ⟨n, hbudget, by omega⟩) rfl
    exact ⟨t, ht, hgrp, by rw [hcur], by rw [hcur], by rw [hcur]; exact hm⟩
  | succ m ih =>
    obtain ⟨-, -, hagain, -⟩ := waitLoops s b i idx hi hs.clock
    have hleft : ∀ k, s.cfg.pollBudget = some k → s.cur.polls + 1 < k := fun k hk => by
      obtain rfl : n = k := Option.some.inj (hbudget.symm.trans hk)
      omega
    obtain ⟨t, ht, hgrp, hcur⟩ := hs.onGrp (hagain hst hbusy hleft) rfl
    obtain ⟨u, hu, hugrp, hstate, hres, hpolls⟩ := ih (by rw [ht.frame.cfg, hbudget])
      (by rw [hcur]; dsimp only; omega) (ht.steady hs) (by rw [hcur, hst]) (by rw [hgrp]; exact hbusy)
    exact ⟨u, Nat.add_comm 1 (m + 1) ▸ ht.trans hu, by rw [hugrp, hgrp], hstate, hres, hpolls⟩

/-- Settles O58: n reads, the last with TIMEOUT, and the immediate re-lock. -/
theorem budgetEndsAHeldWait : Obligations.BudgetEndsAHeldWait := by
  intro s b i idx n hi hc hbudget hpos hst hpolls hbusy
  have hs : Steady id b s := .held hc
  obtain ⟨m, rfl⟩ := Nat.exists_eq_succ_of_ne_zero hpos.ne'
  obtain ⟨t, ht, hgrp, hstate, hres, hp⟩ := reach_timeout hi hbudget (by rw [hpolls, Nat.zero_add]) hs hst hbusy
  obtain ⟨u, hu, hugrp, hudone, hures, hupolls⟩ := reach_lockNow (locker_of_mutator hi) (ht.steady hs) hstate
  have hrun := ht.trans hu
  refine ⟨u, hrun.run, hudone, by rw [hures, hres], by rw [hupolls, hp], ?_, hrun.mem, hrun.marks, hrun.frame⟩
  rw [hugrp, hgrp, if_neg fun hn => hbusy hn.2]

/-! ### UNIT_TO_ADDRESS (R221) -/

/-- Settles O41: DECODE and VALIDATE, neither of which makes a bus access. -/
theorem unitToAddressRunsToItsResult : Obligations.UnitToAddressRunsToItsResult := by
  intro s b idx h
  obtain ⟨-, -, -, -, -, -, -, hdecode⟩ := h.decode idx
  have hfirst := h.steady.step hdecode (.onCur b _ s) rfl
  obtain ⟨hvalidate, -⟩ := translateAndReadSteps _ b idx (by rw [hfirst.frame.cfg]; exact h.config)
    (by rw [hfirst.frame.cfg]; exact bankLegal_has h.legal)
  obtain ⟨a, hexec, ha⟩ := hvalidate (by rw [onCur_cur])
  have hrun := hfirst.trans ((hfirst.steady h.steady).step hexec (.onCur b _ _) rfl)
  simp only [onCur_cur, onCur_cfg] at ha
  refine ⟨_, hrun.run, ?_, fun hu => ?_, fun hu => ?_, by rw [onCur_grp, onCur_grp], hrun.mem, hrun.marks,
    by rw [onCur_draws, onCur_draws], hrun.frame⟩
  · simp only [onCur_cur]
    split_ifs <;> rfl
  · simp only [onCur_cur, onCur_cfg, if_neg (Nat.not_le.mpr hu)]
    exact ⟨trivial, ha hu⟩
  · simp only [onCur_cur, onCur_cfg, if_pos hu]
    exact ⟨trivial, trivial⟩

/-! ### READ_UNIT (R223) -/

/-- RD_BYTE of an idle bank: a byte goes to RBUF[K], the stored one unless its double-word is faulty (R121, R223). -/
theorem reach_byte (hw : s.cfg.wf = true) (hb : s.cfg.hasBank b = true) (hs : Steady each b s)
    (hst : s.cur.state = .rdByte) (ha : s.cfg.inFlash b s.cur.addr.toNat = true) (hidle : (s.grp b).inflight = none) :
    ∃ t l, Reach each (.readUnit b idx) b 1 s t ∧
      t.cur = (if (s.cur.k + 1).toNat < s.cur.arg1.toNat then
          { s.cur with rbuf := l, addr := s.cur.addr + 1, k := s.cur.k + 1 }
        else { s.cur with rbuf := l, addr := s.cur.addr + 1, k := s.cur.k + 1, res := .ok, state := .done }) ∧
      (∀ j, j ≠ s.cur.k.toNat → bufferRead l s.cur.rbufEra j = s.cur.rbyte j) ∧
      (s.cur.addr.toNat / 8 * 8 ∉ s.cfg.eccFaulty →
        bufferRead l s.cur.rbufEra s.cur.k.toNat = s.mem.read s.cur.addr.toNat ∧ t.grp b = s.grp b) ∧
      (s.cur.addr.toNat / 8 * 8 ∈ s.cfg.eccFaulty → t.grp b = { s.grp b with eccerr := true }) := by
  obtain ⟨-, -, hbyte⟩ := translateAndReadSteps s b idx hw hb
  obtain ⟨-, hstored, hfaulty⟩ := hbyte hst hs.clock ha
  by_cases hecc : s.cur.addr.toNat / 8 * 8 ∈ s.cfg.eccFaulty
  · obtain ⟨l, hexec, hothers⟩ := hfaulty hidle hecc
    obtain ⟨t, ht, hgrp, hcur⟩ := hs.onGrp_drawn hexec rfl
    exact ⟨t, l, ht, hcur, hothers, fun h => absurd hecc h, fun _ => hgrp⟩
  · obtain ⟨l, hexec, hread, hothers⟩ := hstored hidle hecc
    obtain ⟨t, ht, hgrp, hcur⟩ := hs.onCur hexec
    exact ⟨t, l, ht, hcur, hothers, fun _ => ⟨hread, hgrp⟩, fun h => absurd h hecc⟩

/-- The bytes from RBUF[K] on have been read, from `base + K` on, and the command has ended. -/
structure BytesRead (b : Bank) (base : Nat) (s t : State) : Prop where
  state : t.cur.state = .done
  res : t.cur.res = .ok
  earlier : ∀ j, j < s.cur.k.toNat → t.cur.rbyte j = s.cur.rbyte j
  stored : ∀ j, s.cur.k.toNat ≤ j → j < s.cur.arg1.toNat → (base + j) / 8 * 8 ∉ s.cfg.eccFaulty →
    t.cur.rbyte j = s.mem.read (base + j)
  faulty : (∃ j, s.cur.k.toNat ≤ j ∧ j < s.cur.arg1.toNat ∧ (base + j) / 8 * 8 ∈ s.cfg.eccFaulty) →
    t.grp b = { s.grp b with eccerr := true }
  clean : (∀ j, s.cur.k.toNat ≤ j → j < s.cur.arg1.toNat → (base + j) / 8 * 8 ∉ s.cfg.eccFaulty) → t.grp b = s.grp b

theorem succ_toNat_of_lt {k n : Word} (h : k.toNat < n.toNat) : (k + 1).toNat = k.toNat + 1 := by
  have := n.isLt
  rw [BitVec.toNat_add, show (1 : Word).toNat = 1 from rfl]
  exact Nat.mod_eq_of_lt (by omega)

/-- READ_UNIT stands at RD_BYTE with m + 1 bytes to read of an idle bank, byte j of them at `base + j`. -/
structure ReadsAt (b : Bank) (base m : Nat) (s : State) : Prop where
  config : s.cfg.wf = true
  bank : s.cfg.hasBank b = true
  state : s.cur.state = .rdByte
  idle : (s.grp b).inflight = none
  left : s.cur.k.toNat + (m + 1) = s.cur.arg1.toNat
  addr : s.cur.addr.toNat = base + s.cur.k.toNat
  fits : base + s.cur.arg1.toNat ≤ 2 ^ 32
  flash : ∀ j, j < s.cur.arg1.toNat → s.cfg.inFlash b (base + j) = true

/-- RD_BYTE until K reaches ARG1. -/
theorem reach_bytes {base m : Nat} (hs : Steady each b s) (h : ReadsAt b base m s) :
    ∃ t, Reach each (.readUnit b idx) b (m + 1) s t ∧ BytesRead b base s t := by
  induction m generalizing s with
  | zero =>
    obtain ⟨hw, hb, hst, hidle, hleft, haddr, hfits, hflash⟩ := h
    have hk : s.cur.k.toNat < s.cur.arg1.toNat := by omega
    obtain ⟨t, l, ht, hcur, hothers, hclean, hfaulty⟩ :=
      reach_byte (idx := idx) hw hb hs hst (by rw [haddr]; exact hflash _ hk) hidle
    rw [succ_toNat_of_lt hk, if_neg (by omega)] at hcur
    rw [haddr] at hclean hfaulty
    have hlast : ∀ j, s.cur.k.toNat ≤ j → j < s.cur.arg1.toNat → j = s.cur.k.toNat := fun j h1 h2 => by omega
    refine ⟨t, ht, by rw [hcur], by rw [hcur], fun j hj => ?_, fun j h1 h2 hj => ?_, fun ⟨j, h1, h2, hj⟩ => ?_,
      fun h => (hclean (h _ le_rfl hk)).2⟩
    · rw [Sequencer.rbyte, hcur]
      exact hothers j hj.ne
    · obtain rfl := hlast j h1 h2
      rw [Sequencer.rbyte, hcur]
      exact (hclean hj).1
    · obtain rfl := hlast j h1 h2
      exact hfaulty hj
  | succ m ih =>
    obtain ⟨hw, hb, hst, hidle, hleft, haddr, hfits, hflash⟩ := h
    have hk : s.cur.k.toNat < s.cur.arg1.toNat := by omega
    have hk1 := succ_toNat_of_lt hk
    obtain ⟨t, l, ht, hcur, hothers, hclean, hfaulty⟩ :=
      reach_byte (idx := idx) hw hb hs hst (by rw [haddr]; exact hflash _ hk) hidle
    rw [hk1, if_pos (by omega)] at hcur
    rw [haddr] at hclean hfaulty
    have htk : t.cur.k.toNat = s.cur.k.toNat + 1 := by rw [hcur]; exact hk1
    have htarg : t.cur.arg1 = s.cur.arg1 := by rw [hcur]
    have haddr1 : (s.cur.addr + 1).toNat = s.cur.addr.toNat + 1 := by
      rw [BitVec.toNat_add, show (1 : Word).toNat = 1 from rfl]
      exact Nat.mod_eq_of_lt (by omega)
    have htaddr : t.cur.addr.toNat = base + t.cur.k.toNat := by
      rw [htk, ← Nat.add_assoc, ← haddr, ← haddr1, hcur]
    have hother : ∀ j, j ≠ s.cur.k.toNat → t.cur.rbyte j = s.cur.rbyte j := fun j hj => by
      rw [Sequencer.rbyte, hcur]
      exact hothers j hj
    obtain ⟨u, hu, hstate, hres, hearlier, hstored, hufaulty, huclean⟩ := ih (ht.steady hs)
      ⟨by rw [ht.frame.cfg, hw], by rw [ht.frame.cfg, hb], by rw [hcur, hst], ht.inflight.trans hidle,
        by rw [htk, htarg]; omega, htaddr, by rw [htarg]; exact hfits, by rw [htarg, ht.frame.cfg]; exact hflash⟩
    rw [htk] at hearlier hstored hufaulty huclean
    rw [htarg, ht.frame.cfg] at hstored hufaulty huclean
    rw [ht.mem] at hstored
    refine ⟨u, Nat.add_comm 1 (m + 1) ▸ ht.trans hu, hstate, hres, fun j hj => ?_, fun j h1 h2 hj => ?_,
      fun ⟨j, h1, h2, hj⟩ => ?_, fun h => ?_⟩
    · rw [hearlier j (by omega), hother j hj.ne]
    · rcases Nat.eq_or_lt_of_le h1 with rfl | h1
      · rw [hearlier _ (Nat.lt_succ_self _), Sequencer.rbyte, hcur]
        exact (hclean hj).1
      · exact hstored j h1 h2 hj
    · by_cases hlater : ∃ j, s.cur.k.toNat + 1 ≤ j ∧ j < s.cur.arg1.toNat ∧ (base + j) / 8 * 8 ∈ s.cfg.eccFaulty
      · rw [hufaulty hlater]
        by_cases hnow : (base + s.cur.k.toNat) / 8 * 8 ∈ s.cfg.eccFaulty
        · rw [hfaulty hnow]
        · rw [(hclean hnow).2]
      · rw [huclean fun j h1 h2 hj => hlater ⟨j, h1, h2, hj⟩]
        rcases Nat.eq_or_lt_of_le h1 with rfl | h1
        · exact hfaulty hj
        · exact absurd ⟨j, h1, h2, hj⟩ hlater
    · rw [huclean fun j h1 h2 => h j (by omega) h2, (hclean (h _ le_rfl hk)).2]

/-- Settles O40: DECODE, VALIDATE, and RD_BYTE for every byte asked for. -/
theorem readUnitRunsToOk : Obligations.ReadUnitRunsToOk := by
  intro s b idx h hidle hu hsize
  obtain ⟨-, -, -, -, -, -, hdecode, -⟩ := h.decode idx
  obtain ⟨t, ht, hgrp, hcur⟩ := h.steady.onCur hdecode
  have hbank := bankLegal_has h.legal
  have htsteady := ht.steady h.steady
  have htw : t.cfg.wf = true := by rw [ht.frame.cfg, h.config]
  have htb : t.cfg.hasBank b = true := by rw [ht.frame.cfg, hbank]
  obtain ⟨-, hvalidate, -⟩ := translateAndReadSteps t b idx htw htb
  obtain ⟨a, hexec, ha⟩ := hvalidate (by rw [hcur])
  obtain ⟨v, hv, hvgrp, hvcur⟩ := htsteady.onCur hexec
  rw [hcur, ht.frame.cfg, if_neg (not_or.mpr ⟨Nat.not_le.mpr hu, Nat.not_lt.mpr hsize⟩)] at hvcur
  rw [hcur, ht.frame.cfg] at ha
  have hrun := ht.trans hv
  by_cases hzero : s.cur.arg1 = 0
  · have hnone : ∀ k, ¬k < s.cur.arg1.toNat := fun k hk => by simp [hzero] at hk
    rw [if_pos hzero] at hvcur
    exact ⟨_, v, hrun.run, by rw [hvcur], by rw [hvcur], fun k hk => absurd hk (hnone k),
      fun ⟨k, hk, _⟩ => absurd hk (hnone k), fun _ => hvgrp.trans hgrp, hrun.mem, hrun.marks, hrun.frame⟩
  · rw [if_neg hzero] at hvcur
    have ha := ha hu hsize hzero
    obtain ⟨m, hm⟩ := Nat.exists_eq_succ_of_ne_zero fun hn => hzero (BitVec.eq_of_toNat_eq hn)
    have hcfg : v.cfg = s.cfg := hrun.frame.cfg
    have hk : v.cur.k.toNat = 0 := by rw [hvcur]; rfl
    have harg : v.cur.arg1 = s.cur.arg1 := by rw [hvcur]
    have hfits := unit_fits h.config hbank hu
    obtain ⟨w, hw, hstate, hres, -, hstored, hfaulty, hclean⟩ := reach_bytes (idx := idx) (hv.steady htsteady)
      (base := s.cfg.unitToAddress idx.toNat b + s.cur.arg0.toNat) (m := m)
      ⟨by rw [hcfg, h.config], by rw [hcfg, hbank], by rw [hvcur], by rw [hvgrp, hgrp, hidle],
        by rw [hk, harg, hm, Nat.zero_add], by rw [hk, hvcur]; exact ha, by rw [harg]; omega,
        fun j hj => by
          rw [harg] at hj
          rw [hcfg, Nat.add_assoc]
          exact (Config.inUnit hbank hu (by omega)).1⟩
    rw [hk, harg, hcfg] at hstored hfaulty hclean
    rw [hvgrp, hgrp] at hfaulty hclean
    have hrun := hrun.trans hw
    refine ⟨_, w, hrun.run, hstate, hres, fun k hk hecc => ?_,
      fun ⟨k, hk, hecc⟩ => hfaulty ⟨k, Nat.zero_le _, hk, hecc⟩, fun hnone => hclean fun k _ => hnone k, hrun.mem, hrun.marks, hrun.frame⟩
    rw [hstored k (Nat.zero_le _) hk hecc, hv.mem, ht.mem]
    rfl

end Sys2Proof.Machine
end

section
/-! PROOFS. Family other, the erases whole under the prompt schedule (R175, R185): the engine completes right after the step
that starts the operation. -/
namespace Sys2Proof.Machine
variable {each : State → State} {s t u : State} {b : Bank} {i : Instr} {idx : BitVec 8}

/-! ### A completion step between two steps of the command -/

theorem engineStep_onlyCommand (s : State) (b : Bank) :
    OnlyCommand b s (s.engineStep b) ∧ (s.engineStep b).cur = s.cur := by
  obtain ⟨hcfg, hq1, hq2, hp1, hp2, hbus, hmasters, hmark, hturn, hsched, hgroup, -⟩ := engineStep_frame s b
  have hseq : ∀ n, (s.engineStep b).seq n = s.seq n := fun n => by
    cases n
    · exact hq1
    · exact hq2
  refine ⟨⟨hcfg, hgroup, fun n _ => hseq n, hp1, hp2, hbus, hmasters, hmark, hturn, hsched⟩, ?_⟩
  rw [State.cur, hturn, hseq, State.cur]

/-- With the other bank idle the prompt schedule completes bank b's operation and nothing else. -/
theorem settle_one (h : ∀ d, d ≠ b → (s.grp d).inflight = none) : settle s = s.engineStep b := by
  obtain ⟨hframe, -⟩ := engineStep_onlyCommand s b
  cases b with
  | b1 =>
    have hother : (Bank.b2 : Bank) ≠ .b1 := by decide
    exact engineStep_idle (by rw [hframe.group _ hother, h _ hother])
  | b2 => rw [settle, engineStep_idle (h .b1 (by decide))]

theorem Ran.enginesIdle {n : Nat} (h : Ran each i b n s t) (hidle : enginesIdle s) (ht : (t.grp b).inflight = none) :
    enginesIdle t := by
  rw [enginesIdle_iff] at hidle ⊢
  intro d
  by_cases hd : d = b
  · rw [hd, ht]
  · rw [h.frame.group d hd, hidle]

/-- A step that starts an operation, and the completion of it. -/
theorem ran_settle {f : Group → Group} {k : Sequencer → Sequencer} (hidle : enginesIdle s)
    (hexec : exec i s = .next { (s.onGrp b f).onCur k with draws := s.draws + 1 }) :
    ∃ u, Moved b f k s u ∧ Ran settle i b 1 s (u.engineStep b) ∧ (u.engineStep b).cur = k s.cur := by
  have hm := Moved.onGrp_drawn b f k s
  refine ⟨_, hm, ?_⟩
  generalize { (s.onGrp b f).onCur k with draws := s.draws + 1 } = u at hexec hm
  rw [enginesIdle_iff] at hidle
  obtain ⟨hframe, hcur⟩ := engineStep_onlyCommand u b
  have hsettle : settle u = u.engineStep b := settle_one fun d hd => by rw [hm.frame.group d hd, hidle]
  have hran : Ran settle i b 1 s (settle u) := Ran.one hexec (by rw [hsettle]; exact hm.frame.trans hframe)
  rw [hsettle] at hran
  exact ⟨hran, hcur.trans hm.cur⟩

theorem eraseDone_grp (s : State) (b : Bank) (lo n : Nat) : (s.eraseDone b lo n).grp b = (s.grp b).complete s.cfg := by
  rw [State.eraseDone, onGrp_grp_same]
  cases b <;> rfl

/-! ### From WAIT_BSY to AFTER_OP (R162, R182) -/

/-- After an operation that raised no flag, a mutating command comes to AFTER_OP with EOP acknowledged. -/
theorem reach_afterOp (hi : i ∈ mutators b idx) (hs : Steady each b s) (hst : s.cur.state = .waitBsy)
    (hidle : (s.grp b).inflight = none) (hpend : (s.grp b).errorPending = false)
    (heop : s.cfg.hasEop = true → (s.grp b).eop = true) : ∃ n t q, Reach each i b n s t ∧
      t.grp b = { s.grp b with keyState := .k0, eop := (s.grp b).eop && !s.cfg.hasEop } ∧ t.cur = afterOp b idx i q ∧
      q.operands = s.cur.operands := by
  obtain ⟨hready, -⟩ := waitLoops s b i idx hi hs.clock
  obtain ⟨t, ht, hgrp, hcur⟩ := hs.onGrp (hready hst hidle) rfl
  have htsteady := ht.steady hs
  obtain ⟨-, hpost⟩ := busyCheckAndPostCheck t b i idx hi htsteady.clock
  obtain ⟨u, hu, hugrp, hucur⟩ := htsteady.onCur (hpost (by rw [hcur]))
  have hclean : ¬t.cur.srv &&& 0x0000007C ≠ 0 := by
    rw [hcur, not_not]
    exact (srWord_errMask _ _).mpr hpend
  rw [if_neg hclean] at hucur
  cases hhas : s.cfg.hasEop
  · rw [ht.frame.cfg, hhas, if_neg Bool.false_ne_true, ← afterOp_apply] at hucur
    exact ⟨_, u, t.cur, ht.trans hu, by rw [hugrp, hgrp, Bool.not_false, Bool.and_true], hucur, by rw [hcur]; rfl⟩
  · rw [ht.frame.cfg, hhas, if_pos rfl] at hucur
    have husteady := hu.steady htsteady
    have hucfg : u.cfg.hasEop = true := by rw [hu.frame.cfg, ht.frame.cfg, hhas]
    obtain ⟨-, -, -, hset, -⟩ := waitLoops u b i idx hi husteady.clock
    obtain ⟨v, hv, hvgrp, hvcur⟩ := husteady.onGrp
      (hset (by rw [hucur]) hucfg (by rw [hugrp, hgrp]; exact heop hhas)) rfl
    have hvsteady := hv.steady husteady
    obtain ⟨-, -, -, -, -, -, hack⟩ := waitLoops v b i idx hi hvsteady.clock
    obtain ⟨w, hw, hwgrp, hwcur⟩ := hvsteady.onGrp (hack (by rw [hvcur])) rfl
    rw [← afterOp_apply] at hwcur
    exact ⟨_, w, v.cur, ht.trans (hu.trans (hv.trans hw)), by rw [hwgrp, hvgrp, hugrp, hgrp, hv.frame.cfg, hucfg], hwcur,
      by rw [hvcur, hucur, hcur]; rfl⟩

/-! ### From START of an erase to its end -/

/-- What a whole erase of `[lo, lo + n)` leaves of the group `g` (R175, R185). -/
structure Erased (c : Config) (b : Bank) (g : Group) (lo n : Nat) (s t : State) : Prop where
  state : t.cur.state = .done
  res : t.cur.res = .ok
  grp : t.grp b = { g with
    keyState := .k0, latch := none, inflight := none, eop := g.eop && !c.hasEop
    pg := false, uer := false, mer := false, lock := true }
  bytes : ∀ a, t.mem.read a = if lo ≤ a ∧ a < lo + n then 0xFF else s.mem.read a

/-- An erase started on an unlocked group with no flag ends OK. -/
theorem ran_erase (hi : i ∈ mutators b idx) (hne : i ≠ .writeUnit b idx) (hc : s.cfg.clockEnabled = true)
    (hidle : enginesIdle s) (hl : (s.grp b).lock = false) (hpend : (s.grp b).errorPending = false)
    {op : Group → Operation} (hexec : exec i s = .next { (s.onGrp b fun g => { g with
        keyState := .k0, latch := none, inflight := some (op g) }).onCur
      (fun q => { q with polls := 0, state := .waitBsy }) with draws := s.draws + 1 }) {lo n : Nat}
    (hdone : ∀ u : State, u.cfg = s.cfg → (u.grp b).inflight = some (op (s.grp b)) →
      u.engineStep b = u.eraseDone b lo n) :
    ∃ m t, Ran settle i b m s t ∧ Erased s.cfg b (s.grp b) lo n s t := by
  obtain ⟨u, hu, hran, hcur⟩ := ran_settle hidle hexec
  rw [hdone u hu.frame.cfg (by rw [hu.grp])] at hran hcur
  have hgrp : (u.eraseDone b lo n).grp b =
      { s.grp b with keyState := .k0, latch := none, inflight := none, eop := (s.grp b).eop || s.cfg.hasEop } := by
    rw [eraseDone_grp, hu.grp, hu.frame.cfg]
    rfl
  have hread : ∀ a, (u.eraseDone b lo n).mem.read a = if lo ≤ a ∧ a < lo + n then 0xFF else s.mem.read a := fun a => by
    rw [State.eraseDone, onGrp_mem, ← hu.mem]
    exact Memory.read_erase u.mem lo n a
  generalize u.eraseDone b lo n = t at hran hcur hgrp hread
  have hcfg := hran.frame.cfg
  have htsteady : Steady settle b t := .prompt (by rw [hcfg, hc]) (hran.enginesIdle hidle (by rw [hgrp]))
  obtain ⟨m, v, q, hv, hvgrp, hvcur, -⟩ := reach_afterOp hi htsteady (by rw [hcur]) (by rw [hgrp])
    (by rw [hgrp]; exact hpend) (fun h => by rw [hgrp, ← hcfg, h, Bool.or_true])
  rw [afterOp_apply, if_neg hne] at hvcur
  obtain ⟨w, hw, hwgrp, hstate, hres⟩ := reach_postClear hi (hv.steady htsteady) (by rw [hvcur])
    (by rw [hvgrp, hgrp]; exact hl) (by rw [hvgrp, hgrp])
  refine ⟨_, w, hran.trans (hv.trans hw).toRan, hstate, by rw [hres, hvcur], ?_,
    fun a => by rw [hw.mem, hv.mem, hread]⟩
  rw [hwgrp, hvgrp, hgrp, hcfg]
  simp only [Bool.and_or_distrib_right, Bool.and_not_self, Bool.or_false]

/-! ### ERASE_UNIT and ERASE_BANK -/

theorem exec_cfgReadCr (hi : i ∈ mutators b idx) (hc : s.cfg.clockEnabled = true) (hst : s.cur.state = .cfgReadCr) :
    exec i s = .next ((s.onGrp b fun g => { g with keyState := .k0 }).onCur fun q =>
      { q with crv := crWord s.cfg (s.grp b), state := .cfgWriteCr }) := by
  rw [exec_mutator hi (by rw [hst]; decide), sharedStep, hst]
  exact congrArg _ (seqReadCr_on hc b _)

/-- VALIDATE of ERASE_UNIT with an index in range (R179). -/
theorem exec_eraseValidate (hst : s.cur.state = .validate) (hu : s.cur.idx.toNat < s.cfg.unitCount) :
    exec (.eraseUnit b idx) s = .next (s.onCur fun q => { q with state := .cfgReadCr }) := by
  simp only [exec, execEraseUnit, hst]
  exact congrArg _ (onCur_congr (if_neg (Nat.not_le.mpr hu)))

/-- A mutating command on an unlocked idle group reads CR before it configures (R180, R186, R202). -/
theorem reach_cfgWriteCr (hi : i ∈ mutators b idx) (hs : Steady each b s) (hst : s.cur.state = .cfgReadCr) :
    ∃ t, Reach each i b 1 s t ∧ t.grp b = { s.grp b with keyState := .k0 } ∧ t.cur.state = .cfgWriteCr ∧
      t.cur.crv = crWord t.cfg (t.grp b) ∧ t.cur.operands = s.cur.operands := by
  obtain ⟨t, ht, hgrp, hcur⟩ := hs.onGrp (exec_cfgReadCr hi hs.clock hst) rfl
  exact ⟨t, ht, hgrp, by rw [hcur], by rw [hcur, hgrp, ht.frame.cfg]; rfl, by rw [hcur]; rfl⟩

/-- The configuration of an erase on an unlocked idle group: `arm` of the group, by the configure value `w` of CR. -/
theorem reach_start (hi : i ∈ mutators b idx) (hs : Steady each b s) (hst : s.cur.state = .cfgReadCr)
    (hl : (s.grp b).lock = false) (hidle : (s.grp b).inflight = none) {arm : Group → Group} {w : Word → Word}
    (hexec : ∀ t : State, t.cfg = s.cfg → t.cur.idx = s.cur.idx → t.cur.state = .cfgWriteCr → (t.grp b).lock = false →
      (t.grp b).inflight = none → t.cur.crv.getLsbD 31 = false → exec i t =
        .next { (t.onGrp b arm).onCur (fun q => { q with crv := w t.cur.crv, state := .start }) with draws := t.draws + 1 })
    (hfields : ∀ g v, v.getLsbD 31 = g.lock → HoldsFields s.cfg (arm g) (w v))
    (harm : ∀ g : Group, arm { g with keyState := .k0 } = arm g) (hin : ∀ g, (arm g).inflight = g.inflight) :
    ∃ u, Reach each i b 2 s u ∧ u.grp b = arm (s.grp b) ∧ u.cur.state = .start ∧
      HoldsFields u.cfg (u.grp b) u.cur.crv := by
  obtain ⟨t, ht, hgrp, hcur⟩ := hs.onGrp (exec_cfgReadCr hi hs.clock hst) rfl
  have hlock : t.cur.crv.getLsbD 31 = (t.grp b).lock := by
    rw [hcur, hgrp]
    exact crWord_lock _ _
  obtain ⟨u, hu, hugrp, hucur⟩ := (ht.steady hs).onGrp_drawn (hexec t ht.frame.cfg (by rw [hcur]) (by rw [hcur])
    (by rw [hgrp]; exact hl) (ht.inflight.trans hidle) (by rw [hlock, hgrp]; exact hl)) (hin _)
  refine ⟨u, ht.trans hu, by rw [hugrp, hgrp, harm], by rw [hucur], ?_⟩
  rw [hugrp, hucur, hu.frame.cfg, ht.frame.cfg]
  exact hfields _ _ hlock

section
variable (hc : s.cfg.clockEnabled = true) (hidle : enginesIdle s) (hst : s.cur.state = .cfgReadCr)
  (hl : (s.grp b).lock = false) (hpend : (s.grp b).errorPending = false)
include hc hidle hst hl hpend

/-- ERASE_UNIT from CFG_READ_CR, on an unlocked idle group with no flag, to the end. -/
theorem ran_eraseUnit (hu : s.cur.idx.toNat < s.cfg.unitCount) (hwrp : s.cur.idx.toNat ∉ s.cfg.wrpUnits b) :
    ∃ n t, Ran settle (.eraseUnit b idx) b n s t ∧ Erased s.cfg b ((s.grp b).armUnit s.cfg b s.cur.idx)
      (s.cfg.unitToAddress s.cur.idx.toNat b) s.cfg.unitSize s t := by
  have hi : Instr.eraseUnit b idx ∈ mutators b idx := List.mem_cons_self
  have hbidle := (enginesIdle_iff s).mp hidle b
  obtain ⟨u, hrun, hgrp, hstate, hfields⟩ := reach_start hi (Steady.prompt hc hidle) hst hl hbidle
    (fun t hcfg hidx hst hl hidle hcrv =>
      hcfg ▸ hidx ▸ exec_configure_eraseUnit (hcfg ▸ hc) hst hl hidle hcrv)
    (fun g v hv => eraseUnitCfg_holdsFields s.cfg b s.cur.idx hv) (fun _ => rfl) (fun _ => rfl)
  have hcfg := hrun.frame.cfg
  have huidle : (u.grp b).inflight = none := hrun.inflight.trans hbidle
  have hexec := exec_start_eraseUnit (idx := idx) (by rw [hcfg, hc]) hstate hfields (by rw [hgrp]; exact hl)
    huidle (by rw [hgrp]; exact hpend) (by rw [hgrp]; rfl) (by rw [hgrp]; rfl) (by rw [hgrp]; rfl)
    (fun hd => by rw [hcfg] at hd; rw [hgrp]; exact if_pos hd) (by rw [hgrp, hcfg]; exact hu)
    (by rw [hgrp, hcfg]; exact hwrp)
  obtain ⟨n, v, hv, hdone, hres, hvgrp, hbytes⟩ := ran_erase hi (by simp) (by rw [hcfg, hc])
    (hrun.toRan.enginesIdle hidle huidle) (by rw [hgrp]; exact hl) (by rw [hgrp]; exact hpend) hexec
    (lo := s.cfg.unitToAddress s.cur.idx.toNat b) (n := s.cfg.unitSize)
    (fun w hw hop => by rw [engineStep_eraseUnit hop, hw, hcfg, hgrp]; rfl)
  rw [hgrp, hcfg] at hvgrp
  exact ⟨_, v, hrun.toRan.trans hv, hdone, hres, hvgrp, by simpa only [hrun.mem] using hbytes⟩

/-- ERASE_BANK from CFG_READ_CR, on an unlocked idle group with no flag, to the end. -/
theorem ran_eraseBank (hwrp : s.cfg.wrpUnits b = []) :
    ∃ n t, Ran settle (.eraseBank b) b n s t ∧ Erased s.cfg b ((s.grp b).armBank s.cfg) (s.cfg.origin b) s.cfg.bankSize
      s t := by
  have hi : Instr.eraseBank b ∈ mutators b 0 := by simp [mutators]
  have hbidle := (enginesIdle_iff s).mp hidle b
  obtain ⟨u, hrun, hgrp, hstate, hfields⟩ := reach_start hi (Steady.prompt hc hidle) hst hl hbidle
    (fun t hcfg _ hst hl hidle hcrv => hcfg ▸ exec_configure_eraseBank (hcfg ▸ hc) hst hl hidle hcrv)
    (fun g v hv => eraseBankCfg_holdsFields s.cfg hv) (fun _ => rfl) (fun _ => rfl)
  have hcfg := hrun.frame.cfg
  have huidle : (u.grp b).inflight = none := hrun.inflight.trans hbidle
  have hexec := exec_start_eraseBank (by rw [hcfg, hc]) hstate hfields (by rw [hgrp]; exact hl)
    huidle (by rw [hgrp]; exact hpend) (by rw [hgrp]; rfl) (by rw [hgrp]; rfl) (by rw [hgrp]; rfl)
    (by rw [hcfg]; exact hwrp)
  obtain ⟨n, v, hv, hdone, hres, hvgrp, hbytes⟩ := ran_erase hi (by simp) (by rw [hcfg, hc])
    (hrun.toRan.enginesIdle hidle huidle) (by rw [hgrp]; exact hl) (by rw [hgrp]; exact hpend) hexec
    (lo := s.cfg.origin b) (n := s.cfg.bankSize)
    (fun w hw hop => by rw [engineStep_eraseBank hop, hw, hcfg])
  rw [hgrp, hcfg] at hvgrp
  exact ⟨_, v, hrun.toRan.trans hv, hdone, hres, hvgrp, by simpa only [hrun.mem] using hbytes⟩

end

theorem and_not_eq_false {x h : Bool} (hh : h = true) : (x && !h) = false := by rw [hh]; exact Bool.and_false x

/-- Settles O37: the flags cleared, the unit validated, and the erase of it from CFG_READ_CR on. -/
theorem eraseUnitRunsToOk : Obligations.EraseUnitRunsToOk := by
  intro s b idx h hidle hkey hu hwrp
  have hi : Instr.eraseUnit b idx ∈ mutators b idx := List.mem_cons_self
  have hs : Steady settle b s := .prompt h.clock hidle
  have hbidle := (enginesIdle_iff s).mp hidle b
  obtain ⟨n, t, q, ht, hgrp, hcur, hops⟩ := reach_afterFlagClear hi h hs hkey hbidle
  have hidx : q.idx = idx := congrArg Operands.idx hops
  simp only [afterFlagClear_apply, reduceCtorEq, if_false] at hcur
  have htidx : t.cur.idx = idx := by rw [hcur]; exact hidx
  obtain ⟨u, hu', hugrp, hucur⟩ := (ht.steady hs).onCur
    (exec_eraseValidate (b := b) (idx := idx) (by rw [hcur]) (by rw [htidx, ht.frame.cfg]; exact hu))
  have hrun := ht.trans hu'
  have hcfg := hrun.frame.cfg
  have huidx : u.cur.idx = idx := by rw [hucur]; exact htidx
  obtain ⟨m, v, hv, hstate, hres, hvgrp, hbytes⟩ := ran_eraseUnit (idx := idx) (by rw [hcfg, h.clock])
    (hrun.toRan.enginesIdle hidle (hrun.inflight.trans hbidle)) (by rw [hucur]) (by rw [hugrp, hgrp])
    (by rw [hugrp, hgrp]; rfl) (by rw [huidx, hcfg]; exact hu) (by rw [huidx, hcfg]; exact hwrp)
  rw [huidx, hcfg] at hbytes hvgrp
  rw [hugrp, hgrp] at hvgrp
  have hran := hrun.toRan.trans hv
  refine ⟨_, v, hran.run, hstate, hres, fun a => ?_, by rw [hvgrp], by rw [hvgrp]; rfl, by rw [hvgrp], by rw [hvgrp],
    by rw [hvgrp], by rw [hvgrp]; rfl, fun he => ?_, by rw [hvgrp], by rw [hvgrp], hran.frame⟩
  · rw [hbytes, hrun.mem, Nat.succ_mul, ← Nat.add_assoc]
    rfl
  · rw [hvgrp]
    exact and_not_eq_false he

/-- Settles O38: the flags cleared, and the erase of the bank from CFG_READ_CR on. -/
theorem eraseBankRunsToOk : Obligations.EraseBankRunsToOk := by
  intro s b h hidle hkey hwrp
  have hi : Instr.eraseBank b ∈ mutators b 0 := by simp [mutators]
  have hs : Steady settle b s := .prompt h.clock hidle
  have hbidle := (enginesIdle_iff s).mp hidle b
  obtain ⟨n, t, q, ht, hgrp, hcur, -⟩ := reach_afterFlagClear hi h hs hkey hbidle
  simp only [afterFlagClear_apply, reduceCtorEq, if_false, if_true] at hcur
  have hcfg := ht.frame.cfg
  obtain ⟨m, v, hv, hstate, hres, hvgrp, hbytes⟩ := ran_eraseBank (b := b) (by rw [hcfg, h.clock])
    (ht.toRan.enginesIdle hidle (ht.inflight.trans hbidle)) (by rw [hcur]) (by rw [hgrp])
    (by rw [hgrp]; rfl) (by rw [hcfg]; exact hwrp)
  rw [hcfg, ht.mem] at hbytes
  rw [hgrp, hcfg] at hvgrp
  have hran := ht.toRan.trans hv
  refine ⟨_, v, hran.run, hstate, hres, hbytes, by rw [hvgrp], by rw [hvgrp], by rw [hvgrp],
    by rw [hvgrp], by rw [hvgrp]; rfl, fun he => ?_, by rw [hvgrp], by rw [hvgrp], hran.frame⟩
  rw [hvgrp]
  exact and_not_eq_false he

end Sys2Proof.Machine
end

section
/-! PROOFS. Family other, WRITE_UNIT whole under the prompt schedule (R200-R206): each word is a pair of half writes, the
completion of its program, and AFTER_OP. -/
namespace Sys2Proof.Machine
variable {each : State → State} {s t u : State} {b : Bank} {i : Instr} {idx : BitVec 8}

/-! ### One word -/

/-- The completion of a program that is accepted (R125). -/
theorem programDone_accepted {a : Nat} {d : DWord} (h : s.programAccepted a d = true) :
    (s.programDone b a d).grp b = (s.grp b).complete s.cfg ∧
      (s.programDone b a d).mem = s.mem.fill a 8 (byteOf d) ∧ (s.programDone b a d).marks = addMark s.marks a := by
  rw [State.programDone, if_pos h]
  refine ⟨?_, onGrp_mem _ _ _, onGrp_marks _ _ _⟩
  rw [onGrp_grp_same]
  cases b <;> rfl

/-- The two halves of a double-word (R203). -/
theorem halves_append (w : DWord) : w.extractLsb' 32 32 ++ w.extractLsb' 0 32 = w := by
  apply BitVec.eq_of_getLsbD_eq
  intro j hj
  simp only [BitVec.getLsbD_append, BitVec.getLsbD_extractLsb']
  split
  · next h => simp [h]
  · next h =>
    rw [decide_eq_true (by omega), Bool.true_and]
    congr 1
    omega

theorem Sequencer.dword_congr {p q : Sequencer} (h : p.operands = q.operands) (k : Nat) : p.dword k = q.dword k := by
  have hdbuf : p.dbuf = q.dbuf := congrArg Operands.dbuf h
  have hera : p.dbufEra = q.dbufEra := congrArg Operands.dbufEra h
  rw [Sequencer.dword, Sequencer.dword, hdbuf, hera]

/-- The group of a WRITE_UNIT between two words (R202). -/
structure Programs (g : Group) : Prop where
  lock : g.lock = false
  pg : g.pg = true
  uer : g.uer = false
  mer : g.mer = false
  latch : g.latch = none
  idle : g.inflight = none
  pend : g.errorPending = false

/-- A program of word j would be accepted (R125). -/
def WordFree (base : Nat) (s : State) (j : Nat) : Prop :=
  s.cur.dword j = 0 ∨ ((∀ o, o < 8 → s.mem.read (base + 8 * j + o) = 0xFF) ∧
    (s.cfg.rewriteCheck = .content ∨ base + 8 * j ∉ s.marks))

/-- WRITE_UNIT stands at PG_WRITE_LO with m + 1 words to write, word j of them at `base + 8 * j`. -/
structure WritesAt (b : Bank) (base m : Nat) (s : State) : Prop where
  config : s.cfg.wf = true
  clock : s.cfg.clockEnabled = true
  idle : enginesIdle s
  state : s.cur.state = .pgWriteLo
  group : Programs (s.grp b)
  left : s.cur.k.toNat + (m + 1) = s.cur.arg1.toNat
  addr : s.cur.addr.toNat = base + 8 * s.cur.k.toNat
  aligned : base % 8 = 0
  fits : base + 8 * s.cur.arg1.toNat ≤ 2 ^ 32
  unit : ∀ o, o < 8 * s.cur.arg1.toNat → s.cfg.inFlash b (base + o) = true ∧ s.cfg.unitOf b (base + o) ∉ s.cfg.wrpUnits b
  free : ∀ j, s.cur.k.toNat ≤ j → j < s.cur.arg1.toNat → WordFree base s j

theorem add_toNat_of_fits {a : Word} {n : Nat} (h : a.toNat + n < 2 ^ 32) : (a + BitVec.ofNat 32 n).toNat = a.toNat + n := by
  rw [BitVec.toNat_add, BitVec.toNat_ofNat, Nat.mod_eq_of_lt (show n < 2 ^ 32 by omega)]
  exact Nat.mod_eq_of_lt h

/-- Word K is stored, and the command stands at AFTER_OP. -/
theorem ran_word {base m : Nat} (h : WritesAt b base m s) : ∃ n t q, Ran settle (.writeUnit b idx) b n s t ∧
    t.cur = afterOp b idx (.writeUnit b idx) q ∧ q.operands = s.cur.operands ∧
    t.grp b = { s.grp b with keyState := .k0, eop := (s.grp b).eop && !s.cfg.hasEop } ∧
    t.mem = s.mem.fill (base + 8 * s.cur.k.toNat) 8 (byteOf (s.cur.dword s.cur.k.toNat)) ∧
    t.marks = addMark s.marks (base + 8 * s.cur.k.toNat) := by
  obtain ⟨hw, hc, hidle, hst, hprog, hleft, haddr, haligned, hfits, hunit, hfree⟩ := h
  obtain ⟨hl, hpg, huer, hmer, hlatch, hbidle, hpend⟩ := hprog
  have hgate := Group.not_gateShut hl hpg huer hmer
  have hs : Steady settle b s := .prompt hc hidle
  have hin := hunit (8 * s.cur.k.toNat) (by omega)
  have hin4 := hunit (8 * s.cur.k.toNat + 4) (by omega)
  have haddr4 : (s.cur.addr + 4).toNat = s.cur.addr.toNat + 4 := add_toNat_of_fits (n := 4) (by omega)
  rw [← haddr] at hin
  rw [← Nat.add_assoc, ← haddr, ← haddr4] at hin4
  obtain ⟨t, ht, hgrp, hcur⟩ := hs.onGrp_drawn (exec_pgWriteLo (idx := idx) hw hc hbidle hgate hst hlatch hpend hin.1
    (by omega) hin.2) rfl
  have hcfg := ht.frame.cfg
  obtain ⟨u, hu, hran, hucur⟩ := ran_settle (ht.toRan.enginesIdle hidle (by rw [hgrp]; exact hbidle))
    (exec_pgWriteHi (b := b) (idx := idx) (by rw [hcfg, hw]) (by rw [hcfg, hc]) (by rw [hgrp]; exact hbidle)
      (by rw [hgrp]; exact hgate) (by rw [hcur]) (by rw [hgrp]) (by rw [hcur]; exact haddr4)
      (by rw [hcur, hcfg]; exact hin4.1))
  have hugrp : u.grp b = { s.grp b with
      latch := none, inflight := some (.program s.cur.addr (s.cur.dword s.cur.k.toNat)) } := by
    rw [hu.grp, hgrp, hcur]
    exact congrArg (fun w => { s.grp b with latch := none, inflight := some (.program s.cur.addr w) })
      (halves_append (s.cur.dword s.cur.k.toNat))
  have hucfg : u.cfg = s.cfg := hu.frame.cfg.trans hcfg
  have humem : u.mem = s.mem := hu.mem.trans ht.mem
  have humarks : u.marks = s.marks := hu.marks.trans ht.marks
  have haccepted : u.programAccepted s.cur.addr.toNat (s.cur.dword s.cur.k.toNat) = true := by
    rw [programAccepted_iff, humem, hucfg, humarks, haddr]
    exact (hfree _ le_rfl (by omega)).symm
  obtain ⟨hvgrp, hvmem, hvmarks⟩ := programDone_accepted (b := b) haccepted
  rw [← engineStep_program (by rw [hugrp])] at hvgrp hvmem hvmarks
  rw [hugrp, hucfg] at hvgrp
  rw [humem, haddr] at hvmem
  rw [humarks, haddr] at hvmarks
  generalize u.engineStep b = v at hran hucur hvgrp hvmem hvmarks
  have hrun := ht.toRan.trans hran
  have hvidle : (v.grp b).inflight = none := by rw [hvgrp]; rfl
  obtain ⟨n, w, q, hw, hwgrp, hwcur, hq⟩ := reach_afterOp (i := .writeUnit b idx) (idx := idx) (by simp [mutators])
    (Steady.prompt (by rw [hrun.frame.cfg, hc]) (hrun.enginesIdle hidle hvidle)) (by rw [hucur]) hvidle
    (by rw [hvgrp]; exact hpend) (fun he => by rw [hrun.frame.cfg] at he; rw [hvgrp, Group.complete, he, Bool.or_true])
  refine ⟨_, w, q, hrun.trans hw.toRan, hwcur, by rw [hq, hucur, hcur]; rfl, ?_, by rw [hw.mem, hvmem],
    by rw [hw.marks, hvmarks]⟩
  rw [hwgrp, hvgrp, hrun.frame.cfg]
  simp only [Group.complete, hlatch, hbidle, Bool.and_or_distrib_right, Bool.and_not_self, Bool.or_false]

/-! ### Every word -/

/-- The words from DBUF[K] on are stored, from `base + 8 * K` on, and the command stands at CLR_READ_CR with OK. -/
structure WordsStored (b : Bank) (base : Nat) (s t : State) : Prop where
  state : t.cur.state = .clrReadCr
  res : t.cur.res = .ok
  grp : t.grp b = { s.grp b with keyState := .k0, eop := (s.grp b).eop && !s.cfg.hasEop }
  stored : ∀ j o, s.cur.k.toNat ≤ j → j < s.cur.arg1.toNat → o < 8 →
    t.mem.read (base + 8 * j + o) = byteOf (s.cur.dword j) o
  others : ∀ a, ¬(base + 8 * s.cur.k.toNat ≤ a ∧ a < base + 8 * s.cur.arg1.toNat) → t.mem.read a = s.mem.read a

theorem ran_words {base m : Nat} (h : WritesAt b base m s) :
    ∃ n t, Ran settle (.writeUnit b idx) b n s t ∧ WordsStored b base s t := by
  induction m generalizing s with
  | zero =>
    obtain ⟨n, t, q, ht, hcur, hops, hgrp, hmem, -⟩ := ran_word (idx := idx) h
    have hleft := h.left
    have harg : q.arg1 = s.cur.arg1 := congrArg Operands.arg1 hops
    have hk : q.k = s.cur.k := congrArg Operands.k hops
    have hk1 := succ_toNat_of_lt (show s.cur.k.toNat < s.cur.arg1.toNat by omega)
    rw [afterOp_apply, if_pos rfl, hk, harg, hk1, if_neg (by omega)] at hcur
    refine ⟨n, t, ht, by rw [hcur], by rw [hcur], hgrp, fun j o h1 h2 ho => ?_, fun a ha => ?_⟩
    · obtain rfl : j = s.cur.k.toNat := by omega
      rw [hmem, Memory.read_fill_at _ _ ho]
    · rw [hmem, Memory.read_fill, if_neg (by omega)]
  | succ m ih =>
    obtain ⟨n, t, q, ht, hcur, hops, hgrp, hmem, hmarks⟩ := ran_word (idx := idx) h
    obtain ⟨hw, hc, hidle, -, hprog, hleft, haddr, haligned, hfits, hunit, hfree⟩ := h
    have hdword := Sequencer.dword_congr hops
    have harg : q.arg1 = s.cur.arg1 := congrArg Operands.arg1 hops
    have hqaddr : q.addr = s.cur.addr := congrArg Operands.addr hops
    have hk : q.k = s.cur.k := congrArg Operands.k hops
    have hk1 := succ_toNat_of_lt (show s.cur.k.toNat < s.cur.arg1.toNat by omega)
    rw [afterOp_apply, if_pos rfl, hk, harg, hk1, if_pos (by omega), hqaddr] at hcur
    have htk : t.cur.k.toNat = s.cur.k.toNat + 1 := by rw [hcur]; exact hk1
    have htarg : t.cur.arg1 = s.cur.arg1 := by rw [hcur]
    have htword : ∀ j, t.cur.dword j = s.cur.dword j := fun j => by rw [← hdword, hcur]; rfl
    have haddr8 : (s.cur.addr + 8).toNat = s.cur.addr.toNat + 8 := add_toNat_of_fits (n := 8) (by omega)
    have hcfg := ht.frame.cfg
    have hkept : ∀ j o, s.cur.k.toNat + 1 ≤ j → t.mem.read (base + 8 * j + o) = s.mem.read (base + 8 * j + o) :=
      fun j o hj => by rw [hmem, Memory.read_fill, if_neg (by omega)]
    have hnext : WritesAt b base m t := {
      config := by rw [hcfg, hw]
      clock := by rw [hcfg, hc]
      idle := ht.enginesIdle hidle (by rw [hgrp]; exact hprog.idle)
      state := by rw [hcur]
      group := by
        rw [hgrp]
        exact ⟨hprog.lock, hprog.pg, hprog.uer, hprog.mer, hprog.latch, hprog.idle, hprog.pend⟩
      left := by rw [htk, htarg]; omega
      addr := by
        rw [htk, hcur]
        dsimp only
        omega
      aligned := haligned
      fits := by rw [htarg]; exact hfits
      unit := by rw [htarg, hcfg]; exact hunit
      free := fun j h1 h2 => by
        rw [htk] at h1
        rw [htarg] at h2
        refine (hfree j (by omega) h2).imp (fun hz => by rw [htword, hz]) fun ⟨hff, hun⟩ => ⟨fun o ho => ?_, ?_⟩
        · rw [hkept j o h1, hff o ho]
        · rw [hcfg, hmarks, mem_addMark]
          exact hun.imp_right fun hun hor => hor.elim (fun he => by omega) hun }
    obtain ⟨p, v, hv, hstate, hres, hvgrp, hstored, hothers⟩ := ih hnext
    rw [htk, htarg] at hstored hothers
    rw [hgrp, hcfg] at hvgrp
    refine ⟨n + p, v, ht.trans hv, hstate, hres, ?_, fun j o h1 h2 ho => ?_, fun a ha => ?_⟩
    · rw [hvgrp]
      simp only [Bool.and_assoc, Bool.and_self]
    · rcases Nat.eq_or_lt_of_le h1 with rfl | h1
      · rw [hothers _ (by omega), hmem, Memory.read_fill_at _ _ ho]
      · rw [hstored j o h1 h2 ho, htword]
    · rw [hothers a (by omega), hmem, Memory.read_fill, if_neg (by omega)]

/-! ### The command -/

/-- WRITE_UNIT in range comes to the first word, or past the last where there is none, with ADDR at its unit, the error
flags cleared and PG set (R201, R202). -/
theorem reach_firstWord (h : Ready s b) (hs : Steady each b s) (hkey : unlockable (s.grp b))
    (hidle : (s.grp b).inflight = none) (hu : idx.toNat < s.cfg.unitCount) (hsize : 8 * s.cur.arg1.toNat ≤ s.cfg.unitSize) :
    ∃ (n : Nat) (t : State) (q : Sequencer), Reach each (.writeUnit b idx) b n s t ∧ t.grp b = { s.grp b with
        lock := false, keyState := .k0, pg := true, uer := false, mer := false
        wrperr := false, sizerr := false, pgserr := false, eccerr := false, bsyerr := false } ∧
      t.cur = (if 0 < s.cur.arg1.toNat then { q with state := .pgWriteLo } else
        { q with res := .ok, state := .clrReadCr }) ∧
      q.operands = { s.cur with
        idx := idx, addr := BitVec.ofNat 32 (s.cfg.unitToAddress idx.toNat b), k := 0 }.operands := by
  have hi : Instr.writeUnit b idx ∈ mutators b idx := by simp [mutators]
  obtain ⟨n, t, q, ht, hgrp, hcur, hops⟩ := reach_afterFlagClear hi h hs hkey hidle
  simp only [afterFlagClear_apply, reduceCtorEq, if_false] at hcur
  have hqidx : q.idx = idx := congrArg Operands.idx hops
  have hqarg : q.arg1 = s.cur.arg1 := congrArg Operands.arg1 hops
  have htsteady := ht.steady hs
  have hvalidate : exec (.writeUnit b idx) t = .next (t.onCur fun q => { q with
      addr := BitVec.ofNat 32 (t.cfg.unitToAddress q.idx.toNat b), k := 0, state := .cfgReadCr }) := by
    simp only [exec, execWriteUnit, hcur]
    refine congrArg _ (onCur_congr ((writeValidate_apply _ _ _).trans (if_neg ?_)))
    rw [hcur, ht.frame.cfg]
    exact not_or.mpr ⟨by rw [hqidx]; omega, by rw [hqarg]; omega⟩
  obtain ⟨u, hu', hugrp, hucur⟩ := htsteady.onCur hvalidate
  have husteady := hu'.steady htsteady
  obtain ⟨v, hv, hvgrp, hstate, hcrv, hvops⟩ := reach_cfgWriteCr hi husteady (by rw [hucur])
  have hvgrp : v.grp b = { s.grp b with
      lock := false, keyState := .k0
      wrperr := false, sizerr := false, pgserr := false, eccerr := false, bsyerr := false } := by
    rw [hvgrp, hugrp, hgrp]
  have hvsteady := hv.steady husteady
  have hvcfg : v.cfg = s.cfg := (ht.trans (hu'.trans hv)).frame.cfg
  obtain ⟨-, hconfigure, -⟩ := programConfigureAndPair v b idx (by rw [hvcfg, h.config]) hvsteady.clock
  obtain ⟨w, hw, hwgrp, hwcur⟩ := hvsteady.onGrp_drawn
    (hconfigure hstate (by rw [hvgrp]) (by rw [hvgrp]; exact hidle) hcrv) rfl
  have hops' : v.cur.operands = { s.cur with
      idx := idx, addr := BitVec.ofNat 32 (s.cfg.unitToAddress idx.toNat b), k := 0 }.operands := by
    rw [hvops, hucur, hcur, ht.frame.cfg]
    exact congrArg (fun o : Operands =>
      { o with addr := BitVec.ofNat 32 (s.cfg.unitToAddress o.idx.toNat b), k := 0 }) hops
  have hvk : v.cur.k = 0 := congrArg Operands.k hops'
  have hvarg : v.cur.arg1 = s.cur.arg1 := congrArg Operands.arg1 hops'
  refine ⟨_, w, { v.cur with crv := (v.cur.crv &&& ~~~0x00000007#32) ||| 0x00000001#32 },
    ht.trans (hu'.trans (hv.trans hw)), by rw [hwgrp, hvgrp], ?_, hops'⟩
  rw [hwcur, hvk, hvarg]
  rfl

/-- A unit begins at a multiple of 8 (R9 (a), R5, R6). -/
theorem unitToAddress_aligned {c : Config} (hw : c.wf = true) (hb : c.hasBank b = true) (u : Nat) :
    c.unitToAddress u b % 8 = 0 := by
  have horigin := Config.wf_origin_aligned hw hb
  have hsize : u * c.unitSize % 8 = 0 := by rw [Nat.mul_mod, c.unitSize_mod, Nat.mul_zero, Nat.zero_mod]
  rw [Config.unitToAddress]
  omega

/-- Every word of WRITE_UNIT is stored in its unit, from DECODE to the post-clear. -/
theorem ran_data (h : Ready s b) (hidle : enginesIdle s) (hkey : unlockable (s.grp b)) (hlatch : (s.grp b).latch = none)
    (hu : idx.toNat < s.cfg.unitCount) (hwrp : idx.toNat ∉ s.cfg.wrpUnits b)
    (hsize : 8 * s.cur.arg1.toNat ≤ s.cfg.unitSize)
    (hfree : ∀ j, j < s.cur.arg1.toNat → WordFree (s.cfg.unitToAddress idx.toNat b) s j) :
    ∃ n t e, Ran settle (.writeUnit b idx) b n s t ∧ t.cur.state = .clrReadCr ∧ t.cur.res = .ok ∧
      t.grp b = { s.grp b with
        lock := false, keyState := .k0, pg := true, uer := false, mer := false
        wrperr := false, sizerr := false, pgserr := false, eccerr := false, bsyerr := false, eop := e } ∧
      (s.cfg.hasEop = true → s.cur.arg1 ≠ 0 → e = false) ∧
      (∀ j o, j < s.cur.arg1.toNat → o < 8 →
        t.mem.read (s.cfg.unitToAddress idx.toNat b + 8 * j + o) = byteOf (s.cur.dword j) o) ∧
      ∀ a, ¬(s.cfg.unitToAddress idx.toNat b ≤ a ∧ a < s.cfg.unitToAddress idx.toNat b + 8 * s.cur.arg1.toNat) →
        t.mem.read a = s.mem.read a := by
  have hbidle := (enginesIdle_iff s).mp hidle b
  have hbank := bankLegal_has h.legal
  obtain ⟨n, t, q, ht, hgrp, hcur, hops⟩ := reach_firstWord h (Steady.prompt h.clock hidle) hkey hbidle hu hsize
  by_cases hpos : 0 < s.cur.arg1.toNat
  · rw [if_pos hpos] at hcur
    obtain ⟨m, hm⟩ := Nat.exists_eq_succ_of_ne_zero hpos.ne'
    have hcfg := ht.frame.cfg
    have htops := (show t.cur.operands = q.operands by rw [hcur]; rfl).trans hops
    have hk : t.cur.k = 0 := congrArg Operands.k htops
    have harg : t.cur.arg1 = s.cur.arg1 := congrArg Operands.arg1 htops
    have haddr : t.cur.addr = BitVec.ofNat 32 (s.cfg.unitToAddress idx.toNat b) := congrArg Operands.addr htops
    have hdword : ∀ j, t.cur.dword j = s.cur.dword j := fun j => Sequencer.dword_congr htops j
    have hfits := unit_fits h.config hbank hu
    have hwrites : WritesAt b (s.cfg.unitToAddress idx.toNat b) m t := {
      config := by rw [hcfg, h.config]
      clock := by rw [hcfg, h.clock]
      idle := ht.toRan.enginesIdle hidle (ht.inflight.trans hbidle)
      state := by rw [hcur]
      group := by
        rw [hgrp]
        exact ⟨rfl, rfl, rfl, rfl, hlatch, hbidle, rfl⟩
      left := by rw [hk, harg, hm]; exact Nat.zero_add _
      addr := by
        rw [haddr, hk]
        exact unitToAddress_toNat h.config hbank hu s.cfg.unitSize_pos
      aligned := unitToAddress_aligned h.config hbank _
      fits := by rw [harg]; omega
      unit := fun o ho => by
        rw [harg] at ho
        obtain ⟨hin, hunit⟩ := Config.inUnit hbank hu (show o < s.cfg.unitSize by omega)
        rw [hcfg, hunit]
        exact ⟨hin, hwrp⟩
      free := fun j _ hj => by
        rw [harg] at hj
        rw [WordFree, hdword, ht.mem, hcfg, ht.marks]
        exact hfree j hj }
    obtain ⟨p, u, hu, hstate, hres, hugrp, hstored, hothers⟩ := ran_words (idx := idx) hwrites
    rw [hgrp, hcfg] at hugrp
    rw [harg, hk, ht.mem] at hothers
    rw [harg, hk] at hstored
    exact ⟨_, u, _, ht.toRan.trans hu, hstate, hres, hugrp, fun he _ => and_not_eq_false he,
      fun j o hj ho => by rw [hstored j o (Nat.zero_le _) hj ho, hdword], hothers⟩
  · rw [if_neg hpos] at hcur
    exact ⟨n, t, (s.grp b).eop, ht.toRan, by rw [hcur], by rw [hcur], hgrp,
      fun _ hne => absurd (BitVec.eq_of_toNat_eq (Nat.eq_zero_of_not_pos hpos)) hne,
      fun j o hj => absurd (Nat.zero_lt_of_lt hj) hpos, fun a _ => by rw [ht.mem]⟩

/-- Settles O39: every word stored, and the post-clear. -/
theorem writeUnitRunsToOk : Obligations.WriteUnitRunsToOk := by
  intro s b idx h hidle hkey hlatch hu hwrp hsize hfree
  have hbidle := (enginesIdle_iff s).mp hidle b
  obtain ⟨n, t, e, ht, hstate, hres, hgrp, heop, hread, hothers⟩ := ran_data h hidle hkey hlatch hu hwrp hsize hfree
  obtain ⟨v, hv, hvgrp, hdone, hvres⟩ := reach_postClear (b := b) (i := .writeUnit b idx) (idx := idx) (by simp [mutators])
    (Steady.prompt (by rw [ht.frame.cfg, h.clock]) (ht.enginesIdle hidle (by rw [hgrp]; exact hbidle))) hstate
    (by rw [hgrp]) (by rw [hgrp]; exact hbidle)
  have hran := ht.trans hv.toRan
  rw [hgrp] at hvgrp
  refine ⟨_, v, hran.run, hdone, by rw [hvres, hres], fun j o hj ho => ?_, fun a ha => ?_, by rw [hvgrp], by rw [hvgrp],
    by rw [hvgrp], by rw [hvgrp], by rw [hvgrp]; rfl, fun he hne => ?_, by rw [hvgrp]; exact hbidle, by rw [hvgrp],
    hran.frame⟩
  · rw [hv.mem]
    exact hread j o hj ho
  · rw [hv.mem]
    exact hothers a ha
  · rw [hvgrp]
    exact heop he hne

end Sys2Proof.Machine
end
